-- ==== Sys2Proof/Word.lean ====
section
/-! DEFINITION. The data types of the Register Codec and its plainest arithmetic (00_scope.md R6, R8, R9). -/

namespace Sys2Proof

/-- One byte of data: what a physical sub-register carries (`SUB_BITS = 8`, 00 R6). -/
abbrev Byte := BitVec 8
/-- A physical bus data word and an LDESC word (`PHYS_BITS = 32`, 00 R6). -/
abbrev Word := BitVec 32
/-- A physical byte address (`ADDR_BITS = 32`, 00 R6, 20 R50). -/
abbrev Addr := BitVec 32
/-- A logical value at the port, and a client local (`VAL_BITS = 64`, 00 R6; 43 R180). -/
abbrev Value := BitVec 64

/-- `STRIDE`: the byte distance between consecutive sub-registers (00 R6). -/
abbrev stride : Nat := 4

/-- The number of byte addresses, `2^ADDR_BITS` (10 R32). -/
abbrev addrSpace : Nat := 4294967296

/-- `SELFTEST_CLIENT`, the client id of the self-test probe (00 R6, 92 D35). -/
abbrev selftestClient : Nat := 0

/-- `WIDTHS = {1, 2, 4, 8}`: the legal logical widths (00 R6).
No other width can be written (92 D8). -/
inductive Width where
  | w1 | w2 | w4 | w8
deriving DecidableEq, Repr, Inhabited

/-- The width in bytes. -/
def Width.bytes : Width → Nat
  | .w1 => 1
  | .w2 => 2
  | .w4 => 4
  | .w8 => 8

end Sys2Proof
end

