-- ==== Sys2Proof/Syntax.lean ====
section
/-! DEFINITION. What can be written down: the instructions of the opcode table, requests and responses, bus cycles,
the client notation (30_encoding.md) and the moves of the agents (00_scope.md R11). -/

namespace Sys2Proof

/-- The operations of the opcode map (30 R93), one constructor a row of spec/opcode_table.json.
The operands `addr` and `wdata` of a logical operation stand in the request slot, and `ADR` and `DAT_W` of a bus cycle
come from the datapath registers (30 R80, R85, R87), so the encoded word carries the width and nothing else. -/
inductive Instr where
  /-- LREAD, `read_logical` (40 R101). -/
  | lread (w : Width)
  /-- LWRITE, `write_logical` (40 R102). -/
  | lwrite (w : Width)
  /-- PREAD, one physical word read (41 R130). -/
  | pread
  /-- PWRITE, one physical word write (41 R131). -/
  | pwrite
deriving DecidableEq, Repr, Inhabited

/-- An encoded word together with the port it is seen on: the port, not the bits, tells the format (30 R92). -/
inductive Encoded where
  /-- An LDESC word in `REQ[c].desc` (30 R81). -/
  | ldesc (d : Word)
  /-- The `CMD` of a bus cycle (30 R87). -/
  | cmd (c : BitVec 5)
deriving DecidableEq, Repr, Inhabited

/-- The contents of a filled request slot `REQ[c]` (10 R26, 30 R80, R85). -/
structure Request where
  desc  : Word
  addr  : Addr
  wdata : Value
deriving DecidableEq, Repr, Inhabited

/-- The contents of a filled response slot `RSP[c]` (10 R26, 30 R86). -/
inductive Response where
  | readDone (rdata : Value)
  | writeDone
deriving DecidableEq, Repr, Inhabited

/-- The two kinds of physical cycle in `HIST` (10 R35). -/
inductive BusKind where
  | pread | pwrite
deriving DecidableEq, Repr, Inhabited

/-- One event of the bus history: `(client, kind, paddr, data)` (10 R35). -/
structure BusEvent where
  client : Nat
  kind   : BusKind
  paddr  : Addr
  data   : Word
deriving DecidableEq, Repr, Inhabited

/-- A bus cycle as the sequencer drives it (30 R87). -/
structure BusCycle where
  cmd  : BitVec 5
  adr  : Addr
  datW : Word
deriving DecidableEq, Repr, Inhabited

/-! ## Client notation (30 R90) -/

/-- A label name. -/
abbrev Label := Nat

/-- The named base parameters an address may be written from (20 R60: "PHY, core, reader, writer", the SoC controller;
42 R150: `CSR_BASE`). -/
inductive BaseName where
  | phy | core | reader | writer | controller | csr
deriving DecidableEq, Repr, Inhabited

/-- `<addr>`: a constant or `<BASE>+<const>` (30 R90). -/
inductive AddrExpr where
  | const (a : Addr)
  | base (b : BaseName) (off : Nat)
deriving DecidableEq, Repr, Inhabited

/-- `<src>`: a local or an immediate (30 R90). -/
inductive Src where
  | reg (k : Nat)
  | imm (v : Value)
deriving DecidableEq, Repr, Inhabited

/-- `<expr>`: locals, immediates and the operators of 00 R8, with the `+` and `-` of 43 R184.
`v[k]` is `slice v k k`. -/
inductive Expr where
  | imm (v : Value)
  | reg (k : Nat)
  | add (a b : Expr)
  | sub (a b : Expr)
  | shl (a b : Expr)
  | shr (a b : Expr)
  | band (a b : Expr)
  | bor (a b : Expr)
  | bxor (a b : Expr)
  | mod (a b : Expr)
  | cat (a b : Expr)
  | slice (a : Expr) (hi lo : Nat)
  | zext (n : Nat) (a : Expr)
  | sext (n : Nat) (a : Expr)
deriving DecidableEq, Repr, Inhabited

/-- One statement of a client program (30 R90). -/
inductive Stmt where
  | lread (w : Width) (d : Nat) (addr : AddrExpr)
  | lwrite (w : Width) (addr : AddrExpr) (src : Src)
  | assign (d : Nat) (e : Expr)
  | beq (s : Nat) (imm : Value) (l : Label)
  | bne (s : Nat) (imm : Value) (l : Label)
  | jmp (l : Label)
  | fatal (code : Nat)
  | done
deriving DecidableEq, Repr, Inhabited

/-- A statement with the labels that mark it. -/
structure Line where
  labels : List Label
  stmt   : Stmt
deriving DecidableEq, Repr, Inhabited

/-- A client program: a finite list of statements with labels (43 R180). -/
abbrev Program := List Line

/-! ## Moves -/

/-- The moves of the agents (00 R11, R12), one a step of the machine. -/
inductive Move where
  /-- The sequencer moves; where it is idle, the arbiter offers it client `c` (41 R136). -/
  | sequencer (c : Nat)
  /-- Client `c` runs a step of its program (43 R181 to R186). -/
  | client (c : Nat)
  /-- A client that has no program fills its request slot (10 R26). -/
  | submit (c : Nat) (q : Request)
  /-- A client that has no program consumes its response (10 R26). -/
  | consume (c : Nat)
  /-- The device replaces `STATUS_VAL[r]` by `v` (42 R163). -/
  | device (r : Nat) (v : Value)
  /-- Reset, the attach of the codec (70 R230). -/
  | reset
deriving DecidableEq, Repr, Inhabited

end Sys2Proof
end

