-- ==== Sys2Proof/Config.lean ====
section
/-! DEFINITION. The parameters of the spec (00_scope.md R6, 42_csr_decoder.md R150) and the free values.
The parameters are one record of plain data that stands in the state, so that a claim about every state is a claim
about every configuration. -/

namespace Sys2Proof

/-- The kinds of register behind the decoder (42 R151). -/
inductive RegKind where
  | storage | status
deriving DecidableEq, Repr, Inhabited

/-- A per-register side effect `rd_effect` or `wr_effect` (42 R161): none, or a device effect known by a number only. -/
inductive Effect where
  | identity
  | device (id : Nat)
deriving DecidableEq, Repr, Inhabited

/-- One entry `(name, off, w, kind, reset, rd_effect, wr_effect)` of `REGS` (42 R150). -/
structure RegDesc where
  name     : String
  off      : Nat
  w        : Width
  kind     : RegKind
  reset    : Value
  rdEffect : Effect
  wrEffect : Effect
deriving DecidableEq, Repr, Inhabited

/-- One mapped block of byte addresses `[base, base + size)`. -/
structure Region where
  base : Nat
  size : Nat
deriving DecidableEq, Repr, Inhabited

/-- The parameters the model takes (00 R6). -/
structure Config where
  /-- `N_CLIENTS`. -/
  nClients    : Nat
  /-- `MAPPED`, as the list of the mapped blocks (20 R61). -/
  mappedBlocks : List Region
  /-- The register-block bases of 20 R60. -/
  phyBase     : Nat
  coreBase    : Nat
  readerBase  : Nat
  writerBase  : Nat
  ctrlBase    : Nat
  /-- `CSR_BASE`, `CSR_SPAN` and `REGS` of the decoder (42 R150). -/
  csrBase     : Nat
  csrSpan     : Nat
  regs        : List RegDesc
  /-- The self-test scratch register and its two constants (10 R31). -/
  scratchAddr : Addr
  scratchW    : Width
  expected    : Value
  test        : Value
deriving DecidableEq, Repr, Inhabited

/-- `MAPPED(paddr)` (20 R61). -/
def Config.mapped (c : Config) (a : Nat) : Bool :=
  c.mappedBlocks.any fun g => decide (g.base ≤ a ∧ a < g.base + g.size)

/-- The value of a named base parameter (20 R60). -/
def Config.base (c : Config) : BaseName → Nat
  | .phy => c.phyBase
  | .core => c.coreBase
  | .reader => c.readerBase
  | .writer => c.writerBase
  | .controller => c.ctrlBase
  | .csr => c.csrBase

/-- The access disciplines of a logical register: client-side metadata the codec does not check (10 R30, 92 D21). -/
inductive Discipline where
  | read | write | readModify
deriving DecidableEq, Repr, Inhabited

/-- A logical register `(addr, w, discipline)` (10 R30). -/
structure LogicalReg where
  addr       : Addr
  w          : Width
  discipline : Discipline
deriving DecidableEq, Repr, Inhabited

/-- The scratch register `(SCRATCH_ADDR, SCRATCH_W, READ_MODIFY)` (10 R31). -/
def Config.scratch (c : Config) : LogicalReg := ⟨c.scratchAddr, c.scratchW, .readModify⟩

/-- The register list of the example configuration of 95_test_vectors.md. -/
def Config.exampleRegs : List RegDesc :=
  [ ⟨"SCRATCH", 0x04, .w4, .storage, 0x12345678, .identity, .identity⟩,
    ⟨"WIDE",    0x20, .w8, .storage, 0, .identity, .identity⟩,
    ⟨"HALF",    0x40, .w2, .storage, 0, .identity, .identity⟩,
    ⟨"EVT",     0x50, .w1, .status,  0, .identity, .identity⟩,
    ⟨"CNT",     0x60, .w2, .status,  0, .identity, .identity⟩,
    ⟨"TAIL",    0xF8, .w2, .storage, 0, .identity, .identity⟩ ]

/-- The example configuration of 95_test_vectors.md, taken at power-on.
DESIGN CHOICE (log 1), unsafe for a claim about `State.reset` alone: the spec leaves these parameters OPEN (00 R6).
The register-block bases have no example value in the spec and are set to `CSR_BASE`. -/
def Config.specExample : Config where
  nClients := 3
  mappedBlocks := [⟨0x1000, 0x100⟩]
  phyBase := 0x1000
  coreBase := 0x1000
  readerBase := 0x1000
  writerBase := 0x1000
  ctrlBase := 0x1000
  csrBase := 0x1000
  csrSpan := 0x100
  regs := Config.exampleRegs
  scratchAddr := 0x1004
  scratchW := .w4
  expected := 0x12345678
  test := 0xDEADBEEF

/-- What a device effect sees: the cells that differ from reset, the STATUS values, the device-internal state (42 R155, R162). -/
structure DeviceView where
  cells    : List (Nat × Byte)
  status   : List Value
  internal : Nat
deriving DecidableEq, Repr, Inhabited

/-! ## Free values: constants without a body -/

/-- `draw()`: the `n`-th value the environment supplies when none is queued (00 R10). DESIGN CHOICE (log 3), safe. -/
opaque Config.freeValue : Nat → Value

/-- The `n`-th choice of the agent that moves next when none is queued (00 R11, 41 R136). DESIGN CHOICE (log 2), safe. -/
opaque Config.freeMove : Nat → Move

/-- The effect `rd_effect` number `id` of a read of slot `k` of register `r`: new STATUS values and device-internal state
(42 R161). DESIGN CHOICE (log 9), safe. -/
opaque Config.rdEffect : (id r k : Nat) → DeviceView → List Value × Nat

/-- The effect `wr_effect` number `id` of a write of byte `b` (42 R161). DESIGN CHOICE (log 9), safe. -/
opaque Config.wrEffect : (id r k : Nat) → Byte → DeviceView → List Value × Nat

/-- What a reset of the codec does to the device-internal state: "the device's affair" (70 R231).
DESIGN CHOICE (log 8), safe. -/
opaque Config.deviceReset : Nat → Nat

/-- The address of a `<BASE>+<const>` that does not fit 32 bits (30 R85, R90). DESIGN CHOICE (log 21), safe. -/
opaque Config.freeAddress : Nat → Addr

/-- The value of `v[hi:lo]` of a `k`-bit `v`, where the field does not lie inside `v`: 00 R8 states none.
DESIGN CHOICE (log 21), safe. -/
opaque Config.freeSlice : (k hi lo v : Nat) → Nat

/-- The value of `zext_n(v)` (`signed` false) or `sext_n(v)` (`signed` true) of a `k`-bit `v` with more than `n` bits: 00 R8 states
none. DESIGN CHOICE (log 21), safe. -/
opaque Config.freeExtension : (signed : Bool) → (k n v : Nat) → Nat

/-- Which of the statements that one label marks the statement at `pc` goes to (43 R185). DESIGN CHOICE (log 21), safe. -/
opaque Config.freeTarget : (p : Program) → (pc : Nat) → (l : Label) → Nat

/-- The remainder by zero in a client expression, which 00 R8 does not state. DESIGN CHOICE (log 13), safe. -/
opaque Config.freeRemainder : Nat → Nat

end Sys2Proof
end

