-- ==== Sys2Proof/WellFormed.lean ====
section
/-! DEFINITION. The well-formedness checks the spec states: requests (30_encoding.md R84, R85), bus cycles (R87, R88),
client programs (43_client_sequences.md R180) and configurations (00_scope.md R6, 42_csr_decoder.md R152).
An `Instr` has no ill-formed term: every `WCODE` is legal and nothing else varies (30 R83, R89). -/

namespace Sys2Proof

/-- A legal request: no reserved LDESC bit and an aligned base (30 R84, R85, R89; 20 R56). -/
abbrev Request.WellFormed (q : Request) : Prop :=
  q.desc.extractLsb' 4 28 = 0 ∧ q.desc.getLsbD 1 = false ∧ q.addr.toNat % stride = 0

/-- A bus cycle the sequencer may issue: full lanes, an aligned address, a read drives 0 and a write a zero-extended
byte (30 R87, R88). -/
abbrev BusCycle.WellFormed (y : BusCycle) : Prop :=
  y.cmd.extractLsb' 0 4 = 0b1111#4 ∧ y.adr.toNat % stride = 0 ∧ y.datW.extractLsb' 8 24 = 0 ∧
    (y.cmd.getLsbD 4 = false → y.datW = 0)

/-- The slots `[off/4, off/4 + w)` of two registers are disjoint (42 R152.2). -/
abbrev RegDesc.Disjoint (a b : RegDesc) : Prop :=
  a.off / 4 + a.w.bytes ≤ b.off / 4 ∨ b.off / 4 + b.w.bytes ≤ a.off / 4

/-- The configuration is well formed: the ranges of 00 R6 and 42 R150, and the four clauses of 42 R152. -/
abbrev Config.WellFormed (c : Config) : Prop :=
  1 ≤ c.nClients ∧ c.test ≠ c.expected ∧
  c.csrBase % 4 = 0 ∧ c.csrSpan % 4 = 0 ∧
  (∀ r ∈ c.regs, r.off % 4 = 0 ∧ r.off + 4 * r.w.bytes ≤ c.csrSpan) ∧
  c.regs.Pairwise RegDesc.Disjoint ∧
  c.csrBase + c.csrSpan ≤ addrSpace ∧
  (∀ i < c.csrSpan / 4, c.mapped (c.csrBase + 4 * i) = true)

/-- The labels a statement uses. -/
def Stmt.uses : Stmt → List Label
  | .beq _ _ l | .bne _ _ l | .jmp l => [l]
  | _ => []

/-- The statement may stand last in a program: `DONE`, `FATAL` or `JMP` (43 R180). -/
def Stmt.ends : Stmt → Bool
  | .done | .fatal _ | .jmp _ => true
  | _ => false

/-- The labels a program defines. -/
def Program.labels (p : Program) : List Label := p.flatMap Line.labels

/-- A client program is well formed (43 R180): every label it uses is defined, every `<w>` is legal, which its type says, and its
last statement is `DONE`, `FATAL` or `JMP`. -/
abbrev Program.WellFormed (p : Program) : Prop :=
  (∀ ln ∈ p, ∀ l ∈ ln.stmt.uses, l ∈ Program.labels p) ∧ (p.getLast?.any fun ln => ln.stmt.ends) = true

end Sys2Proof
end

