-- ==== Sys2Proof/Decode.lean ====
section
/-! DEFINITION. The decoder of LDESC and BUS words, total and rejecting by name, and the encoder (30_encoding.md R81 to R93). -/

namespace Sys2Proof

/-- Why a word is no instruction (30 R89). -/
inductive DecodeError where
  /-- LDESC `OP` is 10 or 11. -/
  | reservedOp
  /-- LDESC `RSV` is not zero. -/
  | reservedBits
  /-- BUS `CMD` is neither `01111` nor `11111`, a value that is never issued. -/
  | illegalCmd
deriving DecidableEq, Repr

/-! ## Fields of an LDESC word (30 R81) -/

/-- `OP = LDESC[1:0]`. -/
def ldescOp (d : Word) : BitVec 2 := d.extractLsb' 0 2
/-- `WCODE = LDESC[3:2]`. -/
def ldescWcode (d : Word) : BitVec 2 := d.extractLsb' 2 2
/-- `RSV = LDESC[31:4]`. -/
def ldescRsv (d : Word) : BitVec 28 := d.extractLsb' 4 28

/-- `w = 1 << WCODE` (30 R83). -/
def Width.ofCode (k : BitVec 2) : Width :=
  if k = 0b00#2 then .w1 else if k = 0b01#2 then .w2 else if k = 0b10#2 then .w4 else .w8

/-- `log2 w`, the inverse of `Width.ofCode` (30 R83). -/
def Width.code : Width → BitVec 2
  | .w1 => 0b00#2
  | .w2 => 0b01#2
  | .w4 => 0b10#2
  | .w8 => 0b11#2

/-- Decode an LDESC word (30 R82 to R84, R89). -/
def decodeLdesc (d : Word) : Except DecodeError Instr :=
  if ldescRsv d ≠ 0 then .error .reservedBits
  else if ldescOp d = 0b00#2 then .ok (.lread (Width.ofCode (ldescWcode d)))
  else if ldescOp d = 0b01#2 then .ok (.lwrite (Width.ofCode (ldescWcode d)))
  else .error .reservedOp

/-- Decode the `CMD` of a bus cycle (30 R87, R89). -/
def decodeCmd (c : BitVec 5) : Except DecodeError Instr :=
  if c = 0b01111#5 then .ok .pread
  else if c = 0b11111#5 then .ok .pwrite
  else .error .illegalCmd

/-- Decode a word by the port it is seen on (30 R92). -/
def decode : Encoded → Except DecodeError Instr
  | .ldesc d => decodeLdesc d
  | .cmd c => decodeCmd c

/-! ## Encoder -/

/-- The LDESC word with the given `OP` and width: `OP | (log2 w << 2)`, `RSV = 0` (30 R81, 40 R103). -/
def ldescWord (op : BitVec 2) (w : Width) : Word := (0#28 ++ w.code ++ op)

/-- The `CMD` of a bus cycle: `WE` over `SEL = 1111` (30 R87). -/
def cmdWord (we : BitVec 1) : BitVec 5 := we ++ 0b1111#4

/-- Encode an instruction (30 R93). -/
def encode : Instr → Encoded
  | .lread w => .ldesc (ldescWord 0b00#2 w)
  | .lwrite w => .ldesc (ldescWord 0b01#2 w)
  | .pread => .cmd (cmdWord 0b0#1)
  | .pwrite => .cmd (cmdWord 0b1#1)

/-- The instruction of a row of the opcode table, whose format its length tells: at most 8 bits for a BUS `CMD`, which has 5,
and more for an LDESC, which has 32 (log 17). -/
def decodeTableWord (nbits w : Nat) : Option Instr :=
  if nbits ≤ 8 then
    if w < 32 then (decode (.cmd (BitVec.ofNat 5 w))).toOption else none
  else
    if w < 4294967296 then (decode (.ldesc (BitVec.ofNat 32 w))).toOption else none

end Sys2Proof
end

