-- ==== Sys2Proof/Machine/Env.lean ====
section
/-! DEFINITION. The outside world as plain data: the moves and values it has already chosen, and the counter of its free choices. -/

namespace Sys2Proof.Machine

/-- What the environment has chosen ahead (the model's own state, log 2 and log 3). -/
structure Env where
  /-- The agents that move next, first first. -/
  agenda : List Move
  /-- The values the next draws return, first first. -/
  draws  : List Value
  /-- How many free choices were taken. -/
  count  : Nat
deriving DecidableEq, Repr, Inhabited

/-- `draw()` (00 R10): the next queued value, or a free value. -/
def Env.draw (e : Env) : Value × Env :=
  match e.draws with
  | v :: rest => (v, { e with draws := rest })
  | [] => (Config.freeValue e.count, { e with count := e.count + 1 })

/-- The agent that moves next (00 R11): the next of the agenda, or a free choice. -/
def Env.nextMove (e : Env) : Move × Env :=
  match e.agenda with
  | m :: rest => (m, { e with agenda := rest })
  | [] => (Config.freeMove e.count, { e with count := e.count + 1 })

end Sys2Proof.Machine
end

