-- ==== Sys2Proof/Machine/Assoc.lean ====
section
/-! DEFINITION. Sparse data: lists of (key, value) pairs with strictly rising keys. -/

namespace Sys2Proof.Machine

variable {α : Type}

/-- The value listed under a key. -/
def assocGet : List (Nat × α) → Nat → Option α
  | [], _ => none
  | (k, v) :: l, a => if k = a then some v else assocGet l a

/-- List a value under a key, in order, in place of the one listed there. -/
def assocInsert : List (Nat × α) → Nat → α → List (Nat × α)
  | [], a, x => [(a, x)]
  | (k, v) :: l, a, x =>
    if a < k then (a, x) :: (k, v) :: l
    else if a = k then (a, x) :: l
    else (k, v) :: assocInsert l a x

/-- List nothing under a key. -/
def assocErase : List (Nat × α) → Nat → List (Nat × α)
  | [], _ => []
  | (k, v) :: l, a => if k = a then l else (k, v) :: assocErase l a

/-- The keys rise strictly. -/
abbrev AssocSorted (l : List (Nat × α)) : Prop := l.Pairwise fun x y => x.1 < y.1

end Sys2Proof.Machine
end

