-- ==== Sys2Proof/Machine/Decoder.lean ====
section
/-! DEFINITION. The CSR address decoder (42_csr_decoder.md R153, R154). -/

namespace Sys2Proof.Machine

/-- What the decoder answers for a physical address (42 R153). -/
inductive Target where
  | notMine
  /-- Slot `k` of `reg`, which is entry `r` of `REGS`. -/
  | hit (r : Nat) (reg : RegDesc) (k : Nat)
  | hole
deriving DecidableEq, Repr

/-- The register that owns slot number `s`, where the list starts at entry `i` (42 R153). -/
def findSlot : List RegDesc → Nat → Nat → Option (Nat × RegDesc × Nat)
  | [], _, _ => none
  | reg :: rest, i, s =>
    if reg.off / 4 ≤ s ∧ s < reg.off / 4 + reg.w.bytes then some (i, reg, s - reg.off / 4)
    else findSlot rest (i + 1) s

/-- `decode(paddr)` of 42 R153. -/
def csrDecode (c : Config) (a : Nat) : Target :=
  if a < c.csrBase ∨ c.csrBase + c.csrSpan ≤ a then .notMine
  else
    match findSlot c.regs 0 ((a - c.csrBase) / 4) with
    | some (r, reg, k) => .hit r reg k
    | none => .hole

/-- Byte `k` of a `w`-byte value counted from the most significant: `v[8(w-k)-1 : 8(w-k-1)]` (20 R52, 42 R154). -/
def beByte (w : Width) (v : Value) (k : Nat) : Byte := v.extractLsb' (8 * (w.bytes - 1 - k)) 8

/-- `v mod 2^(8w)`: the value a `w`-byte register holds. -/
def truncTo (w : Width) (v : Value) : Value := (v.setWidth (8 * w.bytes)).setWidth 64

/-- The word address of slot `k` of a register: `CSR_BASE + off + 4k` (42 R153). -/
def slotAddr (c : Config) (reg : RegDesc) (k : Nat) : Nat := c.csrBase + reg.off + 4 * k

end Sys2Proof.Machine
end

