-- ==== Sys2Proof/Machine/Memory.lean ====
section
/-! DEFINITION. The storage cells `CELL[r][k]` of the register bank (42_csr_decoder.md R155), listed by physical word address
in canonical form: addresses strictly rising, each the address of a STORAGE slot, and none with its reset contents. -/

namespace Sys2Proof.Machine

/-- The cells that differ from their reset contents. -/
abbrev Memory := List Host.Cell

/-- What an unlisted address reads as: the reset contents `byte_(w-1-k)(reset)` of a STORAGE slot (42 R166).
Any other address holds no cell. -/
def resetByte (c : Config) (a : Nat) : Byte :=
  match csrDecode c a with
  | .hit _ reg k => if reg.kind = .storage then beByte reg.w reg.reset k else 0
  | _ => 0

/-- The word address names a STORAGE slot. -/
def isStorage (c : Config) (a : Nat) : Bool :=
  decide (a % 4 = 0) &&
  match csrDecode c a with
  | .hit _ reg _ => decide (reg.kind = .storage)
  | _ => false

/-- Read the cell at a word address. -/
def Memory.get (c : Config) (m : Memory) (a : Nat) : Byte := (assocGet m a).getD (resetByte c a)

/-- Write the cell at a word address; the reset contents are not listed. -/
def Memory.set (c : Config) (m : Memory) (a : Nat) (b : Byte) : Memory :=
  if b = resetByte c a then assocErase m a else assocInsert m a b

/-- The canonical form. -/
abbrev Memory.wf (c : Config) (m : Memory) : Prop :=
  AssocSorted m ∧ ∀ x ∈ m, isStorage c x.1 = true ∧ x.2 ≠ resetByte c x.1

end Sys2Proof.Machine
end

