-- ==== Sys2Proof/Machine/SelfTest.lean ====
section
/-! DEFINITION. The self-test probe's program (43_client_sequences.md R189). -/

namespace Sys2Proof.Machine

/-- The code of `FATAL SELFTEST_MISMATCH` (60 R200, 95 P2). -/
def selftestMismatchCode : Nat := 4

/-- The program of the self-test probe (43 R189); label 0 is `fail`. -/
def selfTestProgram (c : Config) : Program :=
  [ ⟨[], .lread c.scratchW 0 (.const c.scratchAddr)⟩,
    ⟨[], .bne 0 c.expected 0⟩,
    ⟨[], .lwrite c.scratchW (.const c.scratchAddr) (.imm c.test)⟩,
    ⟨[], .lread c.scratchW 1 (.const c.scratchAddr)⟩,
    ⟨[], .bne 1 c.test 0⟩,
    ⟨[], .lwrite c.scratchW (.const c.scratchAddr) (.imm c.expected)⟩,
    ⟨[], .done⟩,
    ⟨[0], .fatal selftestMismatchCode⟩ ]

end Sys2Proof.Machine
end

