-- ==== Sys2Proof/Machine/State.lean ====
section
/-! DEFINITION. The state of the machine as plain data (10_state.md), the reasons a step can stop, and reset. -/

namespace Sys2Proof.Machine

/-- `PHASE` (10 R22). -/
inductive Phase where
  | idle | busy | faulted
deriving DecidableEq, Repr, Inhabited

/-- The datapath register `OP` (10 R21): 0 = read (LREAD), 1 = write (LWRITE). -/
inductive Op where
  | read | write
deriving DecidableEq, Repr, Inhabited

/-- `ATTACH` (10 R24). -/
inductive Attach where
  | selftest | ready | dead
deriving DecidableEq, Repr, Inhabited

/-- The values of `FAULT_CODE` (10 R25, 60 R200). -/
inductive FaultCode where
  | none | reservedEncoding | misaligned | unmapped | selftestMismatch
deriving DecidableEq, Repr, Inhabited

/-- `CSTAT[c]` (43 R180). -/
inductive CStat where
  | run | wait | done
  | fatal (code : Nat)
deriving DecidableEq, Repr, Inhabited

/-- The client faults (43 R180). -/
inductive ClientFault where
  /-- A local was read before it was written. -/
  | unwrittenLocal
deriving DecidableEq, Repr, Inhabited

/-- The per-client state (10 R26, 43 R180). -/
structure Client where
  /-- `REQ[c]`; `none` is EMPTY. -/
  req    : Option Request
  /-- `RSP[c]`; `none` is EMPTY. -/
  rsp    : Option Response
  /-- The client's program; `none` where the client acts on its slots directly (log 10, log 11). -/
  prog   : Option Program
  pc     : Nat
  /-- The locals written so far, by number; a local that is not listed is unwritten. -/
  locals : List (Nat × Value)
  cstat  : CStat
  /-- The client fault the run records (log 14). -/
  cfault : Option ClientFault
deriving DecidableEq, Repr, Inhabited

/-- The state of the codec, its clients, the register bank and the outside world. -/
structure State where
  /-- The parameters (00 R6), which no step changes. -/
  cfg         : Config
  phase       : Phase
  owner       : Nat
  op          : Op
  w           : Width
  addr        : Addr
  wdata       : Value
  idx         : BitVec 4
  acc         : Value
  attach      : Attach
  faultCode   : FaultCode
  faultClient : Nat
  faultPaddr  : BitVec 33
  faultIdx    : BitVec 4
  faultDesc   : Word
  clients     : List Client
  /-- `HIST`, oldest first (10 R35). -/
  hist        : List BusEvent
  /-- `CELL` (42 R155), as the list of the cells that differ from reset. -/
  cells       : Memory
  /-- `STATUS_VAL` (42 R155), one entry an entry of `REGS`; the entry of a STORAGE register is 0 and never read. -/
  statusVal   : List Value
  /-- Device-internal state (42 R155), known by a number only (log 9). -/
  device      : Nat
  /-- The client the arbiter offers (41 R136); the model's own (log 2). -/
  grant       : Nat
  env         : Env
deriving DecidableEq, Repr, Inhabited

/-- The stops of the machine that are no state of the spec. The spec's own faults are states (60 R201, 43 R180). -/
inductive Fault where
  /-- Raised by a client's move whose `pc` names no statement of its program.
  No run of a well-formed program reaches it; safe (log 15). -/
  | clientPcOutOfRange (c : Nat)
deriving DecidableEq, Repr

/-- What the model refuses. -/
inductive Refusal where
  /-- An instruction without a meaning; raised by no arm of this model; safe. -/
  | notModelled (mnemonic : String)
  /-- Raised by every step of a configuration that is not well formed (42 R152); safe. -/
  | illFormedConfig
  /-- Raised by a move of a client whose program is not well formed (43 R180); safe. -/
  | illFormedProgram (c : Nat)
deriving DecidableEq, Repr

/-- A client right after reset (70 R230, 43 R180). -/
def Client.atReset (p : Option Program) : Client where
  req := none
  rsp := none
  prog := p
  pc := 0
  locals := []
  cstat := .run
  cfault := none

/-- `STATUS_VAL` after reset: a draw for every STATUS register (42 R166). -/
def drawStatus : List RegDesc → Env → List Value × Env
  | [], e => ([], e)
  | reg :: rest, e =>
    match reg.kind with
    | .storage => (0 :: (drawStatus rest e).1, (drawStatus rest e).2)
    | .status => (truncTo reg.w e.draw.1 :: (drawStatus rest e.draw.2).1, (drawStatus rest e.draw.2).2)

/-- The state after reset (10 R34, 70 R230) under given parameters, client programs, device-internal state and environment.
The registers R34 leaves unspecified are zero, width 1 and read: DESIGN CHOICE (log 6, log 7), unsafe for a claim that rests on them. -/
def State.resetWith (c : Config) (progs : List (Option Program)) (dev : Nat) (e : Env) : State where
  cfg := c
  phase := .idle
  owner := 0
  op := .read
  w := .w1
  addr := 0
  wdata := 0
  idx := 0
  acc := 0
  attach := .selftest
  faultCode := .none
  faultClient := 0
  faultPaddr := 0
  faultIdx := 0
  faultDesc := 0
  clients := progs.map Client.atReset
  hist := []
  cells := []
  statusVal := (drawStatus c.regs e).1
  device := Config.deviceReset dev
  grant := 0
  env := (drawStatus c.regs e).2

/-- The machine right after reset, with the example parameters (log 1), the self-test program in client 0 (43 R189) and no
program in any other client (log 11). -/
def State.reset : State :=
  State.resetWith Config.specExample
    (some (selfTestProgram Config.specExample) :: List.replicate (Config.specExample.nClients - 1) none)
    0 ⟨[], [], 0⟩

end Sys2Proof.Machine
end

