-- ==== Sys2Proof/Machine/Flags.lean ====
section
/-! DEFINITION. The flags derived from the state (10_state.md R23, R28) and the admission test (40_logical_access.md R100). -/

namespace Sys2Proof.Machine

/-- `BUSY_FLAG = (PHASE = BUSY)` (10 R28). -/
def State.busyFlag (s : State) : Bool := decide (s.phase = .busy)

/-- `FAULT_FLAG = (PHASE = FAULTED)` (10 R28). -/
def State.faultFlag (s : State) : Bool := decide (s.phase = .faulted)

/-- `LOCK_HELD = (PHASE ≠ IDLE)` (10 R28). -/
def State.lockHeld (s : State) : Bool := decide (s.phase ≠ .idle)

/-- `LOCK_OWNER`: FREE (`none`) iff `PHASE = IDLE`, else `OWNER` (10 R23). -/
def State.lockOwner (s : State) : Option Nat := if s.phase = .idle then none else some s.owner

/-- `admitted(c)` (40 R100). -/
def State.admitted (s : State) (c : Nat) : Bool :=
  decide (s.attach = .ready ∨ (s.attach = .selftest ∧ c = selftestClient))

/-- The number of a fault code (60 R200). -/
def FaultCode.number : FaultCode → BitVec 3
  | .none => 0
  | .reservedEncoding => 1
  | .misaligned => 2
  | .unmapped => 3
  | .selftestMismatch => 4

end Sys2Proof.Machine
end

