-- ==== Sys2Proof/Machine/Operands.lean ====
section
/-! DEFINITION. Operand forms: the beat's address, byte and bus cycle (20_memory.md R51 to R54, 30_encoding.md R85 to R88), and
the operands of client statements (30 R90, 43_client_sequences.md R184). -/

namespace Sys2Proof

/-- The address an `<addr>` names, before it is held in 32 bits (30 R90). -/
def AddrExpr.value (c : Config) : AddrExpr → Nat
  | .const a => a.toNat
  | .base b off => c.base b + off

/-- The width of an expression's value: 64 for locals, immediates and what wraps mod 2^64 (30 R90, 43 R184; log 12 and, for a slice
with `hi < lo`, log 21). -/
def Expr.width : Expr → Nat
  | .imm _ | .reg _ | .add _ _ | .sub _ _ | .shl _ _ => 64
  | .shr a _ => a.width
  | .band a b | .bor a b | .bxor a b | .mod a b => max a.width b.width
  | .cat a b => a.width + b.width
  | .slice _ hi lo => if lo ≤ hi then hi + 1 - lo else 64
  | .zext n _ | .sext n _ => n

end Sys2Proof

namespace Sys2Proof.Machine

/-! ## Beats -/

/-- `paddr_i = ADDR + STRIDE * i` for the next beat `i = IDX`, not truncated (20 R51). -/
def State.beatAddr (s : State) : Nat := s.addr.toNat + stride * s.idx.toNat

/-- The beat's address exists and is mapped (20 R61, R62). -/
def State.beatMapped (s : State) : Bool := decide (s.beatAddr < addrSpace) && s.cfg.mapped s.beatAddr

/-- Beats remain: `IDX < W`. -/
def State.beatsLeft (s : State) : Bool := decide (s.idx.toNat < s.w.bytes)

/-- The byte the next write beat carries, `WDATA[8(W-i)-1 : 8(W-i-1)]` (40 R103). -/
def State.beatByte (s : State) : Byte := beByte s.w s.wdata s.idx.toNat

/-- `ACC | (zext_64(b) << 8*(W-1-i))` (40 R104). -/
def accumulate (w : Width) (i : Nat) (b : Byte) (acc : Value) : Value :=
  acc ||| (b.setWidth 64 <<< (8 * (w.bytes - 1 - i)))

/-- The byte of a physical word: bits [7:0] (30 R88). -/
def wordByte (d : Word) : Byte := d.setWidth 8

/-- The physical word that carries a byte: `zext_32(b)` (30 R88). -/
def byteWord (b : Byte) : Word := b.setWidth 32

/-- `OP` as the `WE` bit of `CMD` and as bit 0 of an LDESC (30 R82, R87). -/
def Op.bit : Op → BitVec 1
  | .read => 0
  | .write => 1

/-- `LDESC(OP,W)` (40 R103). -/
def ldescOf (op : Op) (w : Width) : Word := ldescWord (op.bit.setWidth 2) w

/-- The cycle the sequencer drives in its next beat (30 R87): a read drives `DAT_W = 0`. -/
def State.busCycle (s : State) : BusCycle where
  cmd := cmdWord s.op.bit
  adr := BitVec.ofNat 32 s.beatAddr
  datW := match s.op with
    | .read => 0
    | .write => byteWord s.beatByte

/-- The byte on lane `j` of a word at `paddr`, which is at byte address `paddr + j`: `LANE_ORDER` is little-endian (20 R54). -/
def laneByte (d : Word) (j : Nat) : Byte := d.extractLsb' (8 * j) 8

/-! ## Client statements -/

/-- The value of local `r[k]`, where it was written (43 R180). -/
def Client.local? (cl : Client) (k : Nat) : Option Value := assocGet cl.locals k

/-- `<addr>` as the 32-bit address of a request, taken as is (30 R85, R90); one that needs more bits is a free value (log 21). -/
def AddrExpr.addr (c : Config) (a : AddrExpr) : Addr :=
  if a.value c < addrSpace then BitVec.ofNat 32 (a.value c) else Config.freeAddress (a.value c)

/-- The value of `<src>`, where it is written (30 R90). -/
def srcValue (l : List (Nat × Value)) : Src → Option Value
  | .reg k => assocGet l k
  | .imm v => some v

/-- Apply an operator to two values, where both are written. -/
def both (f : Nat → Nat → Nat) (x y : Option Nat) : Option Nat :=
  match x, y with
  | some a, some b => some (f a b)
  | _, _ => none

/-- `2^64`. -/
def wrap64 : Nat := 18446744073709551616

/-- `a << b` modulo 2^64 (43 R184). -/
def shiftLeft64 (a b : Nat) : Nat := if b < 64 then (a * 2 ^ b) % wrap64 else 0

/-- `a >> b`, logical, for `a` of `n` bits (43 R184). -/
def shiftRight (n a b : Nat) : Nat := if b < n then a / 2 ^ b else 0

/-- `a mod b`, the non-negative remainder (00 R8); by zero it is a free value of the operand's width (log 13). -/
def remainder (n a b : Nat) : Nat := if b = 0 then Config.freeRemainder a % 2 ^ n else a % b

/-- `v[hi:lo]` of a `k`-bit value (00 R8); of a field that does not lie inside it, a free value (log 21). -/
def sliceBits (k hi lo v : Nat) : Nat :=
  if lo ≤ hi ∧ hi < k then v / 2 ^ lo % 2 ^ (hi + 1 - lo)
  else Config.freeSlice k hi lo v % 2 ^ (if lo ≤ hi then hi + 1 - lo else 64)

/-- `zext_n(v)` of a `k`-bit value (00 R8); to fewer bits, a free value (log 21). -/
def zeroExtend (k n v : Nat) : Nat := if k ≤ n then v else Config.freeExtension false k n v % 2 ^ n

/-- `sext_n(v)` of a `k`-bit value (00 R8); to fewer bits, a free value (log 21). -/
def signExtend (k n v : Nat) : Nat :=
  if k ≤ n then (if 2 ^ k ≤ 2 * v then v + (2 ^ n - 2 ^ k) else v) else Config.freeExtension true k n v % 2 ^ n

/-- The value of `<expr>` as a number of `e.width` bits, where every local it reads is written (00 R8, 43 R184). -/
def exprValue (l : List (Nat × Value)) : Expr → Option Nat
  | .imm v => some v.toNat
  | .reg k => (assocGet l k).map BitVec.toNat
  | .add a b => both (fun x y => (x + y) % wrap64) (exprValue l a) (exprValue l b)
  | .sub a b => both (fun x y => (x + (wrap64 - y % wrap64)) % wrap64) (exprValue l a) (exprValue l b)
  | .shl a b => both shiftLeft64 (exprValue l a) (exprValue l b)
  | .shr a b => both (shiftRight a.width) (exprValue l a) (exprValue l b)
  | .band a b => both Nat.land (exprValue l a) (exprValue l b)
  | .bor a b => both Nat.lor (exprValue l a) (exprValue l b)
  | .bxor a b => both Nat.xor (exprValue l a) (exprValue l b)
  | .mod a b => both (remainder (max a.width b.width)) (exprValue l a) (exprValue l b)
  | .cat a b => both (fun x y => x * 2 ^ b.width + y) (exprValue l a) (exprValue l b)
  | .slice a hi lo => (exprValue l a).map (sliceBits a.width hi lo)
  | .zext n a => (exprValue l a).map (zeroExtend a.width n)
  | .sext n a => (exprValue l a).map (signExtend a.width n)

/-- The value an assignment writes: 64 bits, wrapping mod 2^64 (30 R90, 43 R184). -/
def assignValue (l : List (Nat × Value)) (e : Expr) : Option Value := (exprValue l e).map (BitVec.ofNat 64)

/-- The indices of the statements a label marks. -/
def labelTargets (p : Program) (l : Label) : List Nat :=
  (List.range p.length).filter fun n => (p[n]?).any fun ln => decide (l ∈ ln.labels)

/-- Where the statement at `pc` goes by a label (43 R181, R185): the statement it marks, and a free choice where it marks several
(log 21). -/
def labelIndex (p : Program) (pc : Nat) (l : Label) : Nat :=
  match labelTargets p l with
  | [n] => n
  | ns => ns.getD (Config.freeTarget p pc l % ns.length) 0

end Sys2Proof.Machine
end

