-- ==== Sys2Proof/Machine/Ops.lean ====
section
/-! DEFINITION. The named operations every meaning is built from: slots, the register bank, device effects and draws, fault entry,
reset, and the steps of a logical access (10_state.md, 40_logical_access.md R100 to R105, 42_csr_decoder.md, 60_exceptions.md R201,
70_reset_and_hazards.md R230). -/

namespace Sys2Proof.Machine

/-! ## Slots and clients -/

/-- Change client `c`, where it exists. -/
def State.modifyClient (s : State) (c : Nat) (f : Client → Client) : State :=
  { s with clients := s.clients.modify c f }

/-- `REQ[c]` (10 R26); `none` is EMPTY. -/
def State.request (s : State) (c : Nat) : Option Request := (s.clients[c]?).bind Client.req

/-- `RSP[c]` (10 R26); `none` is EMPTY. -/
def State.response (s : State) (c : Nat) : Option Response := (s.clients[c]?).bind Client.rsp

/-- A request of `c` is in progress: `c` holds the lock (10 R23). -/
def State.inProgress (s : State) (c : Nat) : Bool := decide (s.lockOwner = some c)

/-- `REQ[c] <- EMPTY`. -/
def Client.clearReq (cl : Client) : Client := { cl with req := none }

/-- `REQ[c] <- q`. -/
def Client.setReq (q : Request) (cl : Client) : Client := { cl with req := some q }

/-- `RSP[c] <- r`. -/
def Client.setRsp (r : Response) (cl : Client) : Client := { cl with rsp := some r }

/-! ## Register bank and device -/

/-- `CELL[r][k]` (42 R155). -/
def State.cell (s : State) (reg : RegDesc) (k : Nat) : Byte := Memory.get s.cfg s.cells (slotAddr s.cfg reg k)

/-- `CELL[r][k] <- b` (42 R156). -/
def State.setCell (s : State) (reg : RegDesc) (k : Nat) (b : Byte) : State :=
  { s with cells := Memory.set s.cfg s.cells (slotAddr s.cfg reg k) b }

/-- `STORE_VAL[r] = CELL[r][0] ++ ... ++ CELL[r][w-1]`, the value the device sees (42 R162). -/
def State.storeVal (s : State) (reg : RegDesc) : Value :=
  (List.range reg.w.bytes).foldl (fun v k => accumulate reg.w k (s.cell reg k) v) 0

/-- `STATUS_VAL[r]` (42 R155). -/
def State.status (s : State) (r : Nat) : Value := s.statusVal.getD r 0

/-- Take the values a device effect gives for the STATUS registers and nothing for the others (42 R161). -/
def mergeStatus : List RegDesc → List Value → List Value → List Value
  | reg :: regs, old :: olds, new =>
    (match reg.kind with
      | .status => truncTo reg.w (new.headD old)
      | .storage => old) :: mergeStatus regs olds new.tail
  | _, olds, _ => olds

/-- Take what an effect gives: STATUS values and device-internal state, never a cell (42 R161). -/
def State.takeEffect (s : State) (r : List Value × Nat) : State :=
  { s with statusVal := mergeStatus s.cfg.regs s.statusVal r.1, device := r.2 }

/-- What the device side holds (42 R155). -/
def State.deviceView (s : State) : DeviceView := ⟨s.cells, s.statusVal, s.device⟩

/-- `rd_effect(r, k)` (42 R161). -/
def State.rdEffect (s : State) (e : Effect) (r k : Nat) : State :=
  match e with
  | .identity => s
  | .device id => s.takeEffect (Config.rdEffect id r k s.deviceView)

/-- `wr_effect(r, k, b)` (42 R161). -/
def State.wrEffect (s : State) (e : Effect) (r k : Nat) (b : Byte) : State :=
  match e with
  | .identity => s
  | .device id => s.takeEffect (Config.wrEffect id r k b s.deviceView)

/-- The byte a hit returns: the cell, or the status byte sampled now (42 R158, R159). -/
def State.slotByte (s : State) (r : Nat) (reg : RegDesc) (k : Nat) : Byte :=
  match reg.kind with
  | .storage => s.cell reg k
  | .status => beByte reg.w (s.status r) k

/-- `MemRead(paddr, 4)`: the word returned, and the state after the read's side effect (41 R130, 42 R158 to R160, R165). -/
def State.memRead (s : State) (a : Nat) : Word × State :=
  match csrDecode s.cfg a with
  | .hit r reg k => (byteWord (s.slotByte r reg k), s.rdEffect reg.rdEffect r k)
  | .hole => (s.env.draw.1.setWidth 32, { s with env := s.env.draw.2 })
  | .notMine => (s.env.draw.1.setWidth 32, { s with env := s.env.draw.2 })

/-- `MemWrite(paddr, 4, d)` (41 R131, 42 R156, R157, R160, R165). -/
def State.memWrite (s : State) (a : Nat) (d : Word) : State :=
  match csrDecode s.cfg a with
  | .hit r reg k =>
    match reg.kind with
    | .storage => (s.setCell reg k (wordByte d)).wrEffect reg.wrEffect r k (wordByte d)
    | .status => s
  | .hole => s
  | .notMine => s

/-- A device event replaces `STATUS_VAL[r]` of a STATUS register (42 R163). -/
def State.deviceEvent (s : State) (r : Nat) (v : Value) : State :=
  match s.cfg.regs[r]? with
  | some reg =>
    match reg.kind with
    | .status => { s with statusVal := s.statusVal.set r (truncTo reg.w v) }
    | .storage => s
  | none => s

/-! ## Taking a fault, and reset, the only way back -/

/-- `raise Fault(code, client, paddr, idx, desc)` (60 R201). The lock stays held by `OWNER`. -/
def State.raiseFault (s : State) (code : FaultCode) (client : Nat) (paddr : BitVec 33) (idx : BitVec 4) (desc : Word) : State :=
  { s with
    phase := .faulted
    faultCode := code
    faultClient := client
    faultPaddr := paddr
    faultIdx := idx
    faultDesc := desc }

/-- Reset (70 R230). There is no return from a fault (60 R208): this is the only operation that leaves FAULTED and DEAD.
The parameters, the clients' programs and the environment are no state of the codec and stay. -/
def State.applyReset (s : State) : State :=
  State.resetWith s.cfg (s.clients.map Client.prog) s.device s.env

/-! ## The steps of a logical access -/

/-- The arbiter offers client `c` to the sequencer (41 R136). -/
def State.offered (s : State) (c : Nat) : State := { s with grant := c }

/-- `Accept(grant)` is enabled (40 R100). -/
def State.acceptEnabled (s : State) : Bool :=
  decide (s.phase = .idle) && s.admitted s.grant && (s.request s.grant).isSome

/-- The first effects of acceptance: the slot is emptied and the lock taken (40 R100, 41 R133). -/
def State.takeLock (s : State) : State :=
  { s.modifyClient s.grant Client.clearReq with phase := .busy, owner := s.grant }

/-- Acceptance of the request `q` of client `grant` as the operation `op` of width `w`, an LDESC without reserved bits (40 R100).
DESIGN CHOICE (log 6): where it faults, the registers 40 R100 has not loaded keep what they held in IDLE. -/
def State.accept (s : State) (op : Op) (w : Width) (q : Request) : State :=
  if q.addr.toNat % stride ≠ 0 then
    s.takeLock.raiseFault .misaligned s.grant (q.addr.setWidth 33) 0 q.desc
  else
    { s.takeLock with op := op, w := w, addr := q.addr, wdata := q.wdata, idx := 0, acc := 0 }

/-- Acceptance of a request whose LDESC has a reserved bit set (40 R100, 60 R202).
DESIGN CHOICE (log 6): the registers 40 R100 has not loaded keep what they held in IDLE. -/
def State.acceptReserved (s : State) (q : Request) : State :=
  s.takeLock.raiseFault .reservedEncoding s.grant 0 0 q.desc

/-- A beat whose address is not mapped (40 R103, R104, 60 R204). -/
def State.beatFault (s : State) : State :=
  s.raiseFault .unmapped s.owner (BitVec.ofNat 33 s.beatAddr) s.idx (ldescOf s.op s.w)

/-- Record a bus cycle in `HIST` and count the beat (40 R103, R104, 10 R35). -/
def State.endBeat (s : State) (kind : BusKind) (paddr : Addr) (data : Word) : State :=
  { s with hist := s.hist ++ [⟨s.owner, kind, paddr, data⟩], idx := s.idx + 1 }

/-- The cycle of a read beat: PREAD, `HIST`, `ACC`, `IDX` (40 R104). -/
def State.readCycle (s : State) : State :=
  let a := s.busCycle.adr
  let r := s.memRead a.toNat
  { r.2.endBeat .pread a r.1 with acc := accumulate s.w s.idx.toNat (wordByte r.1) s.acc }

/-- The cycle of a write beat: PWRITE, `HIST`, `IDX` (40 R103). -/
def State.writeCycle (s : State) : State :=
  let y := s.busCycle
  (s.memWrite y.adr.toNat y.datW).endBeat .pwrite y.adr y.datW

/-- `Complete` (40 R105): the response is written and the lock released (41 R134).
DESIGN CHOICE (log 6): the datapath registers, which 10 R21 leaves unspecified while IDLE, keep the values of the access. -/
def State.complete (s : State) (r : Response) : State :=
  { s.modifyClient s.owner (Client.setRsp r) with phase := .idle }

/-- The logical operation `op` of width `w` is the one in progress. -/
def State.running (s : State) (op : Op) (w : Width) : Bool :=
  decide (s.phase = .busy ∧ s.op = op ∧ s.w = w)

/-- A beat of the operation `op` can issue its cycle: BUSY with beats left and a mapped address (40 R103, R104, 41 R132). -/
def State.cycleEnabled (s : State) (op : Op) : Bool :=
  decide (s.phase = .busy ∧ s.op = op) && s.beatsLeft && s.beatMapped

/-! ## Fetch -/

/-- The word the sequencer acts on next: the LDESC of the granted request where it is idle, the `CMD` of the beat's bus cycle where
that cycle can be issued, and the LDESC of the request in progress for a beat that faults and for completion. -/
def State.fetchWord (s : State) : Option Encoded :=
  match s.phase with
  | .idle => if s.admitted s.grant then (s.request s.grant).map (fun q => .ldesc q.desc) else none
  | .busy =>
    if s.beatsLeft && s.beatMapped then some (.cmd s.busCycle.cmd) else some (.ldesc (ldescOf s.op s.w))
  | .faulted => none

end Sys2Proof.Machine
end

