-- ==== Sys2Proof/Machine/Client.lean ====
section
/-! DEFINITION. Client programs (43_client_sequences.md R180 to R190) and clients that act on their slots directly
(10_state.md R26). A client step that is not enabled leaves the state as it is (log 4). -/

namespace Sys2Proof.Machine

/-! ## Pseudo-statements (30 R91) -/

/-- `LMODIFY.<w> <addr>, r<t>, <f>`, where `f` is written in terms of `r<t>` (30 R91, 43 R187).
DESIGN CHOICE (log 22): 30 R91 gives `<f>` no form; it is any `<expr>`. -/
def lmodify (w : Width) (addr : AddrExpr) (t : Nat) (f : Expr) : Program :=
  [⟨[], .lread w t addr⟩, ⟨[], .assign t f⟩, ⟨[], .lwrite w addr (.reg t)⟩]

/-- `POLL.<w> r<t>, <addr>, <mask>`, with scratch local `r<u>` and label `l` (30 R91, 43 R188).
DESIGN CHOICE (log 22): 30 R91 gives `<mask>` no form; it is any `<expr>`, a local or an immediate among others. -/
def poll (w : Width) (t : Nat) (addr : AddrExpr) (mask : Expr) (u : Nat) (l : Label) : Program :=
  [⟨[l], .lread w t addr⟩, ⟨[], .assign u (.band (.reg t) mask)⟩, ⟨[], .beq u 0 l⟩]

/-! ## Statements -/

/-- A client fault: the client takes no further step and the run records the fault (43 R180). -/
def Client.fail (cl : Client) : Client := { cl with cfault := some .unwrittenLocal }

/-- `pc <- n`. -/
def Client.goto (n : Nat) (cl : Client) : Client := { cl with pc := n }

/-- Issue a request and wait (43 R182.1). -/
def Client.issue (q : Request) (cl : Client) : Client := { cl with req := some q, cstat := .wait }

/-- `r[d] <- v`. -/
def Client.setLocal (d : Nat) (v : Value) (cl : Client) : Client := { cl with locals := assocInsert cl.locals d v }

/-- Take a response and wait no longer (43 R182.2). -/
def Client.release (cl : Client) : Client := { cl with rsp := none, cstat := .run }

/-- Take a response: the slot is emptied, the client runs on at the next statement (43 R182.2). -/
def Client.resume (cl : Client) : Client := cl.release.goto (cl.pc + 1)

/-- `LREAD.<w> r<d>, <addr>` (43 R182). -/
def Client.runLread (c : Config) (w : Width) (d : Nat) (a : AddrExpr) (cl : Client) : Client :=
  match cl.cstat with
  | .run => if cl.req = none ∧ cl.rsp = none then cl.issue ⟨ldescOf .read w, AddrExpr.addr c a, 0⟩ else cl
  | .wait =>
    match cl.rsp with
    | some (.readDone v) => (cl.setLocal d v).resume
    | _ => cl
  | _ => cl

/-- `LWRITE.<w> <addr>, <src>` (43 R183). -/
def Client.runLwrite (c : Config) (w : Width) (a : AddrExpr) (src : Src) (cl : Client) : Client :=
  match cl.cstat with
  | .run =>
    if cl.req = none ∧ cl.rsp = none then
      match srcValue cl.locals src with
      | some v => cl.issue ⟨ldescOf .write w, AddrExpr.addr c a, v⟩
      | none => cl.fail
    else cl
  | .wait =>
    match cl.rsp with
    | some .writeDone => cl.resume
    | _ => cl
  | _ => cl

/-- `r<d> <- <expr>` (43 R184). -/
def Client.runAssign (d : Nat) (e : Expr) (cl : Client) : Client :=
  match assignValue cl.locals e with
  | some v => (cl.setLocal d v).goto (cl.pc + 1)
  | none => cl.fail

/-- `BEQ` and `BNE` (43 R185): go to `target` where the comparison answers `taken`. -/
def Client.runBranch (taken : Bool) (s : Nat) (imm : Value) (target : Nat) (cl : Client) : Client :=
  match cl.local? s with
  | some v => cl.goto (if decide (v = imm) = taken then target else cl.pc + 1)
  | none => cl.fail

/-- The client stops (43 R186). -/
def Client.stop (st : CStat) (cl : Client) : Client := { cl with cstat := st }

/-- The client-local effect of a statement of program `p` (43 R181 to R186).
A client that waits takes a step only where its statement is an access whose response has come. -/
def Client.runStmt (c : Config) (p : Program) (st : Stmt) (cl : Client) : Client :=
  match st with
  | .lread w d a => cl.runLread c w d a
  | .lwrite w a src => cl.runLwrite c w a src
  | .assign d e => if cl.cstat = .run then cl.runAssign d e else cl
  | .beq k imm l => if cl.cstat = .run then cl.runBranch true k imm (labelIndex p cl.pc l) else cl
  | .bne k imm l => if cl.cstat = .run then cl.runBranch false k imm (labelIndex p cl.pc l) else cl
  | .jmp l => if cl.cstat = .run then cl.goto (labelIndex p cl.pc l) else cl
  | .fatal code => if cl.cstat = .run then cl.stop (.fatal code) else cl
  | .done => if cl.cstat = .run then cl.stop .done else cl

/-- The self-test passed: `ATTACH <- READY` (43 R190). -/
def State.attachReady (s : State) : State := { s with attach := .ready }

/-- The self-test failed: `ATTACH <- DEAD` and the fault record; PHASE is not touched (43 R190, 60 R205). -/
def State.attachDead (s : State) : State :=
  { s with
    attach := .dead
    faultCode := .selftestMismatch
    faultClient := selftestClient
    faultPaddr := 0
    faultIdx := 0
    faultDesc := 0 }

/-- The effect on the codec of a statement that a running client `c` executes: only the end of the self-test has one (43 R190). -/
def State.attachEffect (s : State) (c : Nat) (st : Stmt) : State :=
  if s.attach = .selftest ∧ c = selftestClient then
    match st with
    | .done => s.attachReady
    | .fatal code => if code = selftestMismatchCode then s.attachDead else s
    | _ => s
  else s

/-- The client takes no further step: it is done, fatal or faulted (43 R180, R186). -/
def Client.stopped (cl : Client) : Bool :=
  cl.cfault.isSome ||
  match cl.cstat with
  | .done => true
  | .fatal _ => true
  | _ => false

/-- A client's move with its program (43 R180, R181). -/
def State.clientMove (s : State) (c : Nat) : Host.Outcome State Fault Refusal :=
  match s.clients[c]? with
  | none => .next s
  | some cl =>
    match cl.prog with
    | none => .next s
    | some p =>
      if ¬ Program.WellFormed p then .refused (.illFormedProgram c)
      else if cl.stopped then .next s
      else
        match p[cl.pc]? with
        | none => .fault (.clientPcOutOfRange c)
        | some ln =>
          let t := if cl.cstat = .run then s.attachEffect c ln.stmt else s
          .next (t.modifyClient c (Client.runStmt s.cfg p ln.stmt))

/-! ## A client without a program -/

/-- Client `c` may act on its slots directly: it exists and runs no program (log 10). -/
def State.direct (s : State) (c : Nat) : Bool :=
  match s.clients[c]? with
  | some cl => cl.prog.isNone
  | none => false

/-- Fill `REQ[c]`, allowed only with both slots EMPTY and no request of `c` in progress (10 R26).
The client is then in WAIT, as a client whose request never completes stays for ever (60 R217, log 10). -/
def State.submit (s : State) (c : Nat) (q : Request) : State :=
  if s.direct c && (s.request c).isNone && (s.response c).isNone && !(s.inProgress c) then
    s.modifyClient c (Client.issue q)
  else s

/-- Consume the response in `RSP[c]`, which ends the wait (10 R26, log 10). -/
def State.consume (s : State) (c : Nat) : State :=
  if s.direct c && (s.response c).isSome then s.modifyClient c Client.release else s

end Sys2Proof.Machine
end

