-- ==== Sys2Proof/Machine/Bus.lean ====
section
/-! DEFINITION. The physical bus primitives PREAD and PWRITE (41_bus_and_lock.md R130 to R132).
Each is the cycle of one beat, which only the sequencer issues and only while BUSY; a state that issues none is left as it is (log 5). -/

namespace Sys2Proof.Machine

/-- PREAD (41 R130): the cycle of a read beat. -/
def execPread (s : State) : Host.Outcome State Fault Refusal :=
  .next (if s.cycleEnabled .read then s.readCycle else s)

/-- PWRITE (41 R131): the cycle of a write beat. -/
def execPwrite (s : State) : Host.Outcome State Fault Refusal :=
  .next (if s.cycleEnabled .write then s.writeCycle else s)

end Sys2Proof.Machine
end

