-- ==== Sys2Proof/Machine/Logical.lean ====
section
/-! DEFINITION. The logical operations LREAD and LWRITE (40_logical_access.md R100 to R105).
Each meaning is the sequencer's next step of that operation: acceptance where the sequencer is idle, then one beat a step, then
completion (00_scope.md R11, log 5). A step that is not enabled leaves the state as it is (log 4). -/

namespace Sys2Proof.Machine

/-- LREAD of width `w` (40 R101): `Accept`, `w` read beats, `Complete`. -/
def execLread (w : Width) (s : State) : Host.Outcome State Fault Refusal :=
  if s.acceptEnabled then
    match s.request s.grant with
    | some q => .next (s.accept .read w q)
    | none => .next s
  else if s.running .read w then
    if s.beatsLeft then .next (if s.beatMapped then s.readCycle else s.beatFault)
    else if s.idx.toNat = w.bytes then .next (s.complete (.readDone s.acc))
    else .next s
  else .next s

/-- LWRITE of width `w` (40 R102): `Accept`, `w` write beats, `Complete`. -/
def execLwrite (w : Width) (s : State) : Host.Outcome State Fault Refusal :=
  if s.acceptEnabled then
    match s.request s.grant with
    | some q => .next (s.accept .write w q)
    | none => .next s
  else if s.running .write w then
    if s.beatsLeft then .next (if s.beatMapped then s.writeCycle else s.beatFault)
    else if s.idx.toNat = w.bytes then .next (s.complete .writeDone)
    else .next s
  else .next s

end Sys2Proof.Machine
end

