-- ==== Sys2Proof/Machine/Dispatch.lean ====
section
/-! DEFINITION. One arm per row of the opcode table (30_encoding.md R93). -/

namespace Sys2Proof.Machine

def exec (i : Instr) (s : State) : Host.Outcome State Fault Refusal :=
  match i with
  | .lread w => Sys2Proof.Machine.execLread w s
  | .lwrite w => Sys2Proof.Machine.execLwrite w s
  | .pread => Sys2Proof.Machine.execPread s
  | .pwrite => Sys2Proof.Machine.execPwrite s

end Sys2Proof.Machine
end

