-- ==== Sys2Proof/Machine/Moves.lean ====
section
/-! DEFINITION. What each agent's move does (00_scope.md R11, R12). -/

namespace Sys2Proof.Machine

/-- The sequencer's move: fetch, decode, execute.
An LDESC that decodes to no instruction is accepted and faults (40 R100, 60 R202). Nothing to fetch is no step (log 4). -/
def State.sequencerMove (s : State) : Host.Outcome State Fault Refusal :=
  match s.fetchWord with
  | none => .next s
  | some e =>
    match decode e with
    | .ok i => exec i s
    | .error _ =>
      match s.request s.grant with
      | some q => .next (s.acceptReserved q)
      | none => .next s

/-- One move of one agent. -/
def State.move (s : State) : Move → Host.Outcome State Fault Refusal
  | .sequencer c => (s.offered c).sequencerMove
  | .client c => s.clientMove c
  | .submit c q => .next (s.submit c q)
  | .consume c => .next (s.consume c)
  | .device r v => .next (s.deviceEvent r v)
  | .reset => .next s.applyReset

end Sys2Proof.Machine
end

