-- ==== Sys2Proof/Machine/Step.lean ====
section
/-! DEFINITION. One step of the machine, and where a word is placed for the sequencer to fetch. -/

namespace Sys2Proof.Machine

/-- One step: the agent the environment chooses moves (00 R11). A configuration that is not well formed is refused (42 R152). -/
def step (s : State) : Host.Outcome State Fault Refusal :=
  if s.cfg.WellFormed then State.move { s with env := s.env.nextMove.2 } s.env.nextMove.1
  else .refused .illFormedConfig

/-- Place a word where the sequencer fetches next, and give the sequencer the next move (log 17).
An LDESC word goes into the request slot of the self-test client, with zero operands and an idle sequencer that admits it.
A `CMD` is driven by `OP` in a beat, so the datapath is set to the only beat of a 1-byte access at `CSR_BASE`. -/
def State.withFetchWord (s : State) (nbits w : Nat) : State :=
  let e : Env := { s.env with agenda := .sequencer selftestClient :: s.env.agenda }
  if nbits ≤ 8 then
    { s with
      phase := .busy
      owner := selftestClient
      op := if w / 16 % 2 = 0 then .read else .write
      w := .w1
      addr := BitVec.ofNat 32 s.cfg.csrBase
      idx := 0
      env := e }
  else
    { s.modifyClient selftestClient (Client.setReq ⟨BitVec.ofNat 32 w, 0, 0⟩) with
      phase := .idle
      attach := if s.attach = .dead then .ready else s.attach
      env := e }

end Sys2Proof.Machine
end

