-- ==== Sys2Proof/Safety.lean ====
section
/-! DEFINITION. The terms claims are stated in: runs of the machine, schedules, the values of the spec's laws, and the invariant of
every run. -/

namespace Sys2Proof

/-- The locals an expression reads. -/
def Expr.reads : Expr → List Nat
  | .imm _ => []
  | .reg k => [k]
  | .add a b | .sub a b | .shl a b | .shr a b | .band a b | .bor a b | .bxor a b | .mod a b | .cat a b => a.reads ++ b.reads
  | .slice a _ _ => a.reads
  | .zext _ a | .sext _ a => a.reads

end Sys2Proof

namespace Sys2Proof.Machine

/-- `k` steps of the machine, stopping at the first fault or refusal. -/
def State.after (k : Nat) (s : State) : Host.Outcome State Fault Refusal := Sys2Proof.core.run k s

/-- The move the environment chooses next. -/
def State.nextMove (s : State) : Move := s.env.nextMove.1

/-- The same state with a schedule for the moves to come. -/
def State.scheduled (s : State) (ms : List Move) : State := { s with env := { s.env with agenda := ms } }

/-- `s` with the environment's next move taken and a client replaced: what a client statement leaves. -/
def State.withClient (s : State) (c : Nat) (cl : Client) (rest : List Move) : State :=
  { s with clients := s.clients.set c cl, env := { s.env with agenda := rest } }

/-- Client `c`, which is `cl` and has not faulted, moves next and stands at the statement `st` of its well-formed program `p`;
`rest` is the schedule after that (43 R180, R181). -/
structure State.AtStmt (s : State) (c : Nat) (cl : Client) (p : Program) (st : Stmt) (rest : List Move) : Prop where
  cfg_wf : s.cfg.WellFormed
  agenda : s.env.agenda = .client c :: rest
  client : s.clients[c]? = some cl
  prog   : cl.prog = some p
  prog_wf : Program.WellFormed p
  no_fault : cl.cfault = none
  stmt   : ∃ labels, p[cl.pc]? = some ⟨labels, st⟩

/-- The request `q` of client `c` is about to be accepted: the lock is free, `c` is admitted and `q` stands in its slot (40 R100). -/
structure State.Offers (s : State) (c : Nat) (q : Request) : Prop where
  idle     : s.phase = .idle
  admitted : s.admitted c = true
  request  : s.request c = some q

/-- `byte_k(v)`, counted from the least significant byte (00 R9). -/
def byteOf (v : Value) (k : Nat) : Byte := v.extractLsb' (8 * k) 8

/-- `d_0[7:0] ++ d_1[7:0] ++ ...`, zero-extended to 64 bits (40 R101). -/
def concatBytes (ds : List Word) : Value := ds.foldl (fun v d => (v <<< 8) ||| (d.extractLsb' 0 8).setWidth 64) 0

/-- The PREAD events of a read of client `c` at `a` that returned the words `ds` (40 R101). -/
def readEvents (c : Nat) (a : Addr) (ds : List Word) : List BusEvent :=
  ds.mapIdx fun i d => ⟨c, .pread, BitVec.ofNat 32 (a.toNat + 4 * i), d⟩

/-- The first `n` PWRITE events of a `w`-byte write of `v` by client `c` at `a` (40 R108). -/
def writeEvents (c : Nat) (a : Addr) (w : Width) (v : Value) (n : Nat) : List BusEvent :=
  (List.range n).map fun i =>
    ⟨c, .pwrite, BitVec.ofNat 32 (a.toNat + 4 * i), (byteOf v (w.bytes - 1 - i)).setWidth 32⟩

/-- Beat `i` of an access at base `a` exists and is mapped (20 R51, R61, R62). -/
def beatOk (c : Config) (a : Addr) (i : Nat) : Prop :=
  a.toNat + 4 * i < addrSpace ∧ c.mapped (a.toNat + 4 * i) = true

/-- The fault record (10 R25). -/
def State.faultRecord (s : State) : FaultCode × Nat × BitVec 33 × BitVec 4 × Word :=
  (s.faultCode, s.faultClient, s.faultPaddr, s.faultIdx, s.faultDesc)

/-- The datapath registers a request is held in (10 R21). -/
def State.held (s : State) : Nat × Op × Width × Addr × Value := (s.owner, s.op, s.w, s.addr, s.wdata)

/-- The codes of the sequencer's own faults (60 R201: codes 1 to 3). -/
def FaultCode.ofSequencer : FaultCode → Bool
  | .reservedEncoding | .misaligned | .unmapped => true
  | .none | .selftestMismatch => false

/-- The word at `a` is a STORAGE sub-register of the CSR decoder (42 R156). -/
def storageWord (c : Config) (a : Nat) : Prop :=
  ∃ r reg k, csrDecode c a = .hit r reg k ∧ reg.kind = .storage

/-- The cell a write cycle at `a` stores to: the slot it hits, where that is a STORAGE slot (42 R156, R157, R160). -/
def storedAddr (c : Config) (a : Nat) : Option Nat :=
  match csrDecode c a with
  | .hit _ reg k => if reg.kind = .storage then some (slotAddr c reg k) else none
  | _ => none

/-- What holds in every state a run of a well-formed configuration reaches. -/
structure State.Inv (s : State) : Prop where
  /-- The configuration is well formed (42 R152). -/
  cfg_wf : s.cfg.WellFormed
  /-- There are `N_CLIENTS` clients. -/
  clients_length : s.clients.length = s.cfg.nClients
  /-- The cells keep their canonical form. -/
  cells_wf : Memory.wf s.cfg s.cells
  /-- There is one STATUS value for each entry of `REGS`. -/
  status_length : s.statusVal.length = s.cfg.regs.length
  /-- A STATUS value has `8*w` bits (42 R155). -/
  status_fits : ∀ r reg, s.cfg.regs[r]? = some reg → truncTo reg.w (s.status r) = s.status r
  /-- The owner of the lock is a client (10 R23). -/
  owner_lt : s.phase ≠ .idle → s.owner < s.cfg.nClients
  /-- `IDX ≤ W` (10 R27). -/
  idx_le : s.phase = .busy → s.idx.toNat ≤ s.w.bytes
  /-- The base of an accepted access is aligned (20 R56). -/
  addr_aligned : s.phase = .busy → s.addr.toNat % stride = 0
  /-- `ACC` holds the bytes read so far, bits `[8W-1 : 8(W-IDX)]`, and zeros elsewhere (40 R104, 30 R86). -/
  acc_shape : s.phase = .busy → s.op = .read →
    ∀ j, j < 8 * (s.w.bytes - s.idx.toNat) ∨ 8 * s.w.bytes ≤ j → s.acc.getLsbD j = false
  /-- Only the self-test client is served before the self-test has passed (10 R24). -/
  selftest_owner : s.attach = .selftest → s.phase ≠ .idle → s.owner = selftestClient
  /-- The self-test fails only in phase IDLE, and nothing is accepted afterwards (60 R205, R206). -/
  dead_idle : s.attach = .dead → s.phase = .idle
  /-- The record holds a sequencer fault iff the codec is FAULTED (60 R201). -/
  faulted_iff : s.phase = .faulted ↔ s.faultCode.ofSequencer = true
  /-- The record holds the self-test failure iff the attach state is DEAD (43 R190). -/
  dead_iff : s.attach = .dead ↔ s.faultCode = .selftestMismatch
  /-- The recorded client keeps the lock (60 R201). -/
  fault_client : s.phase = .faulted → s.faultClient = s.owner
  /-- A client has at most one of: a request in its slot, one in progress, an unconsumed response (10 R26, 41 R137). -/
  one_outstanding : ∀ c cl, s.clients[c]? = some cl →
    (cl.req.isSome = true → cl.rsp = none ∧ s.inProgress c = false) ∧ (cl.rsp.isSome = true → s.inProgress c = false)
  /-- A client waits exactly while it has an access outstanding (43 R182, 60 R217; without a program, log 10). -/
  wait_iff : ∀ c cl, s.clients[c]? = some cl →
    (cl.cstat = .wait ↔ cl.req.isSome = true ∨ cl.rsp.isSome = true ∨ s.inProgress c = true)
  /-- Every cycle in the history went to a mapped word, and every written word carries one byte (20 R50, R61, 30 R88). -/
  hist_ok : ∀ e ∈ s.hist, e.client < s.cfg.nClients ∧ e.paddr.toNat % 4 = 0 ∧ s.cfg.mapped e.paddr.toNat = true ∧
    (e.kind = .pwrite → e.data.toNat < 256)
  /-- The written locals are listed in order, once each. -/
  locals_sorted : ∀ cl ∈ s.clients, AssocSorted cl.locals

end Sys2Proof.Machine
end

