-- ==== Sys2Proof/Certificates/Slice0/Obligations.lean ====
section
/-! DEFINITION. The statements about the Register Codec that are to be proved, each from a numbered rule of the spec. -/

open Sys2Proof Sys2Proof.Machine

/-! ## Encoding -/

/-- A word decodes to an instruction iff it is that instruction's encoding, on either port: no two words mean the same, no bit of a
word is dropped (30 R83, R84, R87, R92, R93). -/
def Obligations.DecodeEncodeInverse : Prop :=
  ∀ (e : Encoded) (i : Instr), decode e = .ok i ↔ encode i = e

/-- The opcode map by match and mask, the width by `1 << WCODE`, and no LDESC word is a bus primitive (30 R83, R92, R93). -/
def Obligations.OpcodeMapMatchMask : Prop :=
  (∀ d : Word, (∃ w, decode (.ldesc d) = .ok (.lread w)) ↔ d &&& 0xFFFFFFF3#32 = 0x00000000#32) ∧
  (∀ d : Word, (∃ w, decode (.ldesc d) = .ok (.lwrite w)) ↔ d &&& 0xFFFFFFF3#32 = 0x00000001#32) ∧
  (∀ (d : Word) (w : Width), (decode (.ldesc d) = .ok (.lread w) ∨ decode (.ldesc d) = .ok (.lwrite w)) →
    w.bytes = 1 <<< (d.extractLsb' 2 2).toNat) ∧
  (∀ c : BitVec 5, decode (.cmd c) = .ok .pread ↔ c &&& 0b11111#5 = 0b01111#5) ∧
  (∀ c : BitVec 5, decode (.cmd c) = .ok .pwrite ↔ c &&& 0b11111#5 = 0b11111#5) ∧
  (∀ (d : Word) (i : Instr), decode (.ldesc d) = .ok i → i ≠ .pread ∧ i ≠ .pwrite)

/-- The eight legal LDESC words and the two bus commands, written out from the spec's tables (30 R84, R87). -/
def Obligations.SpecWordsDecode : Prop :=
  decode (.ldesc 0x00000000#32) = .ok (.lread .w1) ∧ decode (.ldesc 0x00000004#32) = .ok (.lread .w2) ∧
  decode (.ldesc 0x00000008#32) = .ok (.lread .w4) ∧ decode (.ldesc 0x0000000C#32) = .ok (.lread .w8) ∧
  decode (.ldesc 0x00000001#32) = .ok (.lwrite .w1) ∧ decode (.ldesc 0x00000005#32) = .ok (.lwrite .w2) ∧
  decode (.ldesc 0x00000009#32) = .ok (.lwrite .w4) ∧ decode (.ldesc 0x0000000D#32) = .ok (.lwrite .w8) ∧
  decode (.cmd 0b01111#5) = .ok .pread ∧ decode (.cmd 0b11111#5) = .ok .pwrite

/-! ## A step runs the decoded instruction -/

/-- An idle sequencer that is offered client `c` executes the instruction `c`'s LDESC decodes to, with `c` granted (40 R100). -/
def Obligations.StepRunsRequest : Prop :=
  ∀ (s : State) (c : Nat) (rest : List Move) (q : Request) (i : Instr),
    s.cfg.WellFormed → s.env.agenda = .sequencer c :: rest → s.Offers c q → decode (.ldesc q.desc) = .ok i →
    step s = exec i { s with grant := c, env := { s.env with agenda := rest } }

/-- A busy sequencer with a beat left at a mapped address executes the bus primitive its cycle's `CMD` decodes to: PREAD for a read,
PWRITE for a write (30 R87). That the sequencer fetches its own `CMD` and runs the primitive as the step of the beat is the model's
reading of 40 R103 and R104 (log 5), and `grant` and `env` are the model's own (log 2). -/
def Obligations.StepRunsBusCycle : Prop :=
  ∀ (s : State) (c : Nat) (rest : List Move),
    s.cfg.WellFormed → s.env.agenda = .sequencer c :: rest → s.phase = .busy → s.idx.toNat < s.w.bytes →
    beatOk s.cfg s.addr s.idx.toNat →
    decode (.cmd s.busCycle.cmd) = .ok (match s.op with | .read => .pread | .write => .pwrite) ∧
    step s = exec (match s.op with | .read => .pread | .write => .pwrite)
      { s with grant := c, env := { s.env with agenda := rest } }

/-- A busy sequencer whose beat faults, or whose beats are done, executes the logical instruction in progress. That these steps of
40 R103 to R105 are that instruction, fetched as the LDESC in progress, is the model's choice (log 5), and `grant` and `env` are the
model's own (log 2). -/
def Obligations.StepRunsLogicalOperation : Prop :=
  ∀ (s : State) (c : Nat) (rest : List Move),
    s.cfg.WellFormed → s.env.agenda = .sequencer c :: rest → s.phase = .busy →
    (s.w.bytes ≤ s.idx.toNat ∨ ¬ beatOk s.cfg s.addr s.idx.toNat) →
    step s = exec (match s.op with | .read => .lread s.w | .write => .lwrite s.w)
      { s with grant := c, env := { s.env with agenda := rest } }

/-! ## Acceptance -/

/-- `Accept(c)` (40 R100), all of it: who is admitted, what acceptance does to an admitted request in the order of its checks, and that
a request that is not admitted stays where it is. That the sequencer's move then changes nothing, and nothing either where the slot is
EMPTY, is the model's choice (log 4), and so is that the datapath registers keep what they held in IDLE where nothing loads them (log 6);
`grant` and `env` are the model's own (log 2). -/
def Obligations.AcceptanceRule : Prop :=
  ∀ (s : State) (c : Nat) (rest : List Move),
    s.cfg.WellFormed → s.env.agenda = .sequencer c :: rest → s.phase = .idle →
    (s.admitted c = true ↔ s.attach = .ready ∨ (s.attach = .selftest ∧ c = selftestClient)) ∧
    (∀ q, s.admitted c = true → s.request c = some q →
      let u : State := { s with
        grant := c
        env := { s.env with agenda := rest }
        clients := s.clients.modify c (fun cl : Client => { cl with req := none })
        phase := .busy
        owner := c }
      step s = .next (
        if q.desc.extractLsb' 4 28 ≠ 0 ∨ q.desc.getLsbD 1 = true then
          { u with
            phase := .faulted, faultCode := .reservedEncoding, faultClient := c, faultPaddr := 0, faultIdx := 0,
            faultDesc := q.desc }
        else if q.addr.toNat % 4 ≠ 0 then
          { u with
            phase := .faulted, faultCode := .misaligned, faultClient := c, faultPaddr := q.addr.setWidth 33, faultIdx := 0,
            faultDesc := q.desc }
        else
          { u with
            op := if q.desc.getLsbD 0 then .write else .read
            w := Width.ofCode (q.desc.extractLsb' 2 2)
            addr := q.addr
            wdata := q.wdata
            idx := 0
            acc := 0 })) ∧
    (s.admitted c = false ∨ s.request c = none →
      step s = .next { s with grant := c, env := { s.env with agenda := rest } })

/-- LREAD of a granted, admitted request with an aligned base takes the lock and loads the datapath for a read of its width
(40 R100, R101). -/
def Obligations.LreadAcceptance : Prop :=
  ∀ (s : State) (w : Width) (q : Request), s.Offers s.grant q → q.addr.toNat % 4 = 0 →
    exec (.lread w) s = .next { s with
      clients := s.clients.modify s.grant (fun cl : Client => { cl with req := none })
      phase := .busy, owner := s.grant, op := .read, w := w, addr := q.addr, wdata := q.wdata, idx := 0, acc := 0 }

/-- LWRITE of a granted, admitted request with an aligned base takes the lock and loads the datapath for a write of its width
(40 R100, R102). -/
def Obligations.LwriteAcceptance : Prop :=
  ∀ (s : State) (w : Width) (q : Request), s.Offers s.grant q → q.addr.toNat % 4 = 0 →
    exec (.lwrite w) s = .next { s with
      clients := s.clients.modify s.grant (fun cl : Client => { cl with req := none })
      phase := .busy, owner := s.grant, op := .write, w := w, addr := q.addr, wdata := q.wdata, idx := 0, acc := 0 }

/-- A misaligned base faults MISALIGNED at acceptance, for LREAD and LWRITE alike, with no bus cycle and the cells as they were
(60 R203). -/
def Obligations.MisalignedFaults : Prop :=
  ∀ (s : State) (op : Op) (w : Width) (q : Request), s.Offers s.grant q → q.addr.extractLsb' 0 2 ≠ 0 →
    ∃ t, exec (match op with | .read => .lread w | .write => .lwrite w) s = .next t ∧
      t.phase = .faulted ∧ t.faultRecord = (.misaligned, s.grant, q.addr.setWidth 33, 0, q.desc) ∧
      t.hist = s.hist ∧ t.cells = s.cells ∧ t.lockOwner = some s.grant ∧ t.request s.grant = none

/-- A reserved LDESC faults RESERVED_ENCODING at acceptance whatever its address, so before any MISALIGNED, with no bus cycle
(60 R202, R206). -/
def Obligations.ReservedEncodingFaults : Prop :=
  ∀ (s : State) (c : Nat) (rest : List Move) (q : Request),
    s.cfg.WellFormed → s.env.agenda = .sequencer c :: rest → s.Offers c q →
    (q.desc.getLsbD 1 = true ∨ q.desc.extractLsb' 4 28 ≠ 0) →
    ∃ t, step s = .next t ∧ t.phase = .faulted ∧ t.faultRecord = (.reservedEncoding, c, 0, 0, q.desc) ∧
      t.hist = s.hist ∧ t.cells = s.cells ∧ t.lockOwner = some c ∧ t.request c = none

/-! ## Beats and completion -/

/-- The read beat (40 R104), both ways it can go. -/
def Obligations.ReadBeatRule : Prop :=
  ∀ s : State, s.phase = .busy → s.op = .read → s.idx.toNat < s.w.bytes →
    let p := s.addr.toNat + 4 * s.idx.toNat
    (¬ beatOk s.cfg s.addr s.idx.toNat →
      exec (.lread s.w) s = .next { s with
        phase := .faulted, faultCode := .unmapped, faultClient := s.owner, faultPaddr := BitVec.ofNat 33 p,
        faultIdx := s.idx, faultDesc := ldescWord 0b00#2 s.w }) ∧
    (beatOk s.cfg s.addr s.idx.toNat →
      exec (.lread s.w) s = .next { (s.memRead p).2 with
        hist := s.hist ++ [⟨s.owner, .pread, BitVec.ofNat 32 p, (s.memRead p).1⟩]
        acc := s.acc ||| (((s.memRead p).1.extractLsb' 0 8).setWidth 64 <<< (8 * (s.w.bytes - 1 - s.idx.toNat)))
        idx := s.idx + 1 })

/-- The write beat (40 R103), both ways it can go. -/
def Obligations.WriteBeatRule : Prop :=
  ∀ s : State, s.phase = .busy → s.op = .write → s.idx.toNat < s.w.bytes →
    let p := s.addr.toNat + 4 * s.idx.toNat
    let d : Word := (byteOf s.wdata (s.w.bytes - 1 - s.idx.toNat)).setWidth 32
    (¬ beatOk s.cfg s.addr s.idx.toNat →
      exec (.lwrite s.w) s = .next { s with
        phase := .faulted, faultCode := .unmapped, faultClient := s.owner, faultPaddr := BitVec.ofNat 33 p,
        faultIdx := s.idx, faultDesc := ldescWord 0b01#2 s.w }) ∧
    (beatOk s.cfg s.addr s.idx.toNat →
      exec (.lwrite s.w) s = .next { s.memWrite p d with
        hist := s.hist ++ [⟨s.owner, .pwrite, BitVec.ofNat 32 p, d⟩]
        idx := s.idx + 1 })

/-- PREAD runs in every read beat at a mapped address and is that beat's cycle: one PREAD event at the beat's address, its byte into
`ACC`, the beat counted (41 R130, R132, 40 R104). -/
def Obligations.PreadIssuesOneCycle : Prop :=
  ∀ s : State, s.phase = .busy → s.op = .read → s.idx.toNat < s.w.bytes → beatOk s.cfg s.addr s.idx.toNat →
    let p := s.addr.toNat + 4 * s.idx.toNat
    exec .pread s = .next { (s.memRead p).2 with
      hist := s.hist ++ [⟨s.owner, .pread, BitVec.ofNat 32 p, (s.memRead p).1⟩]
      acc := s.acc ||| (((s.memRead p).1.extractLsb' 0 8).setWidth 64 <<< (8 * (s.w.bytes - 1 - s.idx.toNat)))
      idx := s.idx + 1 }

/-- PWRITE runs in every write beat at a mapped address and is that beat's cycle: one PWRITE event that carries one zero-extended
byte, the word given to the device, the beat counted (41 R131, R132, 40 R103). -/
def Obligations.PwriteIssuesOneCycle : Prop :=
  ∀ s : State, s.phase = .busy → s.op = .write → s.idx.toNat < s.w.bytes → beatOk s.cfg s.addr s.idx.toNat →
    let p := s.addr.toNat + 4 * s.idx.toNat
    let d : Word := (byteOf s.wdata (s.w.bytes - 1 - s.idx.toNat)).setWidth 32
    exec .pwrite s = .next { s.memWrite p d with
      hist := s.hist ++ [⟨s.owner, .pwrite, BitVec.ofNat 32 p, d⟩]
      idx := s.idx + 1 }

/-- `Complete` (40 R105): the response of the owner, whose slot is empty, is written and the lock released, nothing else changes. That the datapath registers, unspecified in IDLE (10 R21), keep their values is
the model's choice (log 6). -/
def Obligations.CompletionRule : Prop :=
  ∀ s : State, s.phase = .busy → s.idx.toNat = s.w.bytes →
    (s.Inv → s.response s.owner = none) ∧
    (s.op = .read → exec (.lread s.w) s = .next { s with
      clients := s.clients.modify s.owner (fun cl : Client => { cl with rsp := some (.readDone s.acc) }), phase := .idle }) ∧
    (s.op = .write → exec (.lwrite s.w) s = .next { s with
      clients := s.clients.modify s.owner (fun cl : Client => { cl with rsp := some .writeDone }), phase := .idle })

/-- Where an instruction's next step is not enabled it changes nothing (log 4, log 5): a bus primitive outside a mapped beat of its
kind, so a client or an unadmitted request issues no cycle (41 R132), and a logical operation that is neither to be accepted nor the one
in progress. -/
def Obligations.StepsNotEnabledChangeNothing : Prop :=
  ∀ s : State,
    (¬ (s.phase = .busy ∧ s.op = .read ∧ s.idx.toNat < s.w.bytes ∧ beatOk s.cfg s.addr s.idx.toNat) → exec .pread s = .next s) ∧
    (¬ (s.phase = .busy ∧ s.op = .write ∧ s.idx.toNat < s.w.bytes ∧ beatOk s.cfg s.addr s.idx.toNat) → exec .pwrite s = .next s) ∧
    (∀ w, (s.phase = .idle → s.admitted s.grant = false ∨ s.request s.grant = none) →
      (s.phase = .busy → s.op ≠ .read ∨ s.w ≠ w ∨ s.w.bytes < s.idx.toNat) → exec (.lread w) s = .next s) ∧
    (∀ w, (s.phase = .idle → s.admitted s.grant = false ∨ s.request s.grant = none) →
      (s.phase = .busy → s.op ≠ .write ∨ s.w ≠ w ∨ s.w.bytes < s.idx.toNat) → exec (.lwrite w) s = .next s)

/-- Every cycle the sequencer drives is well formed: full lanes, an aligned address, `DAT_W` zero for a read and one zero-extended
byte for a write (30 R87, R88, 20 R57). -/
def Obligations.DrivenCyclesAreWellFormed : Prop :=
  ∀ s : State, s.Inv → s.phase = .busy → s.idx.toNat < s.w.bytes → beatOk s.cfg s.addr s.idx.toNat →
    s.busCycle.WellFormed ∧ s.busCycle.adr.toNat = s.addr.toNat + 4 * s.idx.toNat

/-- A completed read answers a value of `8w` bits, zero-extended (30 R86, 40 R101). -/
def Obligations.ReadResponseIsZeroExtended : Prop :=
  ∀ s : State, s.Inv → s.phase = .busy → s.op = .read → s.idx.toNat = s.w.bytes →
    ∃ t v, exec (.lread s.w) s = .next t ∧ t.response s.owner = some (.readDone v) ∧ v.toNat < 2 ^ (8 * s.w.bytes)

/-! ## Frames -/

/-- PREAD changes `ACC`, `IDX` and `HIST`; every other register of the codec, every client and every cell is as before, and the
device side changes only by the read effect of the register hit or by a draw. -/
def Obligations.PreadFrame : Prop :=
  ∀ s t : State, exec .pread s = .next t →
    t.cfg = s.cfg ∧ t.phase = s.phase ∧ t.held = s.held ∧ t.attach = s.attach ∧ t.faultRecord = s.faultRecord ∧
    t.clients = s.clients ∧ t.grant = s.grant ∧
    (∀ a, Memory.get t.cfg t.cells a = Memory.get s.cfg s.cells a) ∧
    (∀ r reg k, csrDecode s.cfg s.busCycle.adr.toNat = .hit r reg k → t.env = s.env ∧
      (reg.rdEffect = .identity → t.statusVal = s.statusVal ∧ t.device = s.device)) ∧
    ((∀ r reg k, csrDecode s.cfg s.busCycle.adr.toNat ≠ .hit r reg k) → t.statusVal = s.statusVal ∧ t.device = s.device)

/-- PWRITE changes `IDX` and `HIST`, and of the cells only the one its cycle stores to; the device side changes only by the write
effect of the register hit. -/
def Obligations.PwriteFrame : Prop :=
  ∀ s t : State, exec .pwrite s = .next t →
    t.cfg = s.cfg ∧ t.phase = s.phase ∧ t.held = s.held ∧ t.acc = s.acc ∧ t.attach = s.attach ∧
    t.faultRecord = s.faultRecord ∧ t.clients = s.clients ∧ t.grant = s.grant ∧ t.env = s.env ∧
    (∀ a, storedAddr s.cfg s.busCycle.adr.toNat ≠ some a → Memory.get t.cfg t.cells a = Memory.get s.cfg s.cells a) ∧
    ((∀ r reg k, csrDecode s.cfg s.busCycle.adr.toNat = .hit r reg k → reg.wrEffect = .identity) →
      t.statusVal = s.statusVal ∧ t.device = s.device)

/-- A step of LREAD or LWRITE leaves the attach state, the parameters and every client but the granted or the owning one alone, and
of that one only the slots change; the held request changes only at acceptance, `ACC` only at acceptance and by LREAD, the fault
record only where the operation faults, the bus and the device side only in a beat at a mapped address: not in acceptance, not in a
beat that faults, not in completion. That completion leaves the held request and `ACC` in IDLE is the model's choice (log 6). -/
def Obligations.LogicalFrame : Prop :=
  ∀ (s t : State) (op : Op) (w : Width), exec (match op with | .read => .lread w | .write => .lwrite w) s = .next t →
    t.cfg = s.cfg ∧ t.attach = s.attach ∧ t.grant = s.grant ∧
    (∀ c, c ≠ (if s.phase = .idle then s.grant else s.owner) → t.clients[c]? = s.clients[c]?) ∧
    (∀ (c : Nat) (cl : Client), s.clients[c]? = some cl → ∃ req rsp, t.clients[c]? = some { cl with req := req, rsp := rsp }) ∧
    (s.phase ≠ .idle → t.held = s.held ∧ (op = .write → t.acc = s.acc)) ∧
    (t.faultRecord = s.faultRecord ∨ t.phase = .faulted) ∧
    (¬ (s.phase = .busy ∧ s.idx.toNat < s.w.bytes ∧ beatOk s.cfg s.addr s.idx.toNat) →
      t.hist = s.hist ∧ t.statusVal = s.statusVal ∧ t.device = s.device ∧ t.env = s.env) ∧
    (s.phase = .faulted → t = s)

/-- A step of LREAD leaves every cell alone; a step of LWRITE leaves every cell alone but the one its beat's cycle stores to. -/
def Obligations.LogicalCellFrame : Prop :=
  ∀ (s t : State) (w : Width) (a : Nat),
    (exec (.lread w) s = .next t → Memory.get t.cfg t.cells a = Memory.get s.cfg s.cells a) ∧
    (exec (.lwrite w) s = .next t →
      (s.phase = .busy → s.idx.toNat < s.w.bytes → beatOk s.cfg s.addr s.idx.toNat → storedAddr s.cfg s.busCycle.adr.toNat ≠ some a) →
      Memory.get t.cfg t.cells a = Memory.get s.cfg s.cells a)

/-! ## Whole operations -/

/-- LREAD as a whole (40 R101): from an accepted-to-be request at mapped words, `w + 2` sequencer steps issue `w` PREADs in order, answer
their bytes concatenated with the first most significant, release the lock, and write nothing. -/
def Obligations.LreadNetEffect : Prop :=
  ∀ (s : State) (c : Nat) (q : Request) (w : Width), s.Inv → s.Offers c q → q.desc = ldescWord 0b00#2 w →
    q.addr.toNat % 4 = 0 → (∀ i < w.bytes, beatOk s.cfg q.addr i) →
    ∃ t ds, (s.scheduled (List.replicate (w.bytes + 2) (.sequencer c))).after (w.bytes + 2) = .next t ∧
      ds.length = w.bytes ∧ t.hist = s.hist ++ readEvents c q.addr ds ∧
      t.response c = some (.readDone (concatBytes ds)) ∧ t.request c = none ∧ t.phase = .idle ∧
      t.cells = s.cells ∧ t.attach = s.attach ∧ t.faultRecord = s.faultRecord ∧
      (∀ c', c' ≠ c → t.clients[c']? = s.clients[c']?)

/-- The word-ordering law (40 R108) with LWRITE as a whole (40 R102): `w + 2` sequencer steps append exactly `w` PWRITE events, event
`i` at `addr + 4i` with byte `w-1-i`, answer WRITE_DONE and release the lock. -/
def Obligations.LwriteWordOrdering : Prop :=
  ∀ (s : State) (c : Nat) (q : Request) (w : Width), s.Inv → s.Offers c q → q.desc = ldescWord 0b01#2 w →
    q.addr.toNat % 4 = 0 → (∀ i < w.bytes, beatOk s.cfg q.addr i) →
    ∃ t, (s.scheduled (List.replicate (w.bytes + 2) (.sequencer c))).after (w.bytes + 2) = .next t ∧
      t.hist = s.hist ++ writeEvents c q.addr w q.wdata w.bytes ∧
      t.response c = some .writeDone ∧ t.request c = none ∧ t.phase = .idle ∧
      t.attach = s.attach ∧ t.faultRecord = s.faultRecord ∧
      (∀ c', c' ≠ c → t.clients[c']? = s.clients[c']?)

/-- What LWRITE leaves in the register bank (40 R102, 42 R154, R156): every STORAGE word it reaches holds its byte, and every other
cell is as before. -/
def Obligations.LwriteStoresBigEndian : Prop :=
  ∀ (s : State) (c : Nat) (q : Request) (w : Width), s.Inv → s.Offers c q → q.desc = ldescWord 0b01#2 w →
    q.addr.toNat % 4 = 0 → (∀ i < w.bytes, beatOk s.cfg q.addr i) →
    ∃ t, (s.scheduled (List.replicate (w.bytes + 2) (.sequencer c))).after (w.bytes + 2) = .next t ∧
      (∀ i < w.bytes, storageWord s.cfg (q.addr.toNat + 4 * i) →
        Memory.get t.cfg t.cells (q.addr.toNat + 4 * i) = byteOf q.wdata (w.bytes - 1 - i)) ∧
      (∀ a, (∀ i < w.bytes, storedAddr s.cfg (q.addr.toNat + 4 * i) ≠ some a) →
        Memory.get t.cfg t.cells a = Memory.get s.cfg s.cells a)

/-- The round-trip law (40 R107): an LWRITE of `v` followed by an LREAD of the same STORAGE words returns `v mod 2^(8w)`, whatever side
effects the registers have. -/
def Obligations.RoundTrip : Prop :=
  ∀ (s : State) (c : Nat) (cl : Client) (w : Width) (addr : Addr) (v x : Value), s.Inv →
    s.clients[c]? = some cl → cl.prog = none → s.Offers c ⟨ldescWord 0b01#2 w, addr, v⟩ → addr.toNat % 4 = 0 →
    (∀ i < w.bytes, storageWord s.cfg (addr.toNat + 4 * i)) →
    ∃ t, (s.scheduled (List.replicate (w.bytes + 2) (.sequencer c) ++
        [.consume c, .submit c ⟨ldescWord 0b00#2 w, addr, x⟩] ++
        List.replicate (w.bytes + 2) (.sequencer c))).after ((w.bytes + 2) + 2 + (w.bytes + 2)) = .next t ∧
      t.phase = .idle ∧ t.response c = some (.readDone (BitVec.ofNat 64 (v.toNat % 2 ^ (8 * w.bytes))))

/-- An access whose beat `j` is the first not mapped stops there (60 R204, R207, 70 R240): the beats before it have been performed, in
order, and no other; the codec is FAULTED with the record of R200, the lock held and no response written. -/
def Obligations.FaultsAtFirstUnmappedBeat : Prop :=
  ∀ (s : State) (c : Nat) (q : Request) (op : Op) (w : Width) (j : Nat), s.Inv → s.Offers c q →
    q.desc = ldescWord (match op with | .read => 0b00#2 | .write => 0b01#2) w →
    q.addr.toNat % 4 = 0 → j < w.bytes → (∀ i < j, beatOk s.cfg q.addr i) → ¬ beatOk s.cfg q.addr j →
    ∃ t ds, (s.scheduled (List.replicate (j + 2) (.sequencer c))).after (j + 2) = .next t ∧
      t.phase = .faulted ∧ t.lockOwner = some c ∧ t.request c = none ∧ t.response c = none ∧
      t.faultRecord = (.unmapped, c, BitVec.ofNat 33 (q.addr.toNat + 4 * j), BitVec.ofNat 4 j, q.desc) ∧
      ds.length = j ∧
      t.hist = s.hist ++ (match op with
        | .read => readEvents c q.addr ds
        | .write => writeEvents c q.addr w q.wdata j)

/-- Liveness (70 R243): an access in progress with `IDX` beats done ends within the `W - IDX` beats left and completion: the codec is
then FAULTED, or IDLE with the owner's response written. -/
def Obligations.AccessEndsWithinBound : Prop :=
  ∀ (s : State) (cs : List Nat), s.Inv → s.phase = .busy → cs.length = s.w.bytes - s.idx.toNat + 1 →
    ∃ t, (s.scheduled (cs.map .sequencer)).after cs.length = .next t ∧
      (t.phase = .faulted ∨ (t.phase = .idle ∧ (t.response s.owner).isSome = true))

/-! ## The lock, the slots and the history -/

/-- The lock excludes (41 R135, 20 R58): while an access is in progress, a step of any agent but reset leaves the same access in progress
with its held request, or completes it after its last beat, or ends it in an UNMAPPED fault with the lock kept. -/
def Obligations.LockExcludes : Prop :=
  ∀ s t : State, s.phase = .busy → s.nextMove ≠ .reset → step s = .next t →
    (t.phase = .busy ∧ t.held = s.held ∧ (t.idx = s.idx ∨ t.idx = s.idx + 1)) ∨
    (t.phase = .idle ∧ s.idx.toNat = s.w.bytes ∧ (∃ c, s.nextMove = .sequencer c)) ∨
    (t.phase = .faulted ∧ t.faultCode = .unmapped ∧ t.lockOwner = some s.owner)

/-- The bus discipline (41 R132): the history only grows, in a sequencer's move, while BUSY, by one event for the beat that counts, at the
beat's mapped address, for the owner; no beat counts without one (10 R35, 20 R61). -/
def Obligations.HistoryGrowsByBeats : Prop :=
  ∀ s t : State, s.nextMove ≠ .reset → step s = .next t →
    (t.hist = s.hist ∧ (s.phase = .busy → t.phase = .busy → t.idx = s.idx)) ∨
    ((∃ c, s.nextMove = .sequencer c) ∧ s.phase = .busy ∧ s.idx.toNat < s.w.bytes ∧ t.idx = s.idx + 1 ∧
      beatOk s.cfg s.addr s.idx.toNat ∧
      ∃ d, t.hist = s.hist ++ [⟨s.owner, (match s.op with | .read => .pread | .write => .pwrite),
        BitVec.ofNat 32 (s.addr.toNat + 4 * s.idx.toNat), d⟩])

/-- A request leaves its slot only by acceptance, which takes the lock for its client (10 R26, 40 R100, 70 R234). -/
def Obligations.RequestLeavesOnlyByAcceptance : Prop :=
  ∀ (s t : State) (c : Nat) (q : Request), s.nextMove ≠ .reset → step s = .next t → s.request c = some q →
    t.request c = some q ∨
    (t.request c = none ∧ s.nextMove = .sequencer c ∧ s.phase = .idle ∧ s.admitted c = true ∧ t.lockOwner = some c)

/-- A response is written only by completion, for the owner of the lock, and taken only by its client's own move (10 R26, 40 R105);
that a client without a program takes it by a move of its own is log 10. -/
def Obligations.ResponseOnlyByCompletion : Prop :=
  ∀ (s t : State) (c : Nat), step s = .next t →
    (∀ r, t.response c = some r → s.response c ≠ some r →
      s.phase = .busy ∧ s.idx.toNat = s.w.bytes ∧ c = s.owner ∧ t.phase = .idle ∧
      r = (match s.op with | .read => .readDone s.acc | .write => .writeDone)) ∧
    (∀ r, s.nextMove ≠ .reset → s.response c = some r → t.response c = none → s.nextMove = .client c ∨ s.nextMove = .consume c)

/-- A stored byte changes only by the write beat that stores to it (42 R163, R156, 10 R36). -/
def Obligations.CellsChangeOnlyByWriteBeats : Prop :=
  ∀ (s t : State) (a : Nat), s.nextMove ≠ .reset → step s = .next t →
    Memory.get t.cfg t.cells a ≠ Memory.get s.cfg s.cells a →
    (∃ c, s.nextMove = .sequencer c) ∧ s.phase = .busy ∧ s.op = .write ∧ s.idx.toNat < s.w.bytes ∧
    beatOk s.cfg s.addr s.idx.toNat ∧ storedAddr s.cfg (s.addr.toNat + 4 * s.idx.toNat) = some a

/-! ## Faults -/

/-- From FAULTED no step but reset does anything to the codec (60 R201, R208, R217): the phase, the lock, the datapath registers, the
attach state (so SELFTEST for ever, 43 R190), the record, the history and the cells stay, every waiting request waits on, and no response
is written. -/
def Obligations.FaultedIsSticky : Prop :=
  ∀ s t : State, s.Inv → s.phase = .faulted → s.nextMove ≠ .reset → step s = .next t →
    t.phase = .faulted ∧ t.lockOwner = s.lockOwner ∧ t.held = s.held ∧ t.idx = s.idx ∧ t.acc = s.acc ∧ t.attach = s.attach ∧
    t.faultRecord = s.faultRecord ∧ t.hist = s.hist ∧ t.cells = s.cells ∧
    (∀ c q, s.request c = some q → t.request c = some q) ∧
    (∀ c r, t.response c = some r → s.response c = some r)

/-- After a failed self-test nothing is accepted (60 R205, 70 R234): the codec stays idle and dead, and every waiting request keeps
waiting. -/
def Obligations.DeadServesNobody : Prop :=
  ∀ s t : State, s.Inv → s.attach = .dead → s.nextMove ≠ .reset → step s = .next t →
    t.attach = .dead ∧ t.phase = .idle ∧ t.hist = s.hist ∧ t.faultRecord = s.faultRecord ∧
    (∀ c q, s.request c = some q → t.request c = some q)

/-- The fault record is written once and never overwritten until reset (10 R25). -/
def Obligations.FaultRecordWrittenOnce : Prop :=
  ∀ s t : State, s.Inv → s.faultCode ≠ .none → s.nextMove ≠ .reset → step s = .next t → t.faultRecord = s.faultRecord

/-- Before the self-test has passed only the self-test client is accepted (10 R24). -/
def Obligations.SelftestGatesPeers : Prop :=
  ∀ s t : State, s.attach = .selftest → s.phase = .idle → step s = .next t → t.phase ≠ .idle →
    s.nextMove = .sequencer selftestClient ∧ t.owner = selftestClient

/-! ## Register bank -/

/-- The address decoder (42 R153) of a well-formed configuration: what each answer says, and that there is no other. -/
def Obligations.DecoderFindsTheSlot : Prop :=
  ∀ (c : Config) (a : Nat), c.WellFormed →
    (csrDecode c a = .notMine ↔ a < c.csrBase ∨ c.csrBase + c.csrSpan ≤ a) ∧
    (∀ r reg k, csrDecode c a = .hit r reg k ↔
      c.csrBase ≤ a ∧ a < c.csrBase + c.csrSpan ∧ c.regs[r]? = some reg ∧
      reg.off / 4 ≤ (a - c.csrBase) / 4 ∧ (a - c.csrBase) / 4 < reg.off / 4 + reg.w.bytes ∧
      k = (a - c.csrBase) / 4 - reg.off / 4) ∧
    (csrDecode c a = .hole ↔ c.csrBase ≤ a ∧ a < c.csrBase + c.csrSpan ∧
      ∀ reg ∈ c.regs, ¬ (reg.off / 4 ≤ (a - c.csrBase) / 4 ∧ (a - c.csrBase) / 4 < reg.off / 4 + reg.w.bytes))

/-- A PWRITE to a STORAGE slot stores `d[7:0]` in the addressed cell and no other, then runs the write effect once (42 R156). -/
def Obligations.StorageWriteTouchesOneCell : Prop :=
  ∀ (s : State) (a : Nat) (d : Word) (r : Nat) (reg : RegDesc) (k : Nat), Memory.wf s.cfg s.cells →
    csrDecode s.cfg a = .hit r reg k → reg.kind = .storage →
    (s.memWrite a d).cell reg k = d.extractLsb' 0 8 ∧
    (∀ a', a' ≠ slotAddr s.cfg reg k →
      Memory.get (s.memWrite a d).cfg (s.memWrite a d).cells a' = Memory.get s.cfg s.cells a') ∧
    (s.memWrite a d).statusVal = ((s.setCell reg k (d.extractLsb' 0 8)).wrEffect reg.wrEffect r k (d.extractLsb' 0 8)).statusVal ∧
    (s.memWrite a d).device = ((s.setCell reg k (d.extractLsb' 0 8)).wrEffect reg.wrEffect r k (d.extractLsb' 0 8)).device

/-- A PREAD of a STORAGE slot returns `zext_32` of its cell and runs the read effect once (42 R158), and the per-slot round trip
(42 R164): whatever else has happened, with the cell as a PWRITE of `d` left it, it returns `zext_32(d[7:0])`. -/
def Obligations.StorageReadBack : Prop :=
  ∀ (s t : State) (a : Nat) (d : Word) (r : Nat) (reg : RegDesc) (k : Nat),
    csrDecode s.cfg a = .hit r reg k → reg.kind = .storage →
    s.memRead a = ((s.cell reg k).setWidth 32, s.rdEffect reg.rdEffect r k) ∧
    (Memory.wf s.cfg s.cells → t.cfg = s.cfg → t.cell reg k = (s.memWrite a d).cell reg k →
      (t.memRead a).1 = (d.extractLsb' 0 8).setWidth 32 ∧ (t.memRead a).2.cells = t.cells)

/-- STATUS registers (42 R157, R159): a write changes nothing; a read returns the byte of the value at this cycle and runs the read
effect once. -/
def Obligations.StatusAccess : Prop :=
  ∀ (s : State) (a : Nat) (d : Word) (r : Nat) (reg : RegDesc) (k : Nat),
    csrDecode s.cfg a = .hit r reg k → reg.kind = .status →
    s.memWrite a d = s ∧
    s.memRead a = (((s.status r).extractLsb' (8 * (reg.w.bytes - k - 1)) 8).setWidth 32, s.rdEffect reg.rdEffect r k)

/-- A hole, and a mapped word of another device (42 R160, R165): a write changes nothing, and a read returns a draw and changes nothing
but the draws. How a draw is taken is the model's (log 3), and the statement holds for every value it gives. -/
def Obligations.HoleAccess : Prop :=
  ∀ (s : State) (a : Nat) (d : Word), csrDecode s.cfg a = .hole ∨ csrDecode s.cfg a = .notMine →
    s.memWrite a d = s ∧ (s.memRead a).1 = s.env.draw.1.setWidth 32 ∧ (s.memRead a).2 = { s with env := s.env.draw.2 }

/-- A device event replaces one STATUS value, never a cell, and touches nothing of the codec or the clients (42 R163). That the value
is cut to the register's width, and that an event that names a STORAGE register changes nothing, are the model's choices (log 19); the
agenda is log 2. -/
def Obligations.DeviceEventRule : Prop :=
  ∀ (s : State) (r : Nat) (v : Value) (rest : List Move) (reg : RegDesc), s.Inv → s.env.agenda = .device r v :: rest →
    s.cfg.regs[r]? = some reg →
    (reg.kind = .status → ∃ vals, step s = .next { s with statusVal := vals, env := { s.env with agenda := rest } } ∧
      vals.getD r 0 = BitVec.ofNat 64 (v.toNat % 2 ^ (8 * reg.w.bytes)) ∧
      ∀ r', r' ≠ r → vals.getD r' 0 = s.statusVal.getD r' 0) ∧
    (reg.kind = .storage → step s = .next { s with env := { s.env with agenda := rest } })

/-! ## Clients -/

/-- `LREAD.<w> r<d>, <addr>` (43 R182): issue, consume, and the wait between them, for ever where no response comes. Of an address that
does not fit 32 bits nothing is said but that the access is issued (log 21). -/
def Obligations.LreadStatement : Prop :=
  ∀ (s : State) (c : Nat) (cl : Client) (p : Program) (w : Width) (d : Nat) (a : AddrExpr) (rest : List Move),
    s.AtStmt c cl p (.lread w d a) rest →
    (cl.cstat = .run → cl.req = none → cl.rsp = none →
      ∃ ad : Addr, (a.value s.cfg < addrSpace → ad.toNat = a.value s.cfg) ∧
        step s = .next (s.withClient c { cl with req := some ⟨ldescWord 0b00#2 w, ad, 0⟩, cstat := .wait } rest)) ∧
    (∀ v, cl.cstat = .wait → cl.rsp = some (.readDone v) →
      ∃ ls, step s = .next (s.withClient c { cl with locals := ls, rsp := none, cstat := .run, pc := cl.pc + 1 } rest) ∧
        assocGet ls d = some v ∧ ∀ k, k ≠ d → assocGet ls k = assocGet cl.locals k) ∧
    (cl.cstat = .wait → cl.rsp = none → step s = .next { s with env := { s.env with agenda := rest } })

/-- `LWRITE.<w> <addr>, <src>` (43 R183): issue, consume, and the wait between them. No local is written. Of an address that does not
fit 32 bits nothing is said but that the access is issued (log 21). -/
def Obligations.LwriteStatement : Prop :=
  ∀ (s : State) (c : Nat) (cl : Client) (p : Program) (w : Width) (a : AddrExpr) (src : Src) (rest : List Move),
    s.AtStmt c cl p (.lwrite w a src) rest →
    (∀ v, cl.cstat = .run → cl.req = none → cl.rsp = none → srcValue cl.locals src = some v →
      ∃ ad : Addr, (a.value s.cfg < addrSpace → ad.toNat = a.value s.cfg) ∧
        step s = .next (s.withClient c { cl with req := some ⟨ldescWord 0b01#2 w, ad, v⟩, cstat := .wait } rest)) ∧
    (cl.cstat = .wait → cl.rsp = some .writeDone →
      step s = .next (s.withClient c { cl with rsp := none, cstat := .run, pc := cl.pc + 1 } rest)) ∧
    (cl.cstat = .wait → cl.rsp = none → step s = .next { s with env := { s.env with agenda := rest } })

/-- A client that waits for its access takes no step until its response is there (43 R182, 60 R217). -/
def Obligations.WaitingClientWaits : Prop :=
  ∀ (s : State) (c : Nat) (cl : Client) (p : Program) (st : Stmt) (rest : List Move), s.AtStmt c cl p st rest →
    cl.cstat = .wait → cl.rsp = none → step s = .next { s with env := { s.env with agenda := rest } }

/-- `r<d> <- <expr>` writes one local and does not touch the codec (43 R184). -/
def Obligations.AssignStatement : Prop :=
  ∀ (s : State) (c : Nat) (cl : Client) (p : Program) (d : Nat) (e : Expr) (v : Value) (rest : List Move),
    s.AtStmt c cl p (.assign d e) rest → cl.cstat = .run → assignValue cl.locals e = some v →
    ∃ ls, step s = .next (s.withClient c { cl with locals := ls, pc := cl.pc + 1 } rest) ∧
      assocGet ls d = some v ∧ ∀ k, k ≠ d → assocGet ls k = assocGet cl.locals k

/-- The operators of the client notation on two locals are those of 64-bit unsigned arithmetic: `+`, `-` and `<<` wrap, `>>` is logical,
the rest are bitwise (43 R184, 00 R8). -/
def Obligations.ExpressionsWrapMod64 : Prop :=
  ∀ (l : List (Nat × Value)) (i j : Nat) (x y : Value), assocGet l i = some x → assocGet l j = some y →
    assignValue l (.add (.reg i) (.reg j)) = some (x + y) ∧
    assignValue l (.sub (.reg i) (.reg j)) = some (x - y) ∧
    assignValue l (.shl (.reg i) (.reg j)) = some (x <<< y.toNat) ∧
    assignValue l (.shr (.reg i) (.reg j)) = some (x >>> y.toNat) ∧
    assignValue l (.band (.reg i) (.reg j)) = some (x &&& y) ∧
    assignValue l (.bor (.reg i) (.reg j)) = some (x ||| y) ∧
    assignValue l (.bxor (.reg i) (.reg j)) = some (x ^^^ y) ∧
    (y ≠ 0 → assignValue l (.mod (.reg i) (.reg j)) = some (x % y)) ∧
    (∀ hi lo, lo ≤ hi → hi < 64 →
      assignValue l (.slice (.reg i) hi lo) = some ((x.extractLsb' lo (hi + 1 - lo)).setWidth 64))

/-- `BEQ`, `BNE` and `JMP` (43 R185): they change `pc` only, to a statement the label marks or to the next one. Which one, where it
marks several, is free (log 21). -/
def Obligations.BranchStatements : Prop :=
  ∀ (s : State) (c : Nat) (cl : Client) (p : Program) (rest : List Move) (k : Nat) (imm : Value) (l : Label), cl.cstat = .run →
    (s.AtStmt c cl p (.beq k imm l) rest ∨ s.AtStmt c cl p (.bne k imm l) rest ∨ s.AtStmt c cl p (.jmp l) rest) →
    ∃ n ln, p[n]? = some ln ∧ l ∈ ln.labels ∧
      (∀ x, s.AtStmt c cl p (.beq k imm l) rest → assocGet cl.locals k = some x →
        step s = .next (s.withClient c { cl with pc := if x = imm then n else cl.pc + 1 } rest)) ∧
      (∀ x, s.AtStmt c cl p (.bne k imm l) rest → assocGet cl.locals k = some x →
        step s = .next (s.withClient c { cl with pc := if x = imm then cl.pc + 1 else n } rest)) ∧
      (s.AtStmt c cl p (.jmp l) rest → step s = .next (s.withClient c { cl with pc := n } rest))

/-- `DONE` and `FATAL` stop the client, which then takes no further step (43 R186); of the self-test client they end the self-test (43 R190): DONE makes the attach state
READY, `FATAL SELFTEST_MISMATCH` makes it DEAD and writes the record, with the phase untouched. -/
def Obligations.EndStatements : Prop :=
  ∀ (s : State) (c : Nat) (cl : Client) (p : Program) (code : Nat) (rest : List Move),
    (s.AtStmt c cl p .done rest → cl.cstat = .run →
      let u := s.withClient c { cl with cstat := .done } rest
      step s = .next (if s.attach = .selftest ∧ c = selftestClient then { u with attach := .ready } else u)) ∧
    (s.AtStmt c cl p (.fatal code) rest → cl.cstat = .run →
      let u := s.withClient c { cl with cstat := .fatal code } rest
      step s = .next (if s.attach = .selftest ∧ c = selftestClient ∧ code = 4 then
        { u with
          attach := .dead, faultCode := .selftestMismatch, faultClient := selftestClient, faultPaddr := 0, faultIdx := 0,
          faultDesc := 0 }
        else u)) ∧
    (∀ st, s.AtStmt c cl p st rest → cl.cstat = .done ∨ cl.cstat = .fatal code →
      step s = .next { s with env := { s.env with agenda := rest } })

/-- Reading an unwritten local, in a branch, in any expression or as a source, stops the client and is recorded, and a client stopped so
takes no further step; the codec is unaffected (43 R180). Where it is recorded is log 14. -/
def Obligations.UnwrittenLocalStopsClient : Prop :=
  ∀ (s : State) (c : Nat) (cl : Client) (p : Program) (rest : List Move),
    (∀ (k : Nat) (imm : Value) (l : Label), cl.cstat = .run → assocGet cl.locals k = none →
      (s.AtStmt c cl p (.beq k imm l) rest ∨ s.AtStmt c cl p (.bne k imm l) rest) →
      step s = .next (s.withClient c { cl with cfault := some .unwrittenLocal } rest)) ∧
    (∀ (d : Nat) (e : Expr), cl.cstat = .run → s.AtStmt c cl p (.assign d e) rest → assignValue cl.locals e = none →
      step s = .next (s.withClient c { cl with cfault := some .unwrittenLocal } rest)) ∧
    (∀ e : Expr, assignValue cl.locals e = none ↔ ∃ k ∈ e.reads, assocGet cl.locals k = none) ∧
    (∀ (k : Nat) (w : Width) (a : AddrExpr), cl.cstat = .run → cl.req = none → cl.rsp = none → assocGet cl.locals k = none →
      s.AtStmt c cl p (.lwrite w a (.reg k)) rest →
      step s = .next (s.withClient c { cl with cfault := some .unwrittenLocal } rest)) ∧
    (s.cfg.WellFormed → s.env.agenda = .client c :: rest → s.clients[c]? = some cl → cl.prog = some p →
      Program.WellFormed p → cl.cfault.isSome = true →
      step s = .next { s with env := { s.env with agenda := rest } })

/-- A client's move, by its program or on its slots directly (log 10), touches the codec only by its own slots and by the end of the
self-test: the datapath, the history, the bank and the other clients are as before (10 R26, 43 R184 to R186, R190). -/
def Obligations.ClientMovesLeaveTheCodec : Prop :=
  ∀ (s t : State) (c : Nat), (s.nextMove = .client c ∨ (∃ q, s.nextMove = .submit c q) ∨ s.nextMove = .consume c) → step s = .next t →
    t.cfg = s.cfg ∧ t.grant = s.grant ∧ t.phase = s.phase ∧ t.held = s.held ∧ t.idx = s.idx ∧ t.acc = s.acc ∧ t.hist = s.hist ∧ t.cells = s.cells ∧
    t.statusVal = s.statusVal ∧ t.device = s.device ∧ (∀ c', c' ≠ c → t.clients[c']? = s.clients[c']?) ∧
    (¬ (s.attach = .selftest ∧ c = selftestClient ∧ s.nextMove = .client c) →
      t.attach = s.attach ∧ t.faultRecord = s.faultRecord)

/-- A configuration or a client program that is not well formed is refused (42 R152, 43 R180). -/
def Obligations.IllFormedIsRefused : Prop :=
  ∀ s : State,
    (¬ s.cfg.WellFormed → step s = .refused .illFormedConfig) ∧
    (∀ c rest cl p, s.cfg.WellFormed → s.env.agenda = .client c :: rest → s.clients[c]? = some cl → cl.prog = some p →
      ¬ Program.WellFormed p → step s = .refused (.illFormedProgram c))

/-- A client without a program (log 10) fills its slot only with nothing of its own outstanding (10 R26, 41 R137), then with any request,
and waits; it empties its response slot by consuming a response, and waits no longer. -/
def Obligations.SubmitOnlyWhenNothingOutstanding : Prop :=
  ∀ (s : State) (c : Nat) (rest : List Move) (cl : Client), s.cfg.WellFormed → s.clients[c]? = some cl → cl.prog = none →
    (∀ q, s.env.agenda = .submit c q :: rest →
      step s = .next (if cl.req = none ∧ cl.rsp = none ∧ s.lockOwner ≠ some c
        then s.withClient c { cl with req := some q, cstat := .wait } rest
        else { s with env := { s.env with agenda := rest } })) ∧
    (s.env.agenda = .consume c :: rest →
      step s = .next (if cl.rsp = none then { s with env := { s.env with agenda := rest } }
        else s.withClient c { cl with rsp := none, cstat := .run } rest))

/-! ## Reset and the invariant -/

/-- Reset (70 R230): what it sets, and that it is the only step that leaves FAULTED or DEAD. That the parameters and the clients'
programs stay is the model's choice (log 11, log 19), and so is that a recorded client fault is cleared (log 14). -/
def Obligations.ResetRule : Prop :=
  ∀ s : State,
    (∀ rest, s.cfg.WellFormed → s.env.agenda = .reset :: rest →
      ∃ t, step s = .next t ∧ t.phase = .idle ∧ t.lockOwner = none ∧ t.attach = .selftest ∧ t.faultCode = .none ∧ t.hist = [] ∧
        t.clients = s.clients.map (fun cl : Client => ⟨none, none, cl.prog, 0, [], .run, none⟩) ∧ t.cfg = s.cfg ∧
        (∀ (r : Nat) (reg : RegDesc) (k : Nat), s.cfg.regs[r]? = some reg → reg.kind = .storage → k < reg.w.bytes →
          t.cell reg k = byteOf reg.reset (reg.w.bytes - 1 - k))) ∧
    (∀ t, step s = .next t → s.phase = .faulted → t.phase ≠ .faulted → s.nextMove = .reset) ∧
    (∀ t, step s = .next t → s.attach = .dead → t.attach ≠ .dead → s.nextMove = .reset)

/-- The values the spec gives the machine at reset (10 R34): PHASE, the lock, ATTACH, FAULT_CODE, the slots, HIST, and the scratch
register at EXPECTED. -/
def Obligations.ResetValues : Prop :=
  State.reset.phase = .idle ∧ State.reset.lockOwner = none ∧ State.reset.attach = .selftest ∧
  State.reset.faultCode.number = 0 ∧ State.reset.hist = [] ∧
  (∀ c, State.reset.request c = none ∧ State.reset.response c = none) ∧
  (∀ reg, State.reset.cfg.regs[0]? = some reg → State.reset.storeVal reg = State.reset.cfg.expected)

/-- The invariant holds at reset. -/
def Obligations.ResetMeetsInvariant : Prop := State.reset.Inv

/-- The invariant holds after a reset under every well-formed configuration, with any programs, device and environment. -/
def Obligations.AnyResetMeetsInvariant : Prop :=
  ∀ (c : Config) (progs : List (Option Program)) (dev : Nat) (e : Env), c.WellFormed → progs.length = c.nClients →
    (State.resetWith c progs dev e).Inv

/-- Every step of every agent keeps the invariant: among others the cells' canonical form, one outstanding request a client, `IDX ≤ W`,
and that only the self-test client owns the lock before the self-test has passed. -/
def Obligations.StepKeepsInvariant : Prop :=
  ∀ s t : State, s.Inv → step s = .next t → t.Inv
end

