-- ==== Sys2Proof/Laws/Assoc.lean ====
section
/-! SUPPORT. Laws of sorted association lists: what a read gives after an insertion or an erasure, and that both keep the order. -/

namespace Sys2Proof.Machine

variable {α : Type}

@[simp] theorem assocGet_nil (a : Nat) : assocGet ([] : List (Nat × α)) a = none := rfl

theorem assocGet_cons (x : Nat × α) (l : List (Nat × α)) (a : Nat) :
    assocGet (x :: l) a = if x.1 = a then some x.2 else assocGet l a := rfl

/-- A key below every listed key is not listed. -/
theorem assocGet_none_of_lt {l : List (Nat × α)} {a : Nat} (h : ∀ x ∈ l, a < x.1) : assocGet l a = none := by
  induction l with
  | nil => rfl
  | cons x l ih =>
    have hx := h x (by simp)
    rw [assocGet_cons, if_neg (by omega)]
    exact ih fun y hy => h y (List.mem_cons_of_mem _ hy)

@[simp] theorem assocGet_insert_same (l : List (Nat × α)) (a : Nat) (v : α) : assocGet (assocInsert l a v) a = some v := by
  induction l with
  | nil => simp [assocInsert, assocGet_cons]
  | cons x l ih =>
    simp only [assocInsert]
    split
    · simp [assocGet_cons]
    · split
      · simp [assocGet_cons]
      · next h1 h2 => simp [assocGet_cons, Ne.symm h2, ih]

theorem assocGet_insert_ne (l : List (Nat × α)) {a b : Nat} (v : α) (h : b ≠ a) :
    assocGet (assocInsert l a v) b = assocGet l b := by
  induction l with
  | nil => simp [assocInsert, assocGet_cons, Ne.symm h]
  | cons x l ih =>
    simp only [assocInsert]
    split
    · simp [assocGet_cons, Ne.symm h]
    · split
      · next h2 => rw [assocGet_cons, assocGet_cons, if_neg (Ne.symm h), if_neg (h2 ▸ Ne.symm h)]
      · simp [assocGet_cons, ih]

theorem assocGet_erase_ne (l : List (Nat × α)) {a b : Nat} (h : b ≠ a) : assocGet (assocErase l a) b = assocGet l b := by
  induction l with
  | nil => rfl
  | cons x l ih =>
    simp only [assocErase]
    split
    · next h2 => simp [assocGet_cons, h2, Ne.symm h]
    · simp [assocGet_cons, ih]

theorem assocGet_erase_same {l : List (Nat × α)} (hs : AssocSorted l) (a : Nat) : assocGet (assocErase l a) a = none := by
  induction l with
  | nil => rfl
  | cons x l ih =>
    have ⟨hx, hl⟩ := List.pairwise_cons.1 hs
    simp only [assocErase]
    split
    · next h2 => exact assocGet_none_of_lt fun y hy => h2 ▸ hx y hy
    · next h2 => simp [assocGet_cons, h2, ih hl]

theorem mem_assocInsert {l : List (Nat × α)} {a : Nat} {v : α} {x : Nat × α} (h : x ∈ assocInsert l a v) :
    x = (a, v) ∨ x ∈ l := by
  induction l with
  | nil => simpa [assocInsert] using h
  | cons y l ih =>
    simp only [assocInsert] at h
    split at h
    · simpa using h
    · split at h
      · simp only [List.mem_cons] at h ⊢
        exact h.imp_right .inr
      · simp only [List.mem_cons] at h ⊢
        rcases h with h | h
        · exact .inr (.inl h)
        · exact (ih h).imp_right .inr

theorem mem_assocErase {l : List (Nat × α)} {a : Nat} {x : Nat × α} (h : x ∈ assocErase l a) : x ∈ l := by
  induction l with
  | nil => simp [assocErase] at h
  | cons y l ih =>
    simp only [assocErase] at h
    split at h
    · exact List.mem_cons_of_mem _ h
    · simp only [List.mem_cons] at h ⊢
      exact h.imp_right ih

theorem assocInsert_sorted {l : List (Nat × α)} (hs : AssocSorted l) (a : Nat) (v : α) : AssocSorted (assocInsert l a v) := by
  induction l with
  | nil => simp [assocInsert, AssocSorted]
  | cons x l ih =>
    have ⟨hx, hl⟩ := List.pairwise_cons.1 hs
    simp only [assocInsert]
    split
    · next h1 =>
      refine List.pairwise_cons.2 ⟨fun y hy => ?_, hs⟩
      rcases List.mem_cons.1 hy with rfl | hy
      · exact h1
      · exact Nat.lt_trans h1 (hx y hy)
    · split
      · next h2 => exact List.pairwise_cons.2 ⟨fun y hy => h2 ▸ hx y hy, hl⟩
      · next h1 h2 =>
        refine List.pairwise_cons.2 ⟨fun y hy => ?_, ih hl⟩
        rcases mem_assocInsert hy with rfl | hy
        · simp; omega
        · exact hx y hy

theorem assocErase_sorted {l : List (Nat × α)} (hs : AssocSorted l) (a : Nat) : AssocSorted (assocErase l a) := by
  induction l with
  | nil => exact hs
  | cons x l ih =>
    have ⟨hx, hl⟩ := List.pairwise_cons.1 hs
    simp only [assocErase]
    split
    · exact hl
    · exact List.pairwise_cons.2 ⟨fun y hy => hx y (mem_assocErase hy), ih hl⟩

end Sys2Proof.Machine
end

