-- ==== Sys2Proof/Laws/Decoder.lean ====
section
/-! SUPPORT. What the CSR address decoder answers. -/

namespace Sys2Proof

theorem Width.bytes_pos (w : Width) : 0 < w.bytes := by cases w <;> decide
theorem Width.bytes_le (w : Width) : w.bytes ≤ 8 := by cases w <;> decide

namespace Machine

/-- A slot found is a slot of a listed register. -/
theorem findSlot_some {regs : List RegDesc} {i s r k : Nat} {reg : RegDesc} (h : findSlot regs i s = some (r, reg, k)) :
    ∃ j, r = i + j ∧ regs[j]? = some reg ∧ k < reg.w.bytes ∧ s = reg.off / 4 + k := by
  induction regs generalizing i with
  | nil => simp [findSlot] at h
  | cons x rest ih =>
    simp only [findSlot] at h
    split at h
    · next hs =>
      simp only [Option.some.injEq, Prod.mk.injEq] at h
      obtain ⟨rfl, rfl, rfl⟩ := h
      exact ⟨0, rfl, by simp, by omega, by omega⟩
    · obtain ⟨j, hr, hj, hk, hs⟩ := ih h
      exact ⟨j + 1, by omega, by simpa using hj, hk, hs⟩

/-- A slot of a listed register is found where the registers are disjoint. -/
theorem findSlot_of_slot {regs : List RegDesc} (hd : regs.Pairwise RegDesc.Disjoint) {j : Nat} {reg : RegDesc}
    (hj : regs[j]? = some reg) {k : Nat} (hk : k < reg.w.bytes) (i : Nat) :
    findSlot regs i (reg.off / 4 + k) = some (i + j, reg, k) := by
  induction regs generalizing i j with
  | nil => simp at hj
  | cons x rest ih =>
    have ⟨hx, hrest⟩ := List.pairwise_cons.1 hd
    simp only [findSlot]
    cases j with
    | zero =>
      simp only [List.getElem?_cons_zero, Option.some.injEq] at hj
      subst hj
      rw [if_pos (by omega)]
      simp
    | succ j =>
      simp only [List.getElem?_cons_succ] at hj
      have hdis := hx reg (List.mem_of_getElem? hj)
      rw [if_neg (by rcases hdis with h | h <;> omega), ih hrest hj (i + 1)]
      simp; omega

/-- What a hit says (42 R153). -/
theorem csrDecode_hit {c : Config} {a r k : Nat} {reg : RegDesc} (h : csrDecode c a = .hit r reg k) :
    c.csrBase ≤ a ∧ a < c.csrBase + c.csrSpan ∧ c.regs[r]? = some reg ∧ k < reg.w.bytes ∧
      (a - c.csrBase) / 4 = reg.off / 4 + k := by
  unfold csrDecode at h
  split at h
  · cases h
  · next hspan =>
    split at h
    · next hf =>
      cases h
      obtain ⟨j, hr, hj, hk, hs⟩ := findSlot_some hf
      exact ⟨by omega, by omega, by rw [hr, Nat.zero_add]; exact hj, hk, hs⟩
    · cases h

/-- The word address of a slot decodes to that slot (42 R153). -/
theorem csrDecode_slotAddr {c : Config} (hc : c.WellFormed) {r k : Nat} {reg : RegDesc} (hr : c.regs[r]? = some reg)
    (hk : k < reg.w.bytes) : csrDecode c (slotAddr c reg k) = .hit r reg k := by
  obtain ⟨-, -, -, -, hregs, hdis, -, -⟩ := hc
  have hoff := hregs reg (List.mem_of_getElem? hr)
  have hslot : (slotAddr c reg k - c.csrBase) / 4 = reg.off / 4 + k := by unfold slotAddr; omega
  unfold csrDecode
  rw [if_neg (by unfold slotAddr; omega), hslot, findSlot_of_slot hdis hr hk 0]
  simp

/-- An aligned address that hits a slot is that slot's word address. -/
theorem slotAddr_of_hit {c : Config} (hc : c.WellFormed) {a r k : Nat} {reg : RegDesc} (h : csrDecode c a = .hit r reg k)
    (ha : a % 4 = 0) : slotAddr c reg k = a := by
  obtain ⟨hlo, -, hr, hk, hs⟩ := csrDecode_hit h
  obtain ⟨-, -, hbase, -, hregs, -, -, -⟩ := hc
  have hoff := hregs reg (List.mem_of_getElem? hr)
  unfold slotAddr
  omega

/-- The word address of a slot of a STORAGE register is a STORAGE address. -/
theorem isStorage_slotAddr {c : Config} (hc : c.WellFormed) {r k : Nat} {reg : RegDesc} (hr : c.regs[r]? = some reg)
    (hk : k < reg.w.bytes) (hs : reg.kind = .storage) : isStorage c (slotAddr c reg k) = true := by
  have hoff := hc.2.2.2.2.1 reg (List.mem_of_getElem? hr)
  have hb := hc.2.2.1
  simp only [isStorage, csrDecode_slotAddr hc hr hk, hs, Bool.and_eq_true, decide_eq_true_eq, and_true]
  unfold slotAddr
  omega

end Machine

end Sys2Proof
end

