-- ==== Sys2Proof/Laws/Bytes.lean ====
section
/-! SUPPORT. Laws of bytes and of encodings: accumulation is concatenation, the big-endian bytes of a value concatenate to it,
and every legal word is the encoding of the instruction it decodes to. -/

namespace Sys2Proof.Machine

/-! ## Accumulation -/

/-- A beat after `i` of `w` bytes appends its byte to the bytes read so far (40 R104). -/
theorem accumulate_shift (w : Width) {i : Nat} (hi : i < w.bytes) (b : Byte) (v : Value) :
    accumulate w i b (v <<< (8 * (w.bytes - i))) = ((v <<< 8) ||| b.setWidth 64) <<< (8 * (w.bytes - (i + 1))) := by
  unfold accumulate
  have h1 : 8 * (w.bytes - i) = 8 + 8 * (w.bytes - (i + 1)) := by omega
  have h2 : 8 * (w.bytes - 1 - i) = 8 * (w.bytes - (i + 1)) := by omega
  rw [BitVec.shiftLeft_or_distrib, ← BitVec.shiftLeft_add, h1, h2]

theorem concatBytes_append (ds : List Word) (d : Word) :
    concatBytes (ds ++ [d]) = (concatBytes ds <<< 8) ||| (wordByte d).setWidth 64 := by
  simp only [concatBytes, List.foldl_append, List.foldl_cons, List.foldl_nil, wordByte]
  rfl

@[simp] theorem wordByte_byteWord (b : Byte) : wordByte (byteWord b) = b := by
  ext j hj; simp [wordByte, byteWord]

theorem getLsbD_truncTo (w : Width) (v : Value) (j : Nat) :
    (truncTo w v).getLsbD j = (decide (j < 8 * w.bytes) && v.getLsbD j) := by
  have := w.bytes_le
  simp only [truncTo, BitVec.getLsbD_setWidth]
  by_cases hj : j < 64
  · simp [hj]
  · have : ¬ j < 8 * w.bytes := by omega
    simp [hj, this]

@[simp] theorem truncTo_truncTo (w : Width) (v : Value) : truncTo w (truncTo w v) = truncTo w v := by
  apply BitVec.eq_of_getLsbD_eq
  intro j hj
  simp [getLsbD_truncTo]

@[simp] theorem truncTo_zero (w : Width) : truncTo w 0#64 = 0#64 := by
  apply BitVec.eq_of_getLsbD_eq
  intro j hj
  simp [getLsbD_truncTo]

theorem getLsbD_beByte (w : Width) (v : Value) (k j : Nat) :
    (beByte w v k).getLsbD j = (decide (j < 8) && v.getLsbD (8 * (w.bytes - 1 - k) + j)) := by
  simp [beByte, BitVec.getLsbD_extractLsb']

/-- The first `i` big-endian bytes of a value concatenate to its leading bits. -/
theorem concatBytes_beBytes (w : Width) (v : Value) {i : Nat} (hi : i ≤ w.bytes) :
    concatBytes ((List.range i).map fun k => byteWord (beByte w v k)) = truncTo w v >>> (8 * (w.bytes - i)) := by
  induction i with
  | zero =>
    apply BitVec.eq_of_getLsbD_eq
    intro j hj
    have : ¬ 8 * w.bytes + j < 8 * w.bytes := by omega
    simp [concatBytes, getLsbD_truncTo, this]
  | succ i ih =>
    rw [List.range_succ, List.map_append, List.map_singleton, concatBytes_append, ih (by omega), wordByte_byteWord]
    have hb := w.bytes_le
    apply BitVec.eq_of_getLsbD_eq
    intro j hj
    simp only [BitVec.getLsbD_or, BitVec.getLsbD_shiftLeft, BitVec.getLsbD_ushiftRight, getLsbD_truncTo,
      BitVec.getLsbD_setWidth, getLsbD_beByte, hj, decide_true, Bool.true_and]
    by_cases h8 : j < 8
    · have h1 : 8 * (w.bytes - (i + 1)) + j < 8 * w.bytes := by omega
      have h2 : 8 * (w.bytes - 1 - i) + j = 8 * (w.bytes - (i + 1)) + j := by omega
      simp [h8, h1, h2]
    · have h2 : 8 * (w.bytes - i) + (j - 8) = 8 * (w.bytes - (i + 1)) + j := by omega
      simp [h8, h2]

/-- The big-endian bytes of a value concatenate to the value mod `2^(8w)` (40 R107). -/
theorem concatBytes_all (w : Width) (v : Value) :
    concatBytes ((List.range w.bytes).map fun k => byteWord (beByte w v k)) = truncTo w v := by
  rw [concatBytes_beBytes w v (Nat.le_refl _)]
  simp

/-! ## Encodings -/

theorem decode_ldescOf_read (w : Width) : decode (.ldesc (ldescOf .read w)) = .ok (.lread w) := by cases w <;> rfl
theorem decode_ldescOf_write (w : Width) : decode (.ldesc (ldescOf .write w)) = .ok (.lwrite w) := by cases w <;> rfl
theorem decode_cmd_read : decode (.cmd (cmdWord Op.read.bit)) = .ok .pread := rfl
theorem decode_cmd_write : decode (.cmd (cmdWord Op.write.bit)) = .ok .pwrite := rfl

/-- An LDESC word is its three fields (30 R81). -/
theorem ldesc_fields (d : Word) : d = ldescRsv d ++ ldescWcode d ++ ldescOp d := by
  apply BitVec.eq_of_getLsbD_eq
  intro j hj
  simp only [ldescRsv, ldescWcode, ldescOp, BitVec.getLsbD_append, BitVec.getLsbD_extractLsb']
  rcases Nat.lt_or_ge j 2 with h | h
  · simp [h]
  · rcases Nat.lt_or_ge j 4 with h' | h'
    · have : j - 2 < 2 := by omega
      have e : 2 + (j - 2) = j := by omega
      simp [this, e, Nat.not_lt.2 h]
    · have h1 : ¬ j - 2 < 2 := by omega
      have h2 : j - 2 - 2 < 28 := by omega
      have e : 4 + (j - 2 - 2) = j := by omega
      simp [h1, h2, e, Nat.not_lt.2 h]

theorem code_ofCode (k : BitVec 2) : (Width.ofCode k).code = k := by
  revert k; decide

/-- A decoded LDESC word is the encoding of its instruction: every operation and width has one word (30 R84). -/
theorem encode_of_decodeLdesc {d : Word} {i : Instr} (h : decodeLdesc d = .ok i) : encode i = .ldesc d := by
  unfold decodeLdesc at h
  split at h
  · cases h
  · next hr =>
    have hr : ldescRsv d = 0 := by simpa using hr
    have hd := ldesc_fields d
    split at h
    · next ho =>
      cases h
      rw [hr, ho] at hd
      simp only [encode, ldescWord, code_ofCode]
      rw [← BitVec.ofNat_eq_ofNat] at hd
      exact congrArg Encoded.ldesc hd.symm
    · split at h
      · next ho =>
        cases h
        rw [hr, ho] at hd
        simp only [encode, ldescWord, code_ofCode]
        rw [← BitVec.ofNat_eq_ofNat] at hd
        exact congrArg Encoded.ldesc hd.symm
      · cases h

end Sys2Proof.Machine
end

