-- ==== Sys2Proof/Laws/Memory.lean ====
section
/-! SUPPORT. Laws of the storage cells: read after write, and that writing keeps the canonical form. -/

namespace Sys2Proof.Machine

variable {c : Config} {m : Memory}

@[simp] theorem Memory.get_nil (a : Nat) : Memory.get c [] a = resetByte c a := rfl

theorem Memory.get_set_same (h : Memory.wf c m) (a : Nat) (b : Byte) : Memory.get c (Memory.set c m a b) a = b := by
  unfold Memory.set Memory.get
  split
  · next hb => simp [assocGet_erase_same h.1, hb]
  · simp

theorem Memory.get_set_ne {a a' : Nat} (b : Byte) (h : a' ≠ a) :
    Memory.get c (Memory.set c m a b) a' = Memory.get c m a' := by
  unfold Memory.set Memory.get
  split
  · rw [assocGet_erase_ne _ h]
  · rw [assocGet_insert_ne _ _ h]

theorem Memory.wf_nil : Memory.wf c [] := by simp [Memory.wf, AssocSorted]

/-- Every write to a STORAGE slot keeps the canonical form. -/
theorem Memory.wf_set (h : Memory.wf c m) {a : Nat} (ha : isStorage c a = true) (b : Byte) :
    Memory.wf c (Memory.set c m a b) := by
  unfold Memory.set
  split
  · exact ⟨assocErase_sorted h.1 a, fun x hx => h.2 x (mem_assocErase hx)⟩
  · next hb =>
    refine ⟨assocInsert_sorted h.1 a b, fun x hx => ?_⟩
    rcases mem_assocInsert hx with rfl | hx
    · exact ⟨ha, hb⟩
    · exact h.2 x hx

end Sys2Proof.Machine
end

