-- ==== Sys2Proof/Laws/State.lean ====
section
/-! SUPPORT. One lemma per field and update of the state: what each named operation leaves alone. -/

namespace Sys2Proof.Machine

section updates

variable (s : State)

/-! ### Changing one client -/

@[simp] theorem State.modifyClient_cfg (c : Nat) (f : Client → Client) : (s.modifyClient c f).cfg = s.cfg := rfl
@[simp] theorem State.modifyClient_phase (c : Nat) (f : Client → Client) : (s.modifyClient c f).phase = s.phase := rfl
@[simp] theorem State.modifyClient_owner (c : Nat) (f : Client → Client) : (s.modifyClient c f).owner = s.owner := rfl
@[simp] theorem State.modifyClient_op (c : Nat) (f : Client → Client) : (s.modifyClient c f).op = s.op := rfl
@[simp] theorem State.modifyClient_w (c : Nat) (f : Client → Client) : (s.modifyClient c f).w = s.w := rfl
@[simp] theorem State.modifyClient_addr (c : Nat) (f : Client → Client) : (s.modifyClient c f).addr = s.addr := rfl
@[simp] theorem State.modifyClient_wdata (c : Nat) (f : Client → Client) : (s.modifyClient c f).wdata = s.wdata := rfl
@[simp] theorem State.modifyClient_idx (c : Nat) (f : Client → Client) : (s.modifyClient c f).idx = s.idx := rfl
@[simp] theorem State.modifyClient_acc (c : Nat) (f : Client → Client) : (s.modifyClient c f).acc = s.acc := rfl
@[simp] theorem State.modifyClient_attach (c : Nat) (f : Client → Client) : (s.modifyClient c f).attach = s.attach := rfl
@[simp] theorem State.modifyClient_faultCode (c : Nat) (f : Client → Client) : (s.modifyClient c f).faultCode = s.faultCode := rfl
@[simp] theorem State.modifyClient_faultClient (c : Nat) (f : Client → Client) : (s.modifyClient c f).faultClient = s.faultClient := rfl
@[simp] theorem State.modifyClient_faultPaddr (c : Nat) (f : Client → Client) : (s.modifyClient c f).faultPaddr = s.faultPaddr := rfl
@[simp] theorem State.modifyClient_faultIdx (c : Nat) (f : Client → Client) : (s.modifyClient c f).faultIdx = s.faultIdx := rfl
@[simp] theorem State.modifyClient_faultDesc (c : Nat) (f : Client → Client) : (s.modifyClient c f).faultDesc = s.faultDesc := rfl
@[simp] theorem State.modifyClient_hist (c : Nat) (f : Client → Client) : (s.modifyClient c f).hist = s.hist := rfl
@[simp] theorem State.modifyClient_cells (c : Nat) (f : Client → Client) : (s.modifyClient c f).cells = s.cells := rfl
@[simp] theorem State.modifyClient_statusVal (c : Nat) (f : Client → Client) : (s.modifyClient c f).statusVal = s.statusVal := rfl
@[simp] theorem State.modifyClient_device (c : Nat) (f : Client → Client) : (s.modifyClient c f).device = s.device := rfl
@[simp] theorem State.modifyClient_grant (c : Nat) (f : Client → Client) : (s.modifyClient c f).grant = s.grant := rfl
@[simp] theorem State.modifyClient_env (c : Nat) (f : Client → Client) : (s.modifyClient c f).env = s.env := rfl

/-! ### The arbiter's offer -/

@[simp] theorem State.offered_cfg (c : Nat) : (s.offered c).cfg = s.cfg := rfl
@[simp] theorem State.offered_phase (c : Nat) : (s.offered c).phase = s.phase := rfl
@[simp] theorem State.offered_owner (c : Nat) : (s.offered c).owner = s.owner := rfl
@[simp] theorem State.offered_op (c : Nat) : (s.offered c).op = s.op := rfl
@[simp] theorem State.offered_w (c : Nat) : (s.offered c).w = s.w := rfl
@[simp] theorem State.offered_addr (c : Nat) : (s.offered c).addr = s.addr := rfl
@[simp] theorem State.offered_wdata (c : Nat) : (s.offered c).wdata = s.wdata := rfl
@[simp] theorem State.offered_idx (c : Nat) : (s.offered c).idx = s.idx := rfl
@[simp] theorem State.offered_acc (c : Nat) : (s.offered c).acc = s.acc := rfl
@[simp] theorem State.offered_attach (c : Nat) : (s.offered c).attach = s.attach := rfl
@[simp] theorem State.offered_faultCode (c : Nat) : (s.offered c).faultCode = s.faultCode := rfl
@[simp] theorem State.offered_faultClient (c : Nat) : (s.offered c).faultClient = s.faultClient := rfl
@[simp] theorem State.offered_faultPaddr (c : Nat) : (s.offered c).faultPaddr = s.faultPaddr := rfl
@[simp] theorem State.offered_faultIdx (c : Nat) : (s.offered c).faultIdx = s.faultIdx := rfl
@[simp] theorem State.offered_faultDesc (c : Nat) : (s.offered c).faultDesc = s.faultDesc := rfl
@[simp] theorem State.offered_clients (c : Nat) : (s.offered c).clients = s.clients := rfl
@[simp] theorem State.offered_hist (c : Nat) : (s.offered c).hist = s.hist := rfl
@[simp] theorem State.offered_cells (c : Nat) : (s.offered c).cells = s.cells := rfl
@[simp] theorem State.offered_statusVal (c : Nat) : (s.offered c).statusVal = s.statusVal := rfl
@[simp] theorem State.offered_device (c : Nat) : (s.offered c).device = s.device := rfl
@[simp] theorem State.offered_env (c : Nat) : (s.offered c).env = s.env := rfl

@[simp] theorem State.offered_grant (c : Nat) : (s.offered c).grant = c := rfl

/-! ### Writing a cell -/

@[simp] theorem State.setCell_cfg (reg : RegDesc) (k : Nat) (b : Byte) : (s.setCell reg k b).cfg = s.cfg := rfl
@[simp] theorem State.setCell_phase (reg : RegDesc) (k : Nat) (b : Byte) : (s.setCell reg k b).phase = s.phase := rfl
@[simp] theorem State.setCell_owner (reg : RegDesc) (k : Nat) (b : Byte) : (s.setCell reg k b).owner = s.owner := rfl
@[simp] theorem State.setCell_op (reg : RegDesc) (k : Nat) (b : Byte) : (s.setCell reg k b).op = s.op := rfl
@[simp] theorem State.setCell_w (reg : RegDesc) (k : Nat) (b : Byte) : (s.setCell reg k b).w = s.w := rfl
@[simp] theorem State.setCell_addr (reg : RegDesc) (k : Nat) (b : Byte) : (s.setCell reg k b).addr = s.addr := rfl
@[simp] theorem State.setCell_wdata (reg : RegDesc) (k : Nat) (b : Byte) : (s.setCell reg k b).wdata = s.wdata := rfl
@[simp] theorem State.setCell_idx (reg : RegDesc) (k : Nat) (b : Byte) : (s.setCell reg k b).idx = s.idx := rfl
@[simp] theorem State.setCell_acc (reg : RegDesc) (k : Nat) (b : Byte) : (s.setCell reg k b).acc = s.acc := rfl
@[simp] theorem State.setCell_attach (reg : RegDesc) (k : Nat) (b : Byte) : (s.setCell reg k b).attach = s.attach := rfl
@[simp] theorem State.setCell_faultCode (reg : RegDesc) (k : Nat) (b : Byte) : (s.setCell reg k b).faultCode = s.faultCode := rfl
@[simp] theorem State.setCell_faultClient (reg : RegDesc) (k : Nat) (b : Byte) : (s.setCell reg k b).faultClient = s.faultClient := rfl
@[simp] theorem State.setCell_faultPaddr (reg : RegDesc) (k : Nat) (b : Byte) : (s.setCell reg k b).faultPaddr = s.faultPaddr := rfl
@[simp] theorem State.setCell_faultIdx (reg : RegDesc) (k : Nat) (b : Byte) : (s.setCell reg k b).faultIdx = s.faultIdx := rfl
@[simp] theorem State.setCell_faultDesc (reg : RegDesc) (k : Nat) (b : Byte) : (s.setCell reg k b).faultDesc = s.faultDesc := rfl
@[simp] theorem State.setCell_clients (reg : RegDesc) (k : Nat) (b : Byte) : (s.setCell reg k b).clients = s.clients := rfl
@[simp] theorem State.setCell_hist (reg : RegDesc) (k : Nat) (b : Byte) : (s.setCell reg k b).hist = s.hist := rfl
@[simp] theorem State.setCell_statusVal (reg : RegDesc) (k : Nat) (b : Byte) : (s.setCell reg k b).statusVal = s.statusVal := rfl
@[simp] theorem State.setCell_device (reg : RegDesc) (k : Nat) (b : Byte) : (s.setCell reg k b).device = s.device := rfl
@[simp] theorem State.setCell_grant (reg : RegDesc) (k : Nat) (b : Byte) : (s.setCell reg k b).grant = s.grant := rfl
@[simp] theorem State.setCell_env (reg : RegDesc) (k : Nat) (b : Byte) : (s.setCell reg k b).env = s.env := rfl

/-! ### Taking a device effect -/

@[simp] theorem State.takeEffect_cfg (r : List Value × Nat) : (s.takeEffect r).cfg = s.cfg := rfl
@[simp] theorem State.takeEffect_phase (r : List Value × Nat) : (s.takeEffect r).phase = s.phase := rfl
@[simp] theorem State.takeEffect_owner (r : List Value × Nat) : (s.takeEffect r).owner = s.owner := rfl
@[simp] theorem State.takeEffect_op (r : List Value × Nat) : (s.takeEffect r).op = s.op := rfl
@[simp] theorem State.takeEffect_w (r : List Value × Nat) : (s.takeEffect r).w = s.w := rfl
@[simp] theorem State.takeEffect_addr (r : List Value × Nat) : (s.takeEffect r).addr = s.addr := rfl
@[simp] theorem State.takeEffect_wdata (r : List Value × Nat) : (s.takeEffect r).wdata = s.wdata := rfl
@[simp] theorem State.takeEffect_idx (r : List Value × Nat) : (s.takeEffect r).idx = s.idx := rfl
@[simp] theorem State.takeEffect_acc (r : List Value × Nat) : (s.takeEffect r).acc = s.acc := rfl
@[simp] theorem State.takeEffect_attach (r : List Value × Nat) : (s.takeEffect r).attach = s.attach := rfl
@[simp] theorem State.takeEffect_faultCode (r : List Value × Nat) : (s.takeEffect r).faultCode = s.faultCode := rfl
@[simp] theorem State.takeEffect_faultClient (r : List Value × Nat) : (s.takeEffect r).faultClient = s.faultClient := rfl
@[simp] theorem State.takeEffect_faultPaddr (r : List Value × Nat) : (s.takeEffect r).faultPaddr = s.faultPaddr := rfl
@[simp] theorem State.takeEffect_faultIdx (r : List Value × Nat) : (s.takeEffect r).faultIdx = s.faultIdx := rfl
@[simp] theorem State.takeEffect_faultDesc (r : List Value × Nat) : (s.takeEffect r).faultDesc = s.faultDesc := rfl
@[simp] theorem State.takeEffect_clients (r : List Value × Nat) : (s.takeEffect r).clients = s.clients := rfl
@[simp] theorem State.takeEffect_hist (r : List Value × Nat) : (s.takeEffect r).hist = s.hist := rfl
@[simp] theorem State.takeEffect_cells (r : List Value × Nat) : (s.takeEffect r).cells = s.cells := rfl
@[simp] theorem State.takeEffect_grant (r : List Value × Nat) : (s.takeEffect r).grant = s.grant := rfl
@[simp] theorem State.takeEffect_env (r : List Value × Nat) : (s.takeEffect r).env = s.env := rfl

/-! ### Read effects -/

@[simp] theorem State.rdEffect_cfg (e : Effect) (r k : Nat) : (s.rdEffect e r k).cfg = s.cfg := by cases e <;> rfl
@[simp] theorem State.rdEffect_phase (e : Effect) (r k : Nat) : (s.rdEffect e r k).phase = s.phase := by cases e <;> rfl
@[simp] theorem State.rdEffect_owner (e : Effect) (r k : Nat) : (s.rdEffect e r k).owner = s.owner := by cases e <;> rfl
@[simp] theorem State.rdEffect_op (e : Effect) (r k : Nat) : (s.rdEffect e r k).op = s.op := by cases e <;> rfl
@[simp] theorem State.rdEffect_w (e : Effect) (r k : Nat) : (s.rdEffect e r k).w = s.w := by cases e <;> rfl
@[simp] theorem State.rdEffect_addr (e : Effect) (r k : Nat) : (s.rdEffect e r k).addr = s.addr := by cases e <;> rfl
@[simp] theorem State.rdEffect_wdata (e : Effect) (r k : Nat) : (s.rdEffect e r k).wdata = s.wdata := by cases e <;> rfl
@[simp] theorem State.rdEffect_idx (e : Effect) (r k : Nat) : (s.rdEffect e r k).idx = s.idx := by cases e <;> rfl
@[simp] theorem State.rdEffect_acc (e : Effect) (r k : Nat) : (s.rdEffect e r k).acc = s.acc := by cases e <;> rfl
@[simp] theorem State.rdEffect_attach (e : Effect) (r k : Nat) : (s.rdEffect e r k).attach = s.attach := by cases e <;> rfl
@[simp] theorem State.rdEffect_faultCode (e : Effect) (r k : Nat) : (s.rdEffect e r k).faultCode = s.faultCode := by cases e <;> rfl
@[simp] theorem State.rdEffect_faultClient (e : Effect) (r k : Nat) : (s.rdEffect e r k).faultClient = s.faultClient := by cases e <;> rfl
@[simp] theorem State.rdEffect_faultPaddr (e : Effect) (r k : Nat) : (s.rdEffect e r k).faultPaddr = s.faultPaddr := by cases e <;> rfl
@[simp] theorem State.rdEffect_faultIdx (e : Effect) (r k : Nat) : (s.rdEffect e r k).faultIdx = s.faultIdx := by cases e <;> rfl
@[simp] theorem State.rdEffect_faultDesc (e : Effect) (r k : Nat) : (s.rdEffect e r k).faultDesc = s.faultDesc := by cases e <;> rfl
@[simp] theorem State.rdEffect_clients (e : Effect) (r k : Nat) : (s.rdEffect e r k).clients = s.clients := by cases e <;> rfl
@[simp] theorem State.rdEffect_hist (e : Effect) (r k : Nat) : (s.rdEffect e r k).hist = s.hist := by cases e <;> rfl
@[simp] theorem State.rdEffect_cells (e : Effect) (r k : Nat) : (s.rdEffect e r k).cells = s.cells := by cases e <;> rfl
@[simp] theorem State.rdEffect_grant (e : Effect) (r k : Nat) : (s.rdEffect e r k).grant = s.grant := by cases e <;> rfl
@[simp] theorem State.rdEffect_env (e : Effect) (r k : Nat) : (s.rdEffect e r k).env = s.env := by cases e <;> rfl

/-! ### Write effects -/

@[simp] theorem State.wrEffect_cfg (e : Effect) (r k : Nat) (b : Byte) : (s.wrEffect e r k b).cfg = s.cfg := by cases e <;> rfl
@[simp] theorem State.wrEffect_phase (e : Effect) (r k : Nat) (b : Byte) : (s.wrEffect e r k b).phase = s.phase := by cases e <;> rfl
@[simp] theorem State.wrEffect_owner (e : Effect) (r k : Nat) (b : Byte) : (s.wrEffect e r k b).owner = s.owner := by cases e <;> rfl
@[simp] theorem State.wrEffect_op (e : Effect) (r k : Nat) (b : Byte) : (s.wrEffect e r k b).op = s.op := by cases e <;> rfl
@[simp] theorem State.wrEffect_w (e : Effect) (r k : Nat) (b : Byte) : (s.wrEffect e r k b).w = s.w := by cases e <;> rfl
@[simp] theorem State.wrEffect_addr (e : Effect) (r k : Nat) (b : Byte) : (s.wrEffect e r k b).addr = s.addr := by cases e <;> rfl
@[simp] theorem State.wrEffect_wdata (e : Effect) (r k : Nat) (b : Byte) : (s.wrEffect e r k b).wdata = s.wdata := by cases e <;> rfl
@[simp] theorem State.wrEffect_idx (e : Effect) (r k : Nat) (b : Byte) : (s.wrEffect e r k b).idx = s.idx := by cases e <;> rfl
@[simp] theorem State.wrEffect_acc (e : Effect) (r k : Nat) (b : Byte) : (s.wrEffect e r k b).acc = s.acc := by cases e <;> rfl
@[simp] theorem State.wrEffect_attach (e : Effect) (r k : Nat) (b : Byte) : (s.wrEffect e r k b).attach = s.attach := by cases e <;> rfl
@[simp] theorem State.wrEffect_faultCode (e : Effect) (r k : Nat) (b : Byte) : (s.wrEffect e r k b).faultCode = s.faultCode := by cases e <;> rfl
@[simp] theorem State.wrEffect_faultClient (e : Effect) (r k : Nat) (b : Byte) : (s.wrEffect e r k b).faultClient = s.faultClient := by cases e <;> rfl
@[simp] theorem State.wrEffect_faultPaddr (e : Effect) (r k : Nat) (b : Byte) : (s.wrEffect e r k b).faultPaddr = s.faultPaddr := by cases e <;> rfl
@[simp] theorem State.wrEffect_faultIdx (e : Effect) (r k : Nat) (b : Byte) : (s.wrEffect e r k b).faultIdx = s.faultIdx := by cases e <;> rfl
@[simp] theorem State.wrEffect_faultDesc (e : Effect) (r k : Nat) (b : Byte) : (s.wrEffect e r k b).faultDesc = s.faultDesc := by cases e <;> rfl
@[simp] theorem State.wrEffect_clients (e : Effect) (r k : Nat) (b : Byte) : (s.wrEffect e r k b).clients = s.clients := by cases e <;> rfl
@[simp] theorem State.wrEffect_hist (e : Effect) (r k : Nat) (b : Byte) : (s.wrEffect e r k b).hist = s.hist := by cases e <;> rfl
@[simp] theorem State.wrEffect_cells (e : Effect) (r k : Nat) (b : Byte) : (s.wrEffect e r k b).cells = s.cells := by cases e <;> rfl
@[simp] theorem State.wrEffect_grant (e : Effect) (r k : Nat) (b : Byte) : (s.wrEffect e r k b).grant = s.grant := by cases e <;> rfl
@[simp] theorem State.wrEffect_env (e : Effect) (r k : Nat) (b : Byte) : (s.wrEffect e r k b).env = s.env := by cases e <;> rfl

/-! ### Bus cycles at the device -/

@[simp] theorem State.memRead_cfg (a : Nat) : (s.memRead a).2.cfg = s.cfg := by
  unfold State.memRead; split <;> simp
@[simp] theorem State.memRead_phase (a : Nat) : (s.memRead a).2.phase = s.phase := by
  unfold State.memRead; split <;> simp
@[simp] theorem State.memRead_owner (a : Nat) : (s.memRead a).2.owner = s.owner := by
  unfold State.memRead; split <;> simp
@[simp] theorem State.memRead_op (a : Nat) : (s.memRead a).2.op = s.op := by
  unfold State.memRead; split <;> simp
@[simp] theorem State.memRead_w (a : Nat) : (s.memRead a).2.w = s.w := by
  unfold State.memRead; split <;> simp
@[simp] theorem State.memRead_addr (a : Nat) : (s.memRead a).2.addr = s.addr := by
  unfold State.memRead; split <;> simp
@[simp] theorem State.memRead_wdata (a : Nat) : (s.memRead a).2.wdata = s.wdata := by
  unfold State.memRead; split <;> simp
@[simp] theorem State.memRead_idx (a : Nat) : (s.memRead a).2.idx = s.idx := by
  unfold State.memRead; split <;> simp
@[simp] theorem State.memRead_acc (a : Nat) : (s.memRead a).2.acc = s.acc := by
  unfold State.memRead; split <;> simp
@[simp] theorem State.memRead_attach (a : Nat) : (s.memRead a).2.attach = s.attach := by
  unfold State.memRead; split <;> simp
@[simp] theorem State.memRead_faultCode (a : Nat) : (s.memRead a).2.faultCode = s.faultCode := by
  unfold State.memRead; split <;> simp
@[simp] theorem State.memRead_faultClient (a : Nat) : (s.memRead a).2.faultClient = s.faultClient := by
  unfold State.memRead; split <;> simp
@[simp] theorem State.memRead_faultPaddr (a : Nat) : (s.memRead a).2.faultPaddr = s.faultPaddr := by
  unfold State.memRead; split <;> simp
@[simp] theorem State.memRead_faultIdx (a : Nat) : (s.memRead a).2.faultIdx = s.faultIdx := by
  unfold State.memRead; split <;> simp
@[simp] theorem State.memRead_faultDesc (a : Nat) : (s.memRead a).2.faultDesc = s.faultDesc := by
  unfold State.memRead; split <;> simp
@[simp] theorem State.memRead_clients (a : Nat) : (s.memRead a).2.clients = s.clients := by
  unfold State.memRead; split <;> simp
@[simp] theorem State.memRead_hist (a : Nat) : (s.memRead a).2.hist = s.hist := by
  unfold State.memRead; split <;> simp
@[simp] theorem State.memRead_cells (a : Nat) : (s.memRead a).2.cells = s.cells := by
  unfold State.memRead; split <;> simp
@[simp] theorem State.memRead_grant (a : Nat) : (s.memRead a).2.grant = s.grant := by
  unfold State.memRead; split <;> simp

@[simp] theorem State.memWrite_cfg (a : Nat) (d : Word) : (s.memWrite a d).cfg = s.cfg := by
  unfold State.memWrite; split
  · split <;> simp
  · rfl
  · rfl
@[simp] theorem State.memWrite_phase (a : Nat) (d : Word) : (s.memWrite a d).phase = s.phase := by
  unfold State.memWrite; split
  · split <;> simp
  · rfl
  · rfl
@[simp] theorem State.memWrite_owner (a : Nat) (d : Word) : (s.memWrite a d).owner = s.owner := by
  unfold State.memWrite; split
  · split <;> simp
  · rfl
  · rfl
@[simp] theorem State.memWrite_op (a : Nat) (d : Word) : (s.memWrite a d).op = s.op := by
  unfold State.memWrite; split
  · split <;> simp
  · rfl
  · rfl
@[simp] theorem State.memWrite_w (a : Nat) (d : Word) : (s.memWrite a d).w = s.w := by
  unfold State.memWrite; split
  · split <;> simp
  · rfl
  · rfl
@[simp] theorem State.memWrite_addr (a : Nat) (d : Word) : (s.memWrite a d).addr = s.addr := by
  unfold State.memWrite; split
  · split <;> simp
  · rfl
  · rfl
@[simp] theorem State.memWrite_wdata (a : Nat) (d : Word) : (s.memWrite a d).wdata = s.wdata := by
  unfold State.memWrite; split
  · split <;> simp
  · rfl
  · rfl
@[simp] theorem State.memWrite_idx (a : Nat) (d : Word) : (s.memWrite a d).idx = s.idx := by
  unfold State.memWrite; split
  · split <;> simp
  · rfl
  · rfl
@[simp] theorem State.memWrite_acc (a : Nat) (d : Word) : (s.memWrite a d).acc = s.acc := by
  unfold State.memWrite; split
  · split <;> simp
  · rfl
  · rfl
@[simp] theorem State.memWrite_attach (a : Nat) (d : Word) : (s.memWrite a d).attach = s.attach := by
  unfold State.memWrite; split
  · split <;> simp
  · rfl
  · rfl
@[simp] theorem State.memWrite_faultCode (a : Nat) (d : Word) : (s.memWrite a d).faultCode = s.faultCode := by
  unfold State.memWrite; split
  · split <;> simp
  · rfl
  · rfl
@[simp] theorem State.memWrite_faultClient (a : Nat) (d : Word) : (s.memWrite a d).faultClient = s.faultClient := by
  unfold State.memWrite; split
  · split <;> simp
  · rfl
  · rfl
@[simp] theorem State.memWrite_faultPaddr (a : Nat) (d : Word) : (s.memWrite a d).faultPaddr = s.faultPaddr := by
  unfold State.memWrite; split
  · split <;> simp
  · rfl
  · rfl
@[simp] theorem State.memWrite_faultIdx (a : Nat) (d : Word) : (s.memWrite a d).faultIdx = s.faultIdx := by
  unfold State.memWrite; split
  · split <;> simp
  · rfl
  · rfl
@[simp] theorem State.memWrite_faultDesc (a : Nat) (d : Word) : (s.memWrite a d).faultDesc = s.faultDesc := by
  unfold State.memWrite; split
  · split <;> simp
  · rfl
  · rfl
@[simp] theorem State.memWrite_clients (a : Nat) (d : Word) : (s.memWrite a d).clients = s.clients := by
  unfold State.memWrite; split
  · split <;> simp
  · rfl
  · rfl
@[simp] theorem State.memWrite_hist (a : Nat) (d : Word) : (s.memWrite a d).hist = s.hist := by
  unfold State.memWrite; split
  · split <;> simp
  · rfl
  · rfl
@[simp] theorem State.memWrite_grant (a : Nat) (d : Word) : (s.memWrite a d).grant = s.grant := by
  unfold State.memWrite; split
  · split <;> simp
  · rfl
  · rfl
@[simp] theorem State.memWrite_env (a : Nat) (d : Word) : (s.memWrite a d).env = s.env := by
  unfold State.memWrite; split
  · split <;> simp
  · rfl
  · rfl

/-! ### Device events -/

@[simp] theorem State.deviceEvent_cfg (r : Nat) (v : Value) : (s.deviceEvent r v).cfg = s.cfg := by
  unfold State.deviceEvent; split
  · split <;> rfl
  · rfl
@[simp] theorem State.deviceEvent_phase (r : Nat) (v : Value) : (s.deviceEvent r v).phase = s.phase := by
  unfold State.deviceEvent; split
  · split <;> rfl
  · rfl
@[simp] theorem State.deviceEvent_owner (r : Nat) (v : Value) : (s.deviceEvent r v).owner = s.owner := by
  unfold State.deviceEvent; split
  · split <;> rfl
  · rfl
@[simp] theorem State.deviceEvent_op (r : Nat) (v : Value) : (s.deviceEvent r v).op = s.op := by
  unfold State.deviceEvent; split
  · split <;> rfl
  · rfl
@[simp] theorem State.deviceEvent_w (r : Nat) (v : Value) : (s.deviceEvent r v).w = s.w := by
  unfold State.deviceEvent; split
  · split <;> rfl
  · rfl
@[simp] theorem State.deviceEvent_addr (r : Nat) (v : Value) : (s.deviceEvent r v).addr = s.addr := by
  unfold State.deviceEvent; split
  · split <;> rfl
  · rfl
@[simp] theorem State.deviceEvent_wdata (r : Nat) (v : Value) : (s.deviceEvent r v).wdata = s.wdata := by
  unfold State.deviceEvent; split
  · split <;> rfl
  · rfl
@[simp] theorem State.deviceEvent_idx (r : Nat) (v : Value) : (s.deviceEvent r v).idx = s.idx := by
  unfold State.deviceEvent; split
  · split <;> rfl
  · rfl
@[simp] theorem State.deviceEvent_acc (r : Nat) (v : Value) : (s.deviceEvent r v).acc = s.acc := by
  unfold State.deviceEvent; split
  · split <;> rfl
  · rfl
@[simp] theorem State.deviceEvent_attach (r : Nat) (v : Value) : (s.deviceEvent r v).attach = s.attach := by
  unfold State.deviceEvent; split
  · split <;> rfl
  · rfl
@[simp] theorem State.deviceEvent_faultCode (r : Nat) (v : Value) : (s.deviceEvent r v).faultCode = s.faultCode := by
  unfold State.deviceEvent; split
  · split <;> rfl
  · rfl
@[simp] theorem State.deviceEvent_faultClient (r : Nat) (v : Value) : (s.deviceEvent r v).faultClient = s.faultClient := by
  unfold State.deviceEvent; split
  · split <;> rfl
  · rfl
@[simp] theorem State.deviceEvent_faultPaddr (r : Nat) (v : Value) : (s.deviceEvent r v).faultPaddr = s.faultPaddr := by
  unfold State.deviceEvent; split
  · split <;> rfl
  · rfl
@[simp] theorem State.deviceEvent_faultIdx (r : Nat) (v : Value) : (s.deviceEvent r v).faultIdx = s.faultIdx := by
  unfold State.deviceEvent; split
  · split <;> rfl
  · rfl
@[simp] theorem State.deviceEvent_faultDesc (r : Nat) (v : Value) : (s.deviceEvent r v).faultDesc = s.faultDesc := by
  unfold State.deviceEvent; split
  · split <;> rfl
  · rfl
@[simp] theorem State.deviceEvent_clients (r : Nat) (v : Value) : (s.deviceEvent r v).clients = s.clients := by
  unfold State.deviceEvent; split
  · split <;> rfl
  · rfl
@[simp] theorem State.deviceEvent_hist (r : Nat) (v : Value) : (s.deviceEvent r v).hist = s.hist := by
  unfold State.deviceEvent; split
  · split <;> rfl
  · rfl
@[simp] theorem State.deviceEvent_cells (r : Nat) (v : Value) : (s.deviceEvent r v).cells = s.cells := by
  unfold State.deviceEvent; split
  · split <;> rfl
  · rfl
@[simp] theorem State.deviceEvent_device (r : Nat) (v : Value) : (s.deviceEvent r v).device = s.device := by
  unfold State.deviceEvent; split
  · split <;> rfl
  · rfl
@[simp] theorem State.deviceEvent_grant (r : Nat) (v : Value) : (s.deviceEvent r v).grant = s.grant := by
  unfold State.deviceEvent; split
  · split <;> rfl
  · rfl
@[simp] theorem State.deviceEvent_env (r : Nat) (v : Value) : (s.deviceEvent r v).env = s.env := by
  unfold State.deviceEvent; split
  · split <;> rfl
  · rfl

/-! ### Fault entry -/

@[simp] theorem State.raiseFault_cfg (code : FaultCode) (c : Nat) (p : BitVec 33) (i : BitVec 4) (d : Word) : (s.raiseFault code c p i d).cfg = s.cfg := rfl
@[simp] theorem State.raiseFault_owner (code : FaultCode) (c : Nat) (p : BitVec 33) (i : BitVec 4) (d : Word) : (s.raiseFault code c p i d).owner = s.owner := rfl
@[simp] theorem State.raiseFault_op (code : FaultCode) (c : Nat) (p : BitVec 33) (i : BitVec 4) (d : Word) : (s.raiseFault code c p i d).op = s.op := rfl
@[simp] theorem State.raiseFault_w (code : FaultCode) (c : Nat) (p : BitVec 33) (i : BitVec 4) (d : Word) : (s.raiseFault code c p i d).w = s.w := rfl
@[simp] theorem State.raiseFault_addr (code : FaultCode) (c : Nat) (p : BitVec 33) (i : BitVec 4) (d : Word) : (s.raiseFault code c p i d).addr = s.addr := rfl
@[simp] theorem State.raiseFault_wdata (code : FaultCode) (c : Nat) (p : BitVec 33) (i : BitVec 4) (d : Word) : (s.raiseFault code c p i d).wdata = s.wdata := rfl
@[simp] theorem State.raiseFault_idx (code : FaultCode) (c : Nat) (p : BitVec 33) (i : BitVec 4) (d : Word) : (s.raiseFault code c p i d).idx = s.idx := rfl
@[simp] theorem State.raiseFault_acc (code : FaultCode) (c : Nat) (p : BitVec 33) (i : BitVec 4) (d : Word) : (s.raiseFault code c p i d).acc = s.acc := rfl
@[simp] theorem State.raiseFault_attach (code : FaultCode) (c : Nat) (p : BitVec 33) (i : BitVec 4) (d : Word) : (s.raiseFault code c p i d).attach = s.attach := rfl
@[simp] theorem State.raiseFault_clients (code : FaultCode) (c : Nat) (p : BitVec 33) (i : BitVec 4) (d : Word) : (s.raiseFault code c p i d).clients = s.clients := rfl
@[simp] theorem State.raiseFault_hist (code : FaultCode) (c : Nat) (p : BitVec 33) (i : BitVec 4) (d : Word) : (s.raiseFault code c p i d).hist = s.hist := rfl
@[simp] theorem State.raiseFault_cells (code : FaultCode) (c : Nat) (p : BitVec 33) (i : BitVec 4) (d : Word) : (s.raiseFault code c p i d).cells = s.cells := rfl
@[simp] theorem State.raiseFault_statusVal (code : FaultCode) (c : Nat) (p : BitVec 33) (i : BitVec 4) (d : Word) : (s.raiseFault code c p i d).statusVal = s.statusVal := rfl
@[simp] theorem State.raiseFault_device (code : FaultCode) (c : Nat) (p : BitVec 33) (i : BitVec 4) (d : Word) : (s.raiseFault code c p i d).device = s.device := rfl
@[simp] theorem State.raiseFault_grant (code : FaultCode) (c : Nat) (p : BitVec 33) (i : BitVec 4) (d : Word) : (s.raiseFault code c p i d).grant = s.grant := rfl
@[simp] theorem State.raiseFault_env (code : FaultCode) (c : Nat) (p : BitVec 33) (i : BitVec 4) (d : Word) : (s.raiseFault code c p i d).env = s.env := rfl

/-! ### Taking the lock -/

@[simp] theorem State.takeLock_cfg : (s.takeLock).cfg = s.cfg := rfl
@[simp] theorem State.takeLock_op : (s.takeLock).op = s.op := rfl
@[simp] theorem State.takeLock_w : (s.takeLock).w = s.w := rfl
@[simp] theorem State.takeLock_addr : (s.takeLock).addr = s.addr := rfl
@[simp] theorem State.takeLock_wdata : (s.takeLock).wdata = s.wdata := rfl
@[simp] theorem State.takeLock_idx : (s.takeLock).idx = s.idx := rfl
@[simp] theorem State.takeLock_acc : (s.takeLock).acc = s.acc := rfl
@[simp] theorem State.takeLock_attach : (s.takeLock).attach = s.attach := rfl
@[simp] theorem State.takeLock_faultCode : (s.takeLock).faultCode = s.faultCode := rfl
@[simp] theorem State.takeLock_faultClient : (s.takeLock).faultClient = s.faultClient := rfl
@[simp] theorem State.takeLock_faultPaddr : (s.takeLock).faultPaddr = s.faultPaddr := rfl
@[simp] theorem State.takeLock_faultIdx : (s.takeLock).faultIdx = s.faultIdx := rfl
@[simp] theorem State.takeLock_faultDesc : (s.takeLock).faultDesc = s.faultDesc := rfl
@[simp] theorem State.takeLock_hist : (s.takeLock).hist = s.hist := rfl
@[simp] theorem State.takeLock_cells : (s.takeLock).cells = s.cells := rfl
@[simp] theorem State.takeLock_statusVal : (s.takeLock).statusVal = s.statusVal := rfl
@[simp] theorem State.takeLock_device : (s.takeLock).device = s.device := rfl
@[simp] theorem State.takeLock_grant : (s.takeLock).grant = s.grant := rfl
@[simp] theorem State.takeLock_env : (s.takeLock).env = s.env := rfl

/-! ### Acceptance of a reserved request -/

@[simp] theorem State.acceptReserved_cfg (q : Request) : (s.acceptReserved q).cfg = s.cfg := rfl
@[simp] theorem State.acceptReserved_op (q : Request) : (s.acceptReserved q).op = s.op := rfl
@[simp] theorem State.acceptReserved_w (q : Request) : (s.acceptReserved q).w = s.w := rfl
@[simp] theorem State.acceptReserved_addr (q : Request) : (s.acceptReserved q).addr = s.addr := rfl
@[simp] theorem State.acceptReserved_wdata (q : Request) : (s.acceptReserved q).wdata = s.wdata := rfl
@[simp] theorem State.acceptReserved_idx (q : Request) : (s.acceptReserved q).idx = s.idx := rfl
@[simp] theorem State.acceptReserved_acc (q : Request) : (s.acceptReserved q).acc = s.acc := rfl
@[simp] theorem State.acceptReserved_attach (q : Request) : (s.acceptReserved q).attach = s.attach := rfl
@[simp] theorem State.acceptReserved_hist (q : Request) : (s.acceptReserved q).hist = s.hist := rfl
@[simp] theorem State.acceptReserved_cells (q : Request) : (s.acceptReserved q).cells = s.cells := rfl
@[simp] theorem State.acceptReserved_statusVal (q : Request) : (s.acceptReserved q).statusVal = s.statusVal := rfl
@[simp] theorem State.acceptReserved_device (q : Request) : (s.acceptReserved q).device = s.device := rfl
@[simp] theorem State.acceptReserved_grant (q : Request) : (s.acceptReserved q).grant = s.grant := rfl
@[simp] theorem State.acceptReserved_env (q : Request) : (s.acceptReserved q).env = s.env := rfl

/-! ### A beat that faults -/

@[simp] theorem State.beatFault_cfg : (s.beatFault).cfg = s.cfg := rfl
@[simp] theorem State.beatFault_owner : (s.beatFault).owner = s.owner := rfl
@[simp] theorem State.beatFault_op : (s.beatFault).op = s.op := rfl
@[simp] theorem State.beatFault_w : (s.beatFault).w = s.w := rfl
@[simp] theorem State.beatFault_addr : (s.beatFault).addr = s.addr := rfl
@[simp] theorem State.beatFault_wdata : (s.beatFault).wdata = s.wdata := rfl
@[simp] theorem State.beatFault_idx : (s.beatFault).idx = s.idx := rfl
@[simp] theorem State.beatFault_acc : (s.beatFault).acc = s.acc := rfl
@[simp] theorem State.beatFault_attach : (s.beatFault).attach = s.attach := rfl
@[simp] theorem State.beatFault_clients : (s.beatFault).clients = s.clients := rfl
@[simp] theorem State.beatFault_hist : (s.beatFault).hist = s.hist := rfl
@[simp] theorem State.beatFault_cells : (s.beatFault).cells = s.cells := rfl
@[simp] theorem State.beatFault_statusVal : (s.beatFault).statusVal = s.statusVal := rfl
@[simp] theorem State.beatFault_device : (s.beatFault).device = s.device := rfl
@[simp] theorem State.beatFault_grant : (s.beatFault).grant = s.grant := rfl
@[simp] theorem State.beatFault_env : (s.beatFault).env = s.env := rfl

/-! ### Counting a beat -/

@[simp] theorem State.endBeat_cfg (kind : BusKind) (p : Addr) (d : Word) : (s.endBeat kind p d).cfg = s.cfg := rfl
@[simp] theorem State.endBeat_phase (kind : BusKind) (p : Addr) (d : Word) : (s.endBeat kind p d).phase = s.phase := rfl
@[simp] theorem State.endBeat_owner (kind : BusKind) (p : Addr) (d : Word) : (s.endBeat kind p d).owner = s.owner := rfl
@[simp] theorem State.endBeat_op (kind : BusKind) (p : Addr) (d : Word) : (s.endBeat kind p d).op = s.op := rfl
@[simp] theorem State.endBeat_w (kind : BusKind) (p : Addr) (d : Word) : (s.endBeat kind p d).w = s.w := rfl
@[simp] theorem State.endBeat_addr (kind : BusKind) (p : Addr) (d : Word) : (s.endBeat kind p d).addr = s.addr := rfl
@[simp] theorem State.endBeat_wdata (kind : BusKind) (p : Addr) (d : Word) : (s.endBeat kind p d).wdata = s.wdata := rfl
@[simp] theorem State.endBeat_acc (kind : BusKind) (p : Addr) (d : Word) : (s.endBeat kind p d).acc = s.acc := rfl
@[simp] theorem State.endBeat_attach (kind : BusKind) (p : Addr) (d : Word) : (s.endBeat kind p d).attach = s.attach := rfl
@[simp] theorem State.endBeat_faultCode (kind : BusKind) (p : Addr) (d : Word) : (s.endBeat kind p d).faultCode = s.faultCode := rfl
@[simp] theorem State.endBeat_faultClient (kind : BusKind) (p : Addr) (d : Word) : (s.endBeat kind p d).faultClient = s.faultClient := rfl
@[simp] theorem State.endBeat_faultPaddr (kind : BusKind) (p : Addr) (d : Word) : (s.endBeat kind p d).faultPaddr = s.faultPaddr := rfl
@[simp] theorem State.endBeat_faultIdx (kind : BusKind) (p : Addr) (d : Word) : (s.endBeat kind p d).faultIdx = s.faultIdx := rfl
@[simp] theorem State.endBeat_faultDesc (kind : BusKind) (p : Addr) (d : Word) : (s.endBeat kind p d).faultDesc = s.faultDesc := rfl
@[simp] theorem State.endBeat_clients (kind : BusKind) (p : Addr) (d : Word) : (s.endBeat kind p d).clients = s.clients := rfl
@[simp] theorem State.endBeat_cells (kind : BusKind) (p : Addr) (d : Word) : (s.endBeat kind p d).cells = s.cells := rfl
@[simp] theorem State.endBeat_statusVal (kind : BusKind) (p : Addr) (d : Word) : (s.endBeat kind p d).statusVal = s.statusVal := rfl
@[simp] theorem State.endBeat_device (kind : BusKind) (p : Addr) (d : Word) : (s.endBeat kind p d).device = s.device := rfl
@[simp] theorem State.endBeat_grant (kind : BusKind) (p : Addr) (d : Word) : (s.endBeat kind p d).grant = s.grant := rfl
@[simp] theorem State.endBeat_env (kind : BusKind) (p : Addr) (d : Word) : (s.endBeat kind p d).env = s.env := rfl

/-! ### Completion -/

@[simp] theorem State.complete_cfg (r : Response) : (s.complete r).cfg = s.cfg := rfl
@[simp] theorem State.complete_owner (r : Response) : (s.complete r).owner = s.owner := rfl
@[simp] theorem State.complete_op (r : Response) : (s.complete r).op = s.op := rfl
@[simp] theorem State.complete_w (r : Response) : (s.complete r).w = s.w := rfl
@[simp] theorem State.complete_addr (r : Response) : (s.complete r).addr = s.addr := rfl
@[simp] theorem State.complete_wdata (r : Response) : (s.complete r).wdata = s.wdata := rfl
@[simp] theorem State.complete_idx (r : Response) : (s.complete r).idx = s.idx := rfl
@[simp] theorem State.complete_acc (r : Response) : (s.complete r).acc = s.acc := rfl
@[simp] theorem State.complete_attach (r : Response) : (s.complete r).attach = s.attach := rfl
@[simp] theorem State.complete_faultCode (r : Response) : (s.complete r).faultCode = s.faultCode := rfl
@[simp] theorem State.complete_faultClient (r : Response) : (s.complete r).faultClient = s.faultClient := rfl
@[simp] theorem State.complete_faultPaddr (r : Response) : (s.complete r).faultPaddr = s.faultPaddr := rfl
@[simp] theorem State.complete_faultIdx (r : Response) : (s.complete r).faultIdx = s.faultIdx := rfl
@[simp] theorem State.complete_faultDesc (r : Response) : (s.complete r).faultDesc = s.faultDesc := rfl
@[simp] theorem State.complete_hist (r : Response) : (s.complete r).hist = s.hist := rfl
@[simp] theorem State.complete_cells (r : Response) : (s.complete r).cells = s.cells := rfl
@[simp] theorem State.complete_statusVal (r : Response) : (s.complete r).statusVal = s.statusVal := rfl
@[simp] theorem State.complete_device (r : Response) : (s.complete r).device = s.device := rfl
@[simp] theorem State.complete_grant (r : Response) : (s.complete r).grant = s.grant := rfl
@[simp] theorem State.complete_env (r : Response) : (s.complete r).env = s.env := rfl

/-! ### The self-test passed -/

@[simp] theorem State.attachReady_cfg : (s.attachReady).cfg = s.cfg := rfl
@[simp] theorem State.attachReady_phase : (s.attachReady).phase = s.phase := rfl
@[simp] theorem State.attachReady_owner : (s.attachReady).owner = s.owner := rfl
@[simp] theorem State.attachReady_op : (s.attachReady).op = s.op := rfl
@[simp] theorem State.attachReady_w : (s.attachReady).w = s.w := rfl
@[simp] theorem State.attachReady_addr : (s.attachReady).addr = s.addr := rfl
@[simp] theorem State.attachReady_wdata : (s.attachReady).wdata = s.wdata := rfl
@[simp] theorem State.attachReady_idx : (s.attachReady).idx = s.idx := rfl
@[simp] theorem State.attachReady_acc : (s.attachReady).acc = s.acc := rfl
@[simp] theorem State.attachReady_faultCode : (s.attachReady).faultCode = s.faultCode := rfl
@[simp] theorem State.attachReady_faultClient : (s.attachReady).faultClient = s.faultClient := rfl
@[simp] theorem State.attachReady_faultPaddr : (s.attachReady).faultPaddr = s.faultPaddr := rfl
@[simp] theorem State.attachReady_faultIdx : (s.attachReady).faultIdx = s.faultIdx := rfl
@[simp] theorem State.attachReady_faultDesc : (s.attachReady).faultDesc = s.faultDesc := rfl
@[simp] theorem State.attachReady_clients : (s.attachReady).clients = s.clients := rfl
@[simp] theorem State.attachReady_hist : (s.attachReady).hist = s.hist := rfl
@[simp] theorem State.attachReady_cells : (s.attachReady).cells = s.cells := rfl
@[simp] theorem State.attachReady_statusVal : (s.attachReady).statusVal = s.statusVal := rfl
@[simp] theorem State.attachReady_device : (s.attachReady).device = s.device := rfl
@[simp] theorem State.attachReady_grant : (s.attachReady).grant = s.grant := rfl
@[simp] theorem State.attachReady_env : (s.attachReady).env = s.env := rfl

/-! ### The self-test failed -/

@[simp] theorem State.attachDead_cfg : (s.attachDead).cfg = s.cfg := rfl
@[simp] theorem State.attachDead_phase : (s.attachDead).phase = s.phase := rfl
@[simp] theorem State.attachDead_owner : (s.attachDead).owner = s.owner := rfl
@[simp] theorem State.attachDead_op : (s.attachDead).op = s.op := rfl
@[simp] theorem State.attachDead_w : (s.attachDead).w = s.w := rfl
@[simp] theorem State.attachDead_addr : (s.attachDead).addr = s.addr := rfl
@[simp] theorem State.attachDead_wdata : (s.attachDead).wdata = s.wdata := rfl
@[simp] theorem State.attachDead_idx : (s.attachDead).idx = s.idx := rfl
@[simp] theorem State.attachDead_acc : (s.attachDead).acc = s.acc := rfl
@[simp] theorem State.attachDead_clients : (s.attachDead).clients = s.clients := rfl
@[simp] theorem State.attachDead_hist : (s.attachDead).hist = s.hist := rfl
@[simp] theorem State.attachDead_cells : (s.attachDead).cells = s.cells := rfl
@[simp] theorem State.attachDead_statusVal : (s.attachDead).statusVal = s.statusVal := rfl
@[simp] theorem State.attachDead_device : (s.attachDead).device = s.device := rfl
@[simp] theorem State.attachDead_grant : (s.attachDead).grant = s.grant := rfl
@[simp] theorem State.attachDead_env : (s.attachDead).env = s.env := rfl

/-! ### Reset -/

@[simp] theorem State.applyReset_cfg : (s.applyReset).cfg = s.cfg := rfl

/-! ### What bus cycles of a beat change -/

@[simp] theorem State.readCycle_cfg : s.readCycle.cfg = s.cfg := by
  simp [State.readCycle]
@[simp] theorem State.readCycle_phase : s.readCycle.phase = s.phase := by
  simp [State.readCycle]
@[simp] theorem State.readCycle_owner : s.readCycle.owner = s.owner := by
  simp [State.readCycle]
@[simp] theorem State.readCycle_op : s.readCycle.op = s.op := by
  simp [State.readCycle]
@[simp] theorem State.readCycle_w : s.readCycle.w = s.w := by
  simp [State.readCycle]
@[simp] theorem State.readCycle_addr : s.readCycle.addr = s.addr := by
  simp [State.readCycle]
@[simp] theorem State.readCycle_wdata : s.readCycle.wdata = s.wdata := by
  simp [State.readCycle]
@[simp] theorem State.readCycle_attach : s.readCycle.attach = s.attach := by
  simp [State.readCycle]
@[simp] theorem State.readCycle_faultCode : s.readCycle.faultCode = s.faultCode := by
  simp [State.readCycle]
@[simp] theorem State.readCycle_faultClient : s.readCycle.faultClient = s.faultClient := by
  simp [State.readCycle]
@[simp] theorem State.readCycle_faultPaddr : s.readCycle.faultPaddr = s.faultPaddr := by
  simp [State.readCycle]
@[simp] theorem State.readCycle_faultIdx : s.readCycle.faultIdx = s.faultIdx := by
  simp [State.readCycle]
@[simp] theorem State.readCycle_faultDesc : s.readCycle.faultDesc = s.faultDesc := by
  simp [State.readCycle]
@[simp] theorem State.readCycle_clients : s.readCycle.clients = s.clients := by
  simp [State.readCycle]
@[simp] theorem State.readCycle_cells : s.readCycle.cells = s.cells := by
  simp [State.readCycle]
@[simp] theorem State.readCycle_grant : s.readCycle.grant = s.grant := by
  simp [State.readCycle]

@[simp] theorem State.writeCycle_cfg : s.writeCycle.cfg = s.cfg := by
  simp [State.writeCycle]
@[simp] theorem State.writeCycle_phase : s.writeCycle.phase = s.phase := by
  simp [State.writeCycle]
@[simp] theorem State.writeCycle_owner : s.writeCycle.owner = s.owner := by
  simp [State.writeCycle]
@[simp] theorem State.writeCycle_op : s.writeCycle.op = s.op := by
  simp [State.writeCycle]
@[simp] theorem State.writeCycle_w : s.writeCycle.w = s.w := by
  simp [State.writeCycle]
@[simp] theorem State.writeCycle_addr : s.writeCycle.addr = s.addr := by
  simp [State.writeCycle]
@[simp] theorem State.writeCycle_wdata : s.writeCycle.wdata = s.wdata := by
  simp [State.writeCycle]
@[simp] theorem State.writeCycle_acc : s.writeCycle.acc = s.acc := by
  simp [State.writeCycle]
@[simp] theorem State.writeCycle_attach : s.writeCycle.attach = s.attach := by
  simp [State.writeCycle]
@[simp] theorem State.writeCycle_faultCode : s.writeCycle.faultCode = s.faultCode := by
  simp [State.writeCycle]
@[simp] theorem State.writeCycle_faultClient : s.writeCycle.faultClient = s.faultClient := by
  simp [State.writeCycle]
@[simp] theorem State.writeCycle_faultPaddr : s.writeCycle.faultPaddr = s.faultPaddr := by
  simp [State.writeCycle]
@[simp] theorem State.writeCycle_faultIdx : s.writeCycle.faultIdx = s.faultIdx := by
  simp [State.writeCycle]
@[simp] theorem State.writeCycle_faultDesc : s.writeCycle.faultDesc = s.faultDesc := by
  simp [State.writeCycle]
@[simp] theorem State.writeCycle_clients : s.writeCycle.clients = s.clients := by
  simp [State.writeCycle]
@[simp] theorem State.writeCycle_grant : s.writeCycle.grant = s.grant := by
  simp [State.writeCycle]
@[simp] theorem State.writeCycle_env : s.writeCycle.env = s.env := by
  simp [State.writeCycle]

/-! ### Client moves -/

@[simp] theorem State.submit_cfg (c : Nat) (q : Request) : (s.submit c q).cfg = s.cfg := by
  unfold State.submit; split <;> rfl
@[simp] theorem State.submit_phase (c : Nat) (q : Request) : (s.submit c q).phase = s.phase := by
  unfold State.submit; split <;> rfl
@[simp] theorem State.submit_owner (c : Nat) (q : Request) : (s.submit c q).owner = s.owner := by
  unfold State.submit; split <;> rfl
@[simp] theorem State.submit_op (c : Nat) (q : Request) : (s.submit c q).op = s.op := by
  unfold State.submit; split <;> rfl
@[simp] theorem State.submit_w (c : Nat) (q : Request) : (s.submit c q).w = s.w := by
  unfold State.submit; split <;> rfl
@[simp] theorem State.submit_addr (c : Nat) (q : Request) : (s.submit c q).addr = s.addr := by
  unfold State.submit; split <;> rfl
@[simp] theorem State.submit_wdata (c : Nat) (q : Request) : (s.submit c q).wdata = s.wdata := by
  unfold State.submit; split <;> rfl
@[simp] theorem State.submit_idx (c : Nat) (q : Request) : (s.submit c q).idx = s.idx := by
  unfold State.submit; split <;> rfl
@[simp] theorem State.submit_acc (c : Nat) (q : Request) : (s.submit c q).acc = s.acc := by
  unfold State.submit; split <;> rfl
@[simp] theorem State.submit_attach (c : Nat) (q : Request) : (s.submit c q).attach = s.attach := by
  unfold State.submit; split <;> rfl
@[simp] theorem State.submit_faultCode (c : Nat) (q : Request) : (s.submit c q).faultCode = s.faultCode := by
  unfold State.submit; split <;> rfl
@[simp] theorem State.submit_faultClient (c : Nat) (q : Request) : (s.submit c q).faultClient = s.faultClient := by
  unfold State.submit; split <;> rfl
@[simp] theorem State.submit_faultPaddr (c : Nat) (q : Request) : (s.submit c q).faultPaddr = s.faultPaddr := by
  unfold State.submit; split <;> rfl
@[simp] theorem State.submit_faultIdx (c : Nat) (q : Request) : (s.submit c q).faultIdx = s.faultIdx := by
  unfold State.submit; split <;> rfl
@[simp] theorem State.submit_faultDesc (c : Nat) (q : Request) : (s.submit c q).faultDesc = s.faultDesc := by
  unfold State.submit; split <;> rfl
@[simp] theorem State.submit_hist (c : Nat) (q : Request) : (s.submit c q).hist = s.hist := by
  unfold State.submit; split <;> rfl
@[simp] theorem State.submit_cells (c : Nat) (q : Request) : (s.submit c q).cells = s.cells := by
  unfold State.submit; split <;> rfl
@[simp] theorem State.submit_statusVal (c : Nat) (q : Request) : (s.submit c q).statusVal = s.statusVal := by
  unfold State.submit; split <;> rfl
@[simp] theorem State.submit_device (c : Nat) (q : Request) : (s.submit c q).device = s.device := by
  unfold State.submit; split <;> rfl
@[simp] theorem State.submit_grant (c : Nat) (q : Request) : (s.submit c q).grant = s.grant := by
  unfold State.submit; split <;> rfl
@[simp] theorem State.submit_env (c : Nat) (q : Request) : (s.submit c q).env = s.env := by
  unfold State.submit; split <;> rfl

@[simp] theorem State.consume_cfg (c : Nat) : (s.consume c).cfg = s.cfg := by
  unfold State.consume; split <;> rfl
@[simp] theorem State.consume_phase (c : Nat) : (s.consume c).phase = s.phase := by
  unfold State.consume; split <;> rfl
@[simp] theorem State.consume_owner (c : Nat) : (s.consume c).owner = s.owner := by
  unfold State.consume; split <;> rfl
@[simp] theorem State.consume_op (c : Nat) : (s.consume c).op = s.op := by
  unfold State.consume; split <;> rfl
@[simp] theorem State.consume_w (c : Nat) : (s.consume c).w = s.w := by
  unfold State.consume; split <;> rfl
@[simp] theorem State.consume_addr (c : Nat) : (s.consume c).addr = s.addr := by
  unfold State.consume; split <;> rfl
@[simp] theorem State.consume_wdata (c : Nat) : (s.consume c).wdata = s.wdata := by
  unfold State.consume; split <;> rfl
@[simp] theorem State.consume_idx (c : Nat) : (s.consume c).idx = s.idx := by
  unfold State.consume; split <;> rfl
@[simp] theorem State.consume_acc (c : Nat) : (s.consume c).acc = s.acc := by
  unfold State.consume; split <;> rfl
@[simp] theorem State.consume_attach (c : Nat) : (s.consume c).attach = s.attach := by
  unfold State.consume; split <;> rfl
@[simp] theorem State.consume_faultCode (c : Nat) : (s.consume c).faultCode = s.faultCode := by
  unfold State.consume; split <;> rfl
@[simp] theorem State.consume_faultClient (c : Nat) : (s.consume c).faultClient = s.faultClient := by
  unfold State.consume; split <;> rfl
@[simp] theorem State.consume_faultPaddr (c : Nat) : (s.consume c).faultPaddr = s.faultPaddr := by
  unfold State.consume; split <;> rfl
@[simp] theorem State.consume_faultIdx (c : Nat) : (s.consume c).faultIdx = s.faultIdx := by
  unfold State.consume; split <;> rfl
@[simp] theorem State.consume_faultDesc (c : Nat) : (s.consume c).faultDesc = s.faultDesc := by
  unfold State.consume; split <;> rfl
@[simp] theorem State.consume_hist (c : Nat) : (s.consume c).hist = s.hist := by
  unfold State.consume; split <;> rfl
@[simp] theorem State.consume_cells (c : Nat) : (s.consume c).cells = s.cells := by
  unfold State.consume; split <;> rfl
@[simp] theorem State.consume_statusVal (c : Nat) : (s.consume c).statusVal = s.statusVal := by
  unfold State.consume; split <;> rfl
@[simp] theorem State.consume_device (c : Nat) : (s.consume c).device = s.device := by
  unfold State.consume; split <;> rfl
@[simp] theorem State.consume_grant (c : Nat) : (s.consume c).grant = s.grant := by
  unfold State.consume; split <;> rfl
@[simp] theorem State.consume_env (c : Nat) : (s.consume c).env = s.env := by
  unfold State.consume; split <;> rfl

@[simp] theorem State.attachEffect_cfg (c : Nat) (st : Stmt) : (s.attachEffect c st).cfg = s.cfg := by
  unfold State.attachEffect; repeat' split
  all_goals rfl
@[simp] theorem State.attachEffect_phase (c : Nat) (st : Stmt) : (s.attachEffect c st).phase = s.phase := by
  unfold State.attachEffect; repeat' split
  all_goals rfl
@[simp] theorem State.attachEffect_owner (c : Nat) (st : Stmt) : (s.attachEffect c st).owner = s.owner := by
  unfold State.attachEffect; repeat' split
  all_goals rfl
@[simp] theorem State.attachEffect_op (c : Nat) (st : Stmt) : (s.attachEffect c st).op = s.op := by
  unfold State.attachEffect; repeat' split
  all_goals rfl
@[simp] theorem State.attachEffect_w (c : Nat) (st : Stmt) : (s.attachEffect c st).w = s.w := by
  unfold State.attachEffect; repeat' split
  all_goals rfl
@[simp] theorem State.attachEffect_addr (c : Nat) (st : Stmt) : (s.attachEffect c st).addr = s.addr := by
  unfold State.attachEffect; repeat' split
  all_goals rfl
@[simp] theorem State.attachEffect_wdata (c : Nat) (st : Stmt) : (s.attachEffect c st).wdata = s.wdata := by
  unfold State.attachEffect; repeat' split
  all_goals rfl
@[simp] theorem State.attachEffect_idx (c : Nat) (st : Stmt) : (s.attachEffect c st).idx = s.idx := by
  unfold State.attachEffect; repeat' split
  all_goals rfl
@[simp] theorem State.attachEffect_acc (c : Nat) (st : Stmt) : (s.attachEffect c st).acc = s.acc := by
  unfold State.attachEffect; repeat' split
  all_goals rfl
@[simp] theorem State.attachEffect_clients (c : Nat) (st : Stmt) : (s.attachEffect c st).clients = s.clients := by
  unfold State.attachEffect; repeat' split
  all_goals rfl
@[simp] theorem State.attachEffect_hist (c : Nat) (st : Stmt) : (s.attachEffect c st).hist = s.hist := by
  unfold State.attachEffect; repeat' split
  all_goals rfl
@[simp] theorem State.attachEffect_cells (c : Nat) (st : Stmt) : (s.attachEffect c st).cells = s.cells := by
  unfold State.attachEffect; repeat' split
  all_goals rfl
@[simp] theorem State.attachEffect_statusVal (c : Nat) (st : Stmt) : (s.attachEffect c st).statusVal = s.statusVal := by
  unfold State.attachEffect; repeat' split
  all_goals rfl
@[simp] theorem State.attachEffect_device (c : Nat) (st : Stmt) : (s.attachEffect c st).device = s.device := by
  unfold State.attachEffect; repeat' split
  all_goals rfl
@[simp] theorem State.attachEffect_grant (c : Nat) (st : Stmt) : (s.attachEffect c st).grant = s.grant := by
  unfold State.attachEffect; repeat' split
  all_goals rfl
@[simp] theorem State.attachEffect_env (c : Nat) (st : Stmt) : (s.attachEffect c st).env = s.env := by
  unfold State.attachEffect; repeat' split
  all_goals rfl

end updates

end Sys2Proof.Machine
end

