-- ==== Sys2Proof/Laws/Sequencer.lean ====
section
/-! SUPPORT. What the sequencer's move does, said once: an equation for each case and one inversion lemma. -/

namespace Sys2Proof.Machine

variable {s t : State}

theorem acceptEnabled_iff : s.acceptEnabled = true ↔ s.phase = .idle ∧ s.admitted s.grant = true ∧
    (s.request s.grant).isSome = true := by
  simp [State.acceptEnabled, and_assoc]

theorem acceptEnabled_of_not_idle (h : s.phase ≠ .idle) : s.acceptEnabled = false := by
  simp [State.acceptEnabled, h]

theorem running_iff {op : Op} {w : Width} : s.running op w = true ↔ s.phase = .busy ∧ s.op = op ∧ s.w = w := by
  simp [State.running]

theorem cycleEnabled_iff {op : Op} : s.cycleEnabled op = true ↔
    s.phase = .busy ∧ s.op = op ∧ s.beatsLeft = true ∧ s.beatMapped = true := by
  simp [State.cycleEnabled, and_assoc]

theorem beatMapped_iff : s.beatMapped = true ↔ s.beatAddr < addrSpace ∧ s.cfg.mapped s.beatAddr = true := by
  simp [State.beatMapped]

theorem beatsLeft_iff : s.beatsLeft = true ↔ s.idx.toNat < s.w.bytes := by simp [State.beatsLeft]

/-- The address driven in a mapped beat is the beat's address. -/
theorem busCycle_adr (h : s.beatAddr < addrSpace) : s.busCycle.adr.toNat = s.beatAddr := by
  have h' : s.beatAddr < 2 ^ 32 := h
  simp only [State.busCycle, BitVec.toNat_ofNat]
  exact Nat.mod_eq_of_lt h'

/-! ## The meanings, case by case -/

theorem execLread_accept {w : Width} {q : Request} (hi : s.phase = .idle) (ha : s.admitted s.grant = true)
    (hq : s.request s.grant = some q) : execLread w s = .next (s.accept .read w q) := by
  have he : s.acceptEnabled = true := acceptEnabled_iff.2 ⟨hi, ha, by simp [hq]⟩
  simp [execLread, he, hq]

theorem execLwrite_accept {w : Width} {q : Request} (hi : s.phase = .idle) (ha : s.admitted s.grant = true)
    (hq : s.request s.grant = some q) : execLwrite w s = .next (s.accept .write w q) := by
  have he : s.acceptEnabled = true := acceptEnabled_iff.2 ⟨hi, ha, by simp [hq]⟩
  simp [execLwrite, he, hq]

theorem execLread_beat (hb : s.phase = .busy) (ho : s.op = .read) (hl : s.beatsLeft = true) :
    execLread s.w s = .next (if s.beatMapped then s.readCycle else s.beatFault) := by
  have he : s.acceptEnabled = false := acceptEnabled_of_not_idle (by simp [hb])
  simp [execLread, he, State.running, hb, ho, hl]

theorem execLwrite_beat (hb : s.phase = .busy) (ho : s.op = .write) (hl : s.beatsLeft = true) :
    execLwrite s.w s = .next (if s.beatMapped then s.writeCycle else s.beatFault) := by
  have he : s.acceptEnabled = false := acceptEnabled_of_not_idle (by simp [hb])
  simp [execLwrite, he, State.running, hb, ho, hl]

theorem execLread_complete (hb : s.phase = .busy) (ho : s.op = .read) (hw : s.idx.toNat = s.w.bytes) :
    execLread s.w s = .next (s.complete (.readDone s.acc)) := by
  have he : s.acceptEnabled = false := acceptEnabled_of_not_idle (by simp [hb])
  simp [execLread, he, State.running, State.beatsLeft, hb, ho, hw]

theorem execLwrite_complete (hb : s.phase = .busy) (ho : s.op = .write) (hw : s.idx.toNat = s.w.bytes) :
    execLwrite s.w s = .next (s.complete .writeDone) := by
  have he : s.acceptEnabled = false := acceptEnabled_of_not_idle (by simp [hb])
  simp [execLwrite, he, State.running, State.beatsLeft, hb, ho, hw]

theorem execPread_cycle (h : s.cycleEnabled .read = true) : execPread s = .next s.readCycle := by simp [execPread, h]
theorem execPwrite_cycle (h : s.cycleEnabled .write = true) : execPwrite s = .next s.writeCycle := by simp [execPwrite, h]

/-- Acceptance at an aligned base loads the datapath (40 R100). -/
theorem accept_aligned {op : Op} {w : Width} {q : Request} (h : q.addr.toNat % 4 = 0) : s.accept op w q =
    { s.takeLock with op := op, w := w, addr := q.addr, wdata := q.wdata, idx := 0, acc := 0 } :=
  if_neg (fun hn => hn h)

/-- Acceptance at a misaligned base faults (60 R203). -/
theorem accept_misaligned {op : Op} {w : Width} {q : Request} (h : q.addr.toNat % 4 ≠ 0) : s.accept op w q =
    s.takeLock.raiseFault .misaligned s.grant (q.addr.setWidth 33) 0 q.desc :=
  if_pos h

/-! ## The sequencer's move, case by case -/

theorem fetchWord_idle {q : Request} (hi : s.phase = .idle) (ha : s.admitted s.grant = true)
    (hq : s.request s.grant = some q) : s.fetchWord = some (.ldesc q.desc) := by
  simp [State.fetchWord, hi, ha, hq]

theorem fetchWord_beat (hb : s.phase = .busy) (hl : s.beatsLeft = true) (hm : s.beatMapped = true) :
    s.fetchWord = some (.cmd s.busCycle.cmd) := by
  simp [State.fetchWord, hb, hl, hm]

/-- The sequencer executes the instruction its word decodes to. -/
theorem sequencerMove_exec {e : Encoded} {i : Instr} (hf : s.fetchWord = some e) (hd : decode e = .ok i) :
    s.sequencerMove = exec i s := by
  simp [State.sequencerMove, hf, hd]

/-- Acceptance of a legal LDESC, which is the word of its operation and width (40 R100). -/
theorem sequencerMove_accept {op : Op} {w : Width} {q : Request} (hi : s.phase = .idle) (ha : s.admitted s.grant = true)
    (hq : s.request s.grant = some q) (hd : q.desc = ldescOf op w) : s.sequencerMove = .next (s.accept op w q) := by
  have hf : s.fetchWord = some (.ldesc (ldescOf op w)) := by simp [State.fetchWord, hi, ha, hq, hd]
  cases op with
  | read => simp only [State.sequencerMove, hf, decode_ldescOf_read]; exact execLread_accept hi ha hq
  | write => simp only [State.sequencerMove, hf, decode_ldescOf_write]; exact execLwrite_accept hi ha hq

/-- Acceptance of a reserved LDESC (60 R202). -/
theorem sequencerMove_reserved {q : Request} {e : DecodeError} (hi : s.phase = .idle) (ha : s.admitted s.grant = true)
    (hq : s.request s.grant = some q) (hd : decodeLdesc q.desc = .error e) :
    s.sequencerMove = .next (s.acceptReserved q) := by
  have hf : s.fetchWord = some (.ldesc q.desc) := by simp [State.fetchWord, hi, ha, hq]
  simp [State.sequencerMove, hf, decode, hd, hq]

theorem sequencerMove_read (hb : s.phase = .busy) (ho : s.op = .read) (hl : s.beatsLeft = true)
    (hm : s.beatMapped = true) : s.sequencerMove = .next s.readCycle := by
  have hf : s.fetchWord = some (.cmd (cmdWord Op.read.bit)) := by
    simp [State.fetchWord, hb, hl, hm, State.busCycle, ho]
  simp only [State.sequencerMove, hf, decode_cmd_read]
  exact execPread_cycle (cycleEnabled_iff.2 ⟨hb, ho, hl, hm⟩)

theorem sequencerMove_write (hb : s.phase = .busy) (ho : s.op = .write) (hl : s.beatsLeft = true)
    (hm : s.beatMapped = true) : s.sequencerMove = .next s.writeCycle := by
  have hf : s.fetchWord = some (.cmd (cmdWord Op.write.bit)) := by
    simp [State.fetchWord, hb, hl, hm, State.busCycle, ho]
  simp only [State.sequencerMove, hf, decode_cmd_write]
  exact execPwrite_cycle (cycleEnabled_iff.2 ⟨hb, ho, hl, hm⟩)

/-- Outside the beats that issue a cycle, a busy sequencer executes the operation in progress. -/
theorem sequencerMove_logical (hb : s.phase = .busy) (h : (s.beatsLeft && s.beatMapped) = false) :
    s.sequencerMove = match s.op with
      | .read => execLread s.w s
      | .write => execLwrite s.w s := by
  have hf : s.fetchWord = some (.ldesc (ldescOf s.op s.w)) := by simp [State.fetchWord, hb, h]
  cases ho : s.op with
  | read => simp only [State.sequencerMove, hf, ho, decode_ldescOf_read]; rfl
  | write => simp only [State.sequencerMove, hf, ho, decode_ldescOf_write]; rfl

theorem sequencerMove_fault (hb : s.phase = .busy) (hl : s.beatsLeft = true) (hm : s.beatMapped = false) :
    s.sequencerMove = .next s.beatFault := by
  rw [sequencerMove_logical hb (by simp [hm])]
  cases ho : s.op with
  | read => simp [execLread_beat hb ho hl, hm]
  | write => simp [execLwrite_beat hb ho hl, hm]

/-- The response completion writes (40 R105). -/
def State.result (s : State) : Response :=
  match s.op with
  | .read => .readDone s.acc
  | .write => .writeDone

theorem sequencerMove_complete (hb : s.phase = .busy) (hw : s.idx.toNat = s.w.bytes) :
    s.sequencerMove = .next (s.complete s.result) := by
  rw [sequencerMove_logical hb (by simp [State.beatsLeft, hw])]
  cases ho : s.op with
  | read => simp [execLread_complete hb ho hw, State.result, ho]
  | write => simp [execLwrite_complete hb ho hw, State.result, ho]

theorem sequencerMove_faulted (h : s.phase = .faulted) : s.sequencerMove = .next s := by
  simp [State.sequencerMove, State.fetchWord, h]

theorem sequencerMove_idle_none (hi : s.phase = .idle) (h : s.admitted s.grant = false ∨ s.request s.grant = none) :
    s.sequencerMove = .next s := by
  have hf : s.fetchWord = none := by
    rcases h with h | h <;> simp [State.fetchWord, hi, h]
  simp [State.sequencerMove, hf]

theorem sequencerMove_past (hb : s.phase = .busy) (hw : s.w.bytes < s.idx.toNat) : s.sequencerMove = .next s := by
  have hl : s.beatsLeft = false := by simp [State.beatsLeft]; omega
  have he : s.acceptEnabled = false := acceptEnabled_of_not_idle (by simp [hb])
  have hne : s.idx.toNat ≠ s.w.bytes := by omega
  rw [sequencerMove_logical hb (by simp [hl])]
  cases ho : s.op with
  | read => simp [execLread, he, State.running, hb, ho, hl, hne]
  | write => simp [execLwrite, he, State.running, hb, ho, hl, hne]

/-- A legal LDESC is the word of one operation and width (30 R84). -/
theorem ldescOf_of_decode {d : Word} {i : Instr} (h : decodeLdesc d = .ok i) : ∃ op w, d = ldescOf op w := by
  have he := encode_of_decodeLdesc h
  cases i with
  | lread w => exact ⟨.read, w, by simpa [encode, ldescOf, Op.bit] using he.symm⟩
  | lwrite w => exact ⟨.write, w, by simpa [encode, ldescOf, Op.bit] using he.symm⟩
  | pread => simp [encode] at he
  | pwrite => simp [encode] at he

/-- Everything the sequencer's move can do (40 R100, R103 to R105). -/
inductive SequencerCase (s : State) : State → Prop where
  | wait : SequencerCase s s
  | reserved (q : Request) (e : DecodeError) (hi : s.phase = .idle) (ha : s.admitted s.grant = true)
      (hq : s.request s.grant = some q) (hd : decodeLdesc q.desc = .error e) : SequencerCase s (s.acceptReserved q)
  | accept (q : Request) (op : Op) (w : Width) (hi : s.phase = .idle) (ha : s.admitted s.grant = true)
      (hq : s.request s.grant = some q) (hd : q.desc = ldescOf op w) : SequencerCase s (s.accept op w q)
  | fault (hb : s.phase = .busy) (hl : s.beatsLeft = true) (hm : s.beatMapped = false) : SequencerCase s s.beatFault
  | read (hb : s.phase = .busy) (ho : s.op = .read) (hl : s.beatsLeft = true) (hm : s.beatMapped = true) :
      SequencerCase s s.readCycle
  | write (hb : s.phase = .busy) (ho : s.op = .write) (hl : s.beatsLeft = true) (hm : s.beatMapped = true) :
      SequencerCase s s.writeCycle
  | complete (hb : s.phase = .busy) (hw : s.idx.toNat = s.w.bytes) : SequencerCase s (s.complete s.result)

/-- The sequencer's move always answers a next state, by one of the cases above. -/
theorem sequencerMove_next (s : State) : ∃ t, s.sequencerMove = .next t ∧ SequencerCase s t := by
  cases hp : s.phase with
  | faulted => exact ⟨s, sequencerMove_faulted hp, .wait⟩
  | idle =>
    cases ha : s.admitted s.grant with
    | false => exact ⟨s, sequencerMove_idle_none hp (.inl ha), .wait⟩
    | true =>
      cases hq : s.request s.grant with
      | none => exact ⟨s, sequencerMove_idle_none hp (.inr hq), .wait⟩
      | some q =>
        cases hd : decodeLdesc q.desc with
        | error e => exact ⟨_, sequencerMove_reserved hp ha hq hd, .reserved q e hp ha hq hd⟩
        | ok i =>
          obtain ⟨op, w, hw⟩ := ldescOf_of_decode hd
          exact ⟨_, sequencerMove_accept hp ha hq hw, .accept q op w hp ha hq hw⟩
  | busy =>
    cases hl : s.beatsLeft with
    | true =>
      cases hm : s.beatMapped with
      | false => exact ⟨_, sequencerMove_fault hp hl hm, .fault hp hl hm⟩
      | true =>
        cases ho : s.op with
        | read => exact ⟨_, sequencerMove_read hp ho hl hm, .read hp ho hl hm⟩
        | write => exact ⟨_, sequencerMove_write hp ho hl hm, .write hp ho hl hm⟩
    | false =>
      by_cases hw : s.idx.toNat = s.w.bytes
      · exact ⟨_, sequencerMove_complete hp hw, .complete hp hw⟩
      · have : s.w.bytes < s.idx.toNat := by
          have : ¬ s.idx.toNat < s.w.bytes := by simpa [State.beatsLeft] using hl
          omega
        exact ⟨s, sequencerMove_past hp this, .wait⟩

theorem sequencerMove_cases (h : s.sequencerMove = .next t) : SequencerCase s t := by
  obtain ⟨t', h', hc⟩ := sequencerMove_next s
  rw [h] at h'
  cases h'
  exact hc

end Sys2Proof.Machine
end

