-- ==== Sys2Proof/Laws/Step.lean ====
section
/-! SUPPORT. What a step can do, said once: the environment's choice, then one case for each agent. -/

namespace Sys2Proof.Machine

variable {s t : State}

/-- The state in which the chosen agent moves: the choice is taken from the environment. -/
def State.called (s : State) : State := { s with env := s.env.nextMove.2 }

theorem step_eq (h : s.cfg.WellFormed) : step s = s.called.move s.nextMove := by
  unfold step
  rw [if_pos h]
  rfl

theorem step_ill (h : ¬ s.cfg.WellFormed) : step s = .refused .illFormedConfig := by
  unfold step
  rw [if_neg h]

/-- A step to a next state is a move of the chosen agent. -/
theorem step_next (h : step s = .next t) : s.cfg.WellFormed ∧ s.called.move s.nextMove = .next t := by
  by_cases hc : s.cfg.WellFormed
  · exact ⟨hc, by rw [← step_eq hc]; exact h⟩
  · rw [step_ill hc] at h; cases h

/-- With a scheduled move the environment's choice is that move. -/
theorem nextMove_of_agenda {m : Move} {rest : List Move} (h : s.env.agenda = m :: rest) :
    s.nextMove = m ∧ s.called = { s with env := { s.env with agenda := rest } } := by
  simp [State.nextMove, State.called, Env.nextMove, h]

/-- Everything a client's move can do (43 R180 to R186, R190). -/
inductive ClientCase (s : State) (c : Nat) : State → Prop where
  | wait : ClientCase s c s
  | run (cl : Client) (p : Program) (ln : Line) (hc : s.clients[c]? = some cl) (hp : cl.prog = some p)
      (hs : cl.stopped = false) (hl : p[cl.pc]? = some ln) :
      ClientCase s c
        ((if cl.cstat = .run then s.attachEffect c ln.stmt else s).modifyClient c (Client.runStmt s.cfg p ln.stmt))

theorem clientMove_cases {c : Nat} (h : s.clientMove c = .next t) : ClientCase s c t := by
  unfold State.clientMove at h
  split at h
  · cases h; exact .wait
  · next cl hc =>
    split at h
    · cases h; exact .wait
    · next p hp =>
      split at h
      · cases h
      · split at h
        · cases h; exact .wait
        · next hs =>
          split at h
          · cases h
          · next ln hl =>
            cases h
            exact .run cl p ln hc hp (by simpa using hs) hl

/-- Everything a step can do. -/
inductive StepCase (s : State) : State → Prop where
  | sequencer (c : Nat) (t : State) (hm : s.nextMove = .sequencer c) (h : SequencerCase (s.called.offered c) t) :
      StepCase s t
  | client (c : Nat) (t : State) (hm : s.nextMove = .client c) (h : ClientCase s.called c t) : StepCase s t
  | submit (c : Nat) (q : Request) (hm : s.nextMove = .submit c q) : StepCase s (s.called.submit c q)
  | consume (c : Nat) (hm : s.nextMove = .consume c) : StepCase s (s.called.consume c)
  | device (r : Nat) (v : Value) (hm : s.nextMove = .device r v) : StepCase s (s.called.deviceEvent r v)
  | reset (hm : s.nextMove = .reset) : StepCase s s.called.applyReset

theorem step_cases (h : step s = .next t) : StepCase s t := by
  obtain ⟨-, hm⟩ := step_next h
  cases hn : s.nextMove with
  | sequencer c => rw [hn] at hm; exact .sequencer c t hn (sequencerMove_cases hm)
  | client c => rw [hn] at hm; exact .client c t hn (clientMove_cases hm)
  | submit c q => rw [hn] at hm; cases hm; exact .submit c q hn
  | consume c => rw [hn] at hm; cases hm; exact .consume c hn
  | device r v => rw [hn] at hm; cases hm; exact .device r v hn
  | reset => rw [hn] at hm; cases hm; exact .reset hn

@[simp] theorem called_cfg : s.called.cfg = s.cfg := rfl
@[simp] theorem called_phase : s.called.phase = s.phase := rfl
@[simp] theorem called_owner : s.called.owner = s.owner := rfl
@[simp] theorem called_op : s.called.op = s.op := rfl
@[simp] theorem called_w : s.called.w = s.w := rfl
@[simp] theorem called_addr : s.called.addr = s.addr := rfl
@[simp] theorem called_wdata : s.called.wdata = s.wdata := rfl
@[simp] theorem called_idx : s.called.idx = s.idx := rfl
@[simp] theorem called_acc : s.called.acc = s.acc := rfl
@[simp] theorem called_attach : s.called.attach = s.attach := rfl
@[simp] theorem called_faultCode : s.called.faultCode = s.faultCode := rfl
@[simp] theorem called_faultClient : s.called.faultClient = s.faultClient := rfl
@[simp] theorem called_faultPaddr : s.called.faultPaddr = s.faultPaddr := rfl
@[simp] theorem called_faultIdx : s.called.faultIdx = s.faultIdx := rfl
@[simp] theorem called_faultDesc : s.called.faultDesc = s.faultDesc := rfl
@[simp] theorem called_clients : s.called.clients = s.clients := rfl
@[simp] theorem called_hist : s.called.hist = s.hist := rfl
@[simp] theorem called_cells : s.called.cells = s.cells := rfl
@[simp] theorem called_statusVal : s.called.statusVal = s.statusVal := rfl
@[simp] theorem called_device : s.called.device = s.device := rfl
@[simp] theorem called_grant : s.called.grant = s.grant := rfl

/-! ## Runs -/

@[simp] theorem after_zero : s.after 0 = .next s := rfl

theorem run_next (M : Host.Core) (k : Nat) (s u : M.State) (h : M.step s = .next u) : M.run (k + 1) s = M.run k u := by
  simp only [Host.Core.run, h]

theorem run_fault (M : Host.Core) (k : Nat) (s : M.State) (r : M.Fault) (h : M.step s = .fault r) :
    M.run (k + 1) s = .fault r := by
  simp only [Host.Core.run, h]

theorem run_refused (M : Host.Core) (k : Nat) (s : M.State) (r : M.Refusal) (h : M.step s = .refused r) :
    M.run (k + 1) s = .refused r := by
  simp only [Host.Core.run, h]

theorem after_succ {k : Nat} {u : State} (h : step s = .next u) : s.after (k + 1) = u.after k :=
  run_next Sys2Proof.core k s u h

theorem after_succ_fault {k : Nat} {r : Fault} (h : step s = .fault r) : s.after (k + 1) = .fault r :=
  run_fault Sys2Proof.core k s r h

theorem after_succ_refused {k : Nat} {r : Refusal} (h : step s = .refused r) : s.after (k + 1) = .refused r :=
  run_refused Sys2Proof.core k s r h

/-- A run of `j + k` steps is a run of `j` steps and then one of `k`. -/
theorem after_add {j k : Nat} {u : State} (h : s.after j = .next u) : s.after (j + k) = u.after k := by
  induction j generalizing s with
  | zero => simp only [after_zero, Host.Outcome.next.injEq] at h; subst h; simp
  | succ j ih =>
    cases hs : step s with
    | next s' =>
      rw [after_succ hs] at h
      rw [show j + 1 + k = (j + k) + 1 by omega, after_succ hs]
      exact ih h
    | fault r => rw [after_succ_fault hs] at h; cases h
    | refused r => rw [after_succ_refused hs] at h; cases h

end Sys2Proof.Machine
end

