-- ==== Sys2Proof/Laws/Ops.lean ====
section
/-! SUPPORT. Laws of the named operations: one lemma for each that says once what it does, for claims to cite. -/

namespace Sys2Proof.Machine

/-- Changing one entry of a list leaves the others. -/
theorem modify_ne {α : Type} (cs : List α) (f : α → α) {i c : Nat} (h : c ≠ i) : (cs.modify i f)[c]? = cs[c]? := by
  rw [List.getElem?_modify]
  cases cs[c]? <;> simp [Ne.symm h]

/-- Changing an entry that is there is replacing it. -/
theorem modify_eq_set {α : Type} (cs : List α) (i : Nat) (x : α) (f : α → α) (h : cs[i]? = some x) : cs.modify i f = cs.set i (f x) := by
  apply List.ext_getElem?
  intro j
  rw [List.getElem?_modify, List.getElem?_set]
  by_cases hj : i = j
  · subst hj
    obtain ⟨hl, he⟩ := List.getElem?_eq_some_iff.1 h
    simp [hl, he]
  · cases cs[j]? <;> simp [hj]

theorem request_some {s : State} {c : Nat} {q : Request} (h : s.request c = some q) :
    ∃ cl, s.clients[c]? = some cl ∧ cl.req = some q := by
  unfold State.request at h
  cases hc : s.clients[c]? with
  | none => simp [hc] at h
  | some cl => exact ⟨cl, rfl, by simpa [hc] using h⟩

theorem response_some {s : State} {c : Nat} {r : Response} (h : s.response c = some r) :
    ∃ cl, s.clients[c]? = some cl ∧ cl.rsp = some r := by
  unfold State.response at h
  cases hc : s.clients[c]? with
  | none => simp [hc] at h
  | some cl => exact ⟨cl, rfl, by simpa [hc] using h⟩

theorem request_modify (s : State) (c i : Nat) (f : Client → Client) :
    (s.modifyClient i f).request c = if c = i then ((s.clients[c]?).map f).bind Client.req else s.request c := by
  unfold State.request State.modifyClient
  by_cases h : c = i
  · subst h; rw [if_pos rfl]; simp
  · rw [if_neg h]; simp only [modify_ne _ _ h]

theorem response_modify (s : State) (c i : Nat) (f : Client → Client) :
    (s.modifyClient i f).response c = if c = i then ((s.clients[c]?).map f).bind Client.rsp else s.response c := by
  unfold State.response State.modifyClient
  by_cases h : c = i
  · subst h; rw [if_pos rfl]; simp
  · rw [if_neg h]; simp only [modify_ne _ _ h]

theorem request_congr {s t : State} (h : t.clients = s.clients) (c : Nat) : t.request c = s.request c := by
  unfold State.request; rw [h]

theorem response_congr {s t : State} (h : t.clients = s.clients) (c : Nat) : t.response c = s.response c := by
  unfold State.response; rw [h]

theorem clearReq_request (cs : List Client) (c : Nat) : (((cs.modify c Client.clearReq)[c]?).bind Client.req) = none := by
  rw [List.getElem?_modify]; cases cs[c]? <;> simp [Client.clearReq]

/-- An LDESC word is rejected iff one of its bits `RSV` or `OP[1]` is set (30 R84, R89). -/
theorem decodeLdesc_error_iff (d : Word) :
    (∃ e, decodeLdesc d = .error e) ↔ (d.extractLsb' 4 28 ≠ 0 ∨ d.getLsbD 1 = true) := by
  have hop : d.getLsbD 1 = (ldescOp d).getLsbD 1 := by simp [ldescOp]
  have hr : d.extractLsb' 4 28 = ldescRsv d := rfl
  rw [hop, hr]
  unfold decodeLdesc
  generalize ldescRsv d = r
  generalize ldescOp d = o
  by_cases h : r = 0
  · subst h
    simp only [ne_eq, not_true_eq_false, if_false, false_or]
    have : ∀ o : BitVec 2, o = 0#2 ∨ o = 1#2 ∨ o = 2#2 ∨ o = 3#2 := by decide
    rcases this o with rfl | rfl | rfl | rfl <;> simp
  · have h' : ¬ r = 0#28 := h
    simp [h']

/-- Every other LDESC word is the word of the operation and width its fields say (30 R81 to R83). -/
theorem decodeLdesc_ok_legal {d : Word} (h : ¬ (d.extractLsb' 4 28 ≠ 0 ∨ d.getLsbD 1 = true)) :
    d = ldescOf (if d.getLsbD 0 then .write else .read) (Width.ofCode (d.extractLsb' 2 2)) := by
  have hd := ldesc_fields d
  have hr : ldescRsv d = 0 := by by_contra hc; exact h (.inl hc)
  have ho : (ldescOp d).getLsbD 1 = false := by
    have : d.getLsbD 1 = (ldescOp d).getLsbD 1 := by simp [ldescOp]
    rw [← this]; by_contra hc; exact h (.inr (by simpa using hc))
  have h0 : d.getLsbD 0 = (ldescOp d).getLsbD 0 := by simp [ldescOp]
  rw [h0]
  change d = ldescOf _ (Width.ofCode (ldescWcode d))
  rw [hr] at hd
  generalize ldescWcode d = x at hd ⊢
  generalize ldescOp d = y at hd ho ⊢
  subst hd
  revert x y
  decide

/-- No slot is found iff no listed register has that slot. -/
theorem findSlot_none {regs : List RegDesc} {i s : Nat} : findSlot regs i s = none ↔
    ∀ reg ∈ regs, ¬ (reg.off / 4 ≤ s ∧ s < reg.off / 4 + reg.w.bytes) := by
  induction regs generalizing i with
  | nil => simp [findSlot]
  | cons x rest ih =>
    simp only [findSlot]
    split
    · next h => simp [h]
    · next h => rw [ih, List.forall_mem_cons]; exact ⟨fun hh => ⟨h, hh⟩, fun hh => hh.2⟩

/-- `truncTo` is the value mod `2^(8w)`. -/
theorem truncTo_eq (w : Width) (v : Value) : truncTo w v = BitVec.ofNat 64 (v.toNat % 2 ^ (8 * w.bytes)) := by
  apply BitVec.eq_of_toNat_eq
  simp only [truncTo, BitVec.toNat_setWidth, BitVec.toNat_ofNat]

theorem mergeStatus_length (regs : List RegDesc) (old new : List Value) : (mergeStatus regs old new).length = old.length := by
  induction regs generalizing old new with
  | nil => cases old <;> rfl
  | cons r rs ih => cases old with
    | nil => rfl
    | cons o os => simp [mergeStatus, ih]

/-- A device effect leaves STATUS values that fit (42 R155, R161). -/
theorem mergeStatus_fits (regs : List RegDesc) (old new : List Value) (h : ∀ (r : Nat) (reg : RegDesc), regs[r]? = some reg → truncTo reg.w (old.getD r 0) = old.getD r 0) :
    ∀ (r : Nat) (reg : RegDesc), regs[r]? = some reg → truncTo reg.w ((mergeStatus regs old new).getD r 0) = (mergeStatus regs old new).getD r 0 := by
  induction regs generalizing old new with
  | nil => simp
  | cons x rs ih => cases old with
    | nil => intro r reg _; simp [mergeStatus]
    | cons o os =>
      intro r reg hr
      cases r with
      | zero =>
        have h0 := h 0 reg hr
        simp at hr; subst hr
        simp only [mergeStatus, List.getD_cons_zero]
        cases x.kind
        · simpa using h0
        · simp
      | succ r =>
        simp only [mergeStatus, List.getD_cons_succ]
        refine ih os new.tail (fun r reg hr => ?_) r reg (by simpa using hr)
        have := h (r+1) reg (by simpa using hr)
        simpa using this

theorem drawStatus_length (regs : List RegDesc) (e : Env) : (drawStatus regs e).1.length = regs.length := by
  induction regs generalizing e with
  | nil => rfl
  | cons r rs ih => simp only [drawStatus]; cases r.kind <;> simp [ih]

theorem drawStatus_fits (regs : List RegDesc) (e : Env) : ∀ (r : Nat) (reg : RegDesc), regs[r]? = some reg →
    truncTo reg.w ((drawStatus regs e).1.getD r 0) = (drawStatus regs e).1.getD r 0 := by
  induction regs generalizing e with
  | nil => simp
  | cons x rs ih =>
    intro r reg hr
    simp only [drawStatus]
    cases r with
    | zero => simp at hr; subst hr; cases x.kind <;> simp
    | succ r => cases x.kind <;> (simp only [List.getD_cons_succ]; exact ih _ r reg (by simpa using hr))

theorem set_fits (l : List Value) (r : Nat) (w : Width) (v : Value) :
    truncTo w ((l.set r (truncTo w v)).getD r 0) = (l.set r (truncTo w v)).getD r 0 := by
  by_cases hlt : r < l.length
  · simp [List.getD_eq_getElem?_getD, hlt]
  · simp [List.getD_eq_getElem?_getD, hlt]

theorem cell_eq (s : State) (reg : RegDesc) (k : Nat) : s.cell reg k = Memory.get s.cfg s.cells (slotAddr s.cfg reg k) := rfl

/-- A write cycle that hits a STORAGE slot (42 R156). -/
theorem memWrite_storage {s : State} {a : Nat} {d : Word} {r k : Nat} {reg : RegDesc}
    (h : csrDecode s.cfg a = .hit r reg k) (hk : reg.kind = .storage) :
    s.memWrite a d = (s.setCell reg k (d.extractLsb' 0 8)).wrEffect reg.wrEffect r k (d.extractLsb' 0 8) := by
  unfold State.memWrite
  rw [h]
  simp only [hk]
  rfl

/-- A write cycle changes no cell but the one it stores to (42 R156, R157, R160). -/
theorem memWrite_get (s : State) (a : Nat) (d : Word) (x : Nat) (h : storedAddr s.cfg a ≠ some x) :
    Memory.get s.cfg (s.memWrite a d).cells x = Memory.get s.cfg s.cells x := by
  unfold State.memWrite
  unfold storedAddr at h
  split
  · next r reg k hd =>
    rw [hd] at h
    simp only at h
    split
    · next hk =>
      rw [if_pos hk] at h
      simp only [State.wrEffect_cells]
      exact Memory.get_set_ne _ (fun hx => h (by rw [hx]))
    · rfl
  · rfl
  · rfl

/-- A read cycle takes draws and never a scheduled move. -/
theorem memRead_agenda (s : State) (a : Nat) : (s.memRead a).2.env.agenda = s.env.agenda := by
  unfold State.memRead
  split
  · simp
  · simp [Env.draw]; split <;> rfl
  · simp [Env.draw]; split <;> rfl

/-- A read of a STORAGE word returns its byte (42 R158). -/
theorem memRead_storage {s : State} {a : Nat} (h : storageWord s.cfg a) (hw : s.cfg.WellFormed) (h4 : a % 4 = 0) : (s.memRead a).1 = byteWord (Memory.get s.cfg s.cells a) := by
  obtain ⟨r, reg, k, hd, hk⟩ := h
  unfold State.memRead
  rw [hd]; simp only [State.slotByte, hk, cell_eq]
  rw [slotAddr_of_hit hw hd h4]

/-- A STORAGE word is mapped (42 R152). -/
theorem storageWord_mapped {c : Config} (hc : c.WellFormed) {a : Nat} (h : storageWord c a) (h4 : a % 4 = 0) : a < addrSpace ∧ c.mapped a = true := by
  obtain ⟨r, reg, k, hd, hk⟩ := h
  obtain ⟨h1, h2, -⟩ := csrDecode_hit hd
  obtain ⟨-, -, hb, hsp, -, -, hle, hm⟩ := hc
  refine ⟨by omega, ?_⟩
  have := hm ((a - c.csrBase) / 4) (by omega)
  rw [show c.csrBase + 4 * ((a - c.csrBase) / 4) = a by omega] at this
  exact this

/-- The mapping test of a beat, in the terms of claims. -/
theorem beatOk_iff (s : State) : beatOk s.cfg s.addr s.idx.toNat ↔ s.beatMapped = true := by
  simp [beatOk, beatMapped_iff, State.beatAddr, stride]

/-- `IDX` counts a beat without wrapping (10 R27). -/
theorem idx_succ {idx : BitVec 4} {w : Width} (h : idx.toNat < w.bytes) : (idx + 1).toNat = idx.toNat + 1 := by
  have := w.bytes_le
  rw [BitVec.toNat_add]; show (idx.toNat + 1) % 16 = _; omega

/-- Everything the cycle of a read beat does (40 R104). -/
theorem readCycle_eq (s : State) (h : s.beatMapped = true) :
    s.readCycle = { (s.memRead s.beatAddr).2 with
      hist := s.hist ++ [⟨s.owner, .pread, BitVec.ofNat 32 s.beatAddr, (s.memRead s.beatAddr).1⟩]
      acc := s.acc ||| (((s.memRead s.beatAddr).1.extractLsb' 0 8).setWidth 64 <<< (8 * (s.w.bytes - 1 - s.idx.toNat)))
      idx := s.idx + 1 } := by
  have hadr := busCycle_adr (beatMapped_iff.1 h).1
  unfold State.readCycle
  simp only [hadr]
  unfold State.endBeat accumulate
  simp
  constructor <;> rfl

/-- Everything the cycle of a write beat does (40 R103). -/
theorem writeCycle_eq (s : State) (ho : s.op = .write) (h : s.beatMapped = true) :
    s.writeCycle = { s.memWrite s.beatAddr ((byteOf s.wdata (s.w.bytes - 1 - s.idx.toNat)).setWidth 32) with
      hist := s.hist ++ [⟨s.owner, .pwrite, BitVec.ofNat 32 s.beatAddr, (byteOf s.wdata (s.w.bytes - 1 - s.idx.toNat)).setWidth 32⟩]
      idx := s.idx + 1 } := by
  have hadr := busCycle_adr (beatMapped_iff.1 h).1
  unfold State.writeCycle
  simp only [hadr]
  have hd : s.busCycle.datW = (byteOf s.wdata (s.w.bytes - 1 - s.idx.toNat)).setWidth 32 := by
    simp [State.busCycle, ho]; rfl
  unfold State.endBeat
  rw [hd]
  simp
  rfl

theorem readCycle_idx (s : State) : s.readCycle.idx = s.idx + 1 := by simp [State.readCycle, State.endBeat]

theorem writeCycle_idx (s : State) : s.writeCycle.idx = s.idx + 1 := by simp [State.writeCycle, State.endBeat]

theorem readCycle_hist (s : State) (h : s.beatMapped = true) :
    s.readCycle.hist = s.hist ++ [⟨s.owner, .pread, BitVec.ofNat 32 s.beatAddr, (s.memRead s.beatAddr).1⟩] := by
  rw [readCycle_eq s h]

theorem writeCycle_hist (s : State) (ho : s.op = .write) (h : s.beatMapped = true) :
    s.writeCycle.hist = s.hist ++ [⟨s.owner, .pwrite, BitVec.ofNat 32 s.beatAddr, (byteOf s.wdata (s.w.bytes - 1 - s.idx.toNat)).setWidth 32⟩] := by
  rw [writeCycle_eq s ho h]

/-- Everything PREAD can do. -/
theorem pread_cases {s t : State} (h : exec .pread s = .next t) : t = s ∨ (s.cycleEnabled .read = true ∧ t = s.readCycle) := by
  change execPread s = .next t at h
  unfold execPread at h
  split at h
  · next hc => cases h; exact .inr ⟨hc, rfl⟩
  · cases h; exact .inl rfl

/-- Everything PWRITE can do. -/
theorem pwrite_cases {s t : State} (h : exec .pwrite s = .next t) : t = s ∨ (s.cycleEnabled .write = true ∧ t = s.writeCycle) := by
  change execPwrite s = .next t at h
  unfold execPwrite at h
  split at h
  · next hc => cases h; exact .inr ⟨hc, rfl⟩
  · cases h; exact .inl rfl

/-- Everything LREAD and LWRITE can do. -/
inductive LogicalCase (s : State) (op : Op) (w : Width) : State → Prop where
  | wait : LogicalCase s op w s
  | accept (q : Request) (hi : s.phase = .idle) (ha : s.admitted s.grant = true) (hq : s.request s.grant = some q) :
      LogicalCase s op w (s.accept op w q)
  | fault (hb : s.phase = .busy) (ho : s.op = op) (hl : s.beatsLeft = true) (hm : ¬ s.beatMapped = true) :
      LogicalCase s op w s.beatFault
  | read (hb : s.phase = .busy) (ho : s.op = op) (hr : op = .read) (hl : s.beatsLeft = true) (hm : s.beatMapped = true) :
      LogicalCase s op w s.readCycle
  | write (hb : s.phase = .busy) (ho : s.op = op) (hr : op = .write) (hl : s.beatsLeft = true) (hm : s.beatMapped = true) :
      LogicalCase s op w s.writeCycle
  | complete (r : Response) (hb : s.phase = .busy) (ho : s.op = op) (hi : s.idx.toNat = s.w.bytes) : LogicalCase s op w (s.complete r)

theorem logical_cases {s t : State} {op : Op} {w : Width}
    (h : exec (match op with | .read => .lread w | .write => .lwrite w) s = .next t) : LogicalCase s op w t := by
  cases op with
  | read =>
    change execLread w s = _ at h
    unfold execLread at h
    split at h
    · next he =>
      obtain ⟨h1, h2, -⟩ := acceptEnabled_iff.1 he
      split at h
      · next q hq => cases h; exact .accept q h1 h2 hq
      · cases h; exact .wait
    · split at h
      · next hr =>
        obtain ⟨h1, h2, h3⟩ := running_iff.1 hr
        split at h
        · next hl =>
          split at h
          · next hm => cases h; exact .read h1 h2 rfl hl hm
          · next hm => cases h; exact .fault h1 h2 hl hm
        · split at h
          · next hi => cases h; exact .complete _ h1 h2 (h3 ▸ hi)
          · cases h; exact .wait
      · cases h; exact .wait
  | write =>
    change execLwrite w s = _ at h
    unfold execLwrite at h
    split at h
    · next he =>
      obtain ⟨h1, h2, -⟩ := acceptEnabled_iff.1 he
      split at h
      · next q hq => cases h; exact .accept q h1 h2 hq
      · cases h; exact .wait
    · split at h
      · next hr =>
        obtain ⟨h1, h2, h3⟩ := running_iff.1 hr
        split at h
        · next hl =>
          split at h
          · next hm => cases h; exact .write h1 h2 rfl hl hm
          · next hm => cases h; exact .fault h1 h2 hl hm
        · split at h
          · next hi => cases h; exact .complete _ h1 h2 (h3 ▸ hi)
          · cases h; exact .wait
      · cases h; exact .wait

/-- The two ways acceptance of a legal LDESC goes (40 R100). -/
theorem accept_cases (s : State) (op : Op) (w : Width) (q : Request) :
    (q.addr.toNat % 4 = 0 ∧ s.accept op w q = { s.takeLock with op := op, w := w, addr := q.addr, wdata := q.wdata, idx := 0, acc := 0 }) ∨
    (q.addr.toNat % 4 ≠ 0 ∧ s.accept op w q = s.takeLock.raiseFault .misaligned s.grant (q.addr.setWidth 33) 0 q.desc) := by
  by_cases h : q.addr.toNat % 4 = 0
  · exact .inl ⟨h, accept_aligned h⟩
  · exact .inr ⟨h, accept_misaligned h⟩

/-- What acceptance of a legal LDESC leaves alone. -/
theorem accept_facts (s : State) (op : Op) (w : Width) (q : Request) :
    let t := s.accept op w q
    t.cfg = s.cfg ∧ t.attach = s.attach ∧ t.grant = s.grant ∧ t.clients = s.clients.modify s.grant Client.clearReq ∧
    t.hist = s.hist ∧ t.cells = s.cells ∧ t.statusVal = s.statusVal ∧ t.device = s.device ∧ t.env = s.env ∧ t.owner = s.grant ∧
    t.phase ≠ .idle ∧ (t.faultRecord = s.faultRecord ∨ t.phase = .faulted) := by
  rcases accept_cases s op w q with ⟨-, h⟩ | ⟨-, h⟩ <;> rw [h] <;>
    simp [State.takeLock, State.raiseFault, State.faultRecord] <;> rfl

theorem accept_request (s : State) (op : Op) (w : Width) (q : Request) (c : Nat) (hc : c ≠ s.grant) :
    (s.accept op w q).request c = s.request c := by
  have h4 := (accept_facts s op w q).2.2.2.1
  unfold State.request; rw [h4, modify_ne _ _ hc]

/-- Completion writes the response of an owner that exists (40 R105). -/
theorem complete_response (s : State) (r : Response) (h : s.owner < s.clients.length) :
    (s.complete r).response s.owner = some r := by
  simp [State.response, State.complete, State.modifyClient, Client.setRsp, h]

/-! ## The canonical form of the cells -/

/-- Every write cycle keeps the cells' canonical form. -/
theorem memWrite_wf {s : State} (hc : s.cfg.WellFormed) (h : Memory.wf s.cfg s.cells) (a : Nat) (d : Word) :
    Memory.wf s.cfg (s.memWrite a d).cells := by
  unfold State.memWrite
  split
  · next r reg k hd =>
    obtain ⟨-, -, hr, hk, -⟩ := csrDecode_hit hd
    split
    · next hs =>
      simp only [State.wrEffect_cells]
      exact Memory.wf_set h (isStorage_slotAddr hc hr hk hs) _
    · exact h
  · exact h
  · exact h

/-- Read cycles and device events do not touch the cells, and reset empties them: the canonical form stays. -/
theorem cells_wf_others {s : State} (h : Memory.wf s.cfg s.cells) (a r : Nat) (v : Value) :
    Memory.wf s.cfg (s.memRead a).2.cells ∧ Memory.wf s.cfg (s.deviceEvent r v).cells ∧
      Memory.wf s.cfg s.applyReset.cells := by
  refine ⟨by simpa using h, by simpa using h, Memory.wf_nil⟩

theorem reset_cells_wf : Memory.wf State.reset.cfg State.reset.cells := Memory.wf_nil

end Sys2Proof.Machine
end

