-- ==== Sys2Proof/Laws/Client.lean ====
section
/-! SUPPORT. Laws of client programs: what a statement does to its client, and the step of a client at a statement. -/

namespace Sys2Proof.Machine

/-- What a client statement does to the client's own slots, program and waiting (43 R181 to R186). -/
theorem runStmt_slots (cfg : Config) (p : Program) (st : Stmt) (cl : Client) :
    let cl' := Client.runStmt cfg p st cl
    (cl'.req = cl.req ∨ (cl.req = none ∧ cl.rsp = none ∧ cl.cstat = .run ∧ cl'.req.isSome = true ∧ cl'.cstat = .wait ∧ cl'.rsp = none)) ∧
    (cl'.rsp = cl.rsp ∨ (cl'.rsp = none ∧ cl.rsp.isSome = true ∧ cl.cstat = .wait ∧ cl'.cstat = .run ∧ cl'.req = cl.req)) ∧
    cl'.prog = cl.prog ∧
    (cl'.req = cl.req → cl'.rsp = cl.rsp → (cl'.cstat = .wait ↔ cl.cstat = .wait)) := by
  cases st with
  | lread w d a =>
    simp only [Client.runStmt, Client.runLread]
    cases hc : cl.cstat with
    | run => simp only; split
             · next h => simp [Client.issue, h]
             · simp [hc]
    | wait => simp only; split
              · next v hv => simp [Client.resume, Client.release, Client.goto, Client.setLocal, hv]
              · simp [hc]
    | done => simp [hc]
    | fatal n => simp [hc]
  | lwrite w a src =>
    simp only [Client.runStmt, Client.runLwrite]
    cases hc : cl.cstat with
    | run => simp only; split
             · next h => split
                         · simp [Client.issue, h]
                         · simp [Client.fail, hc]
             · simp [hc]
    | wait => simp only; split
              · next hv => simp [Client.resume, Client.release, Client.goto, hv]
              · simp [hc]
    | done => simp [hc]
    | fatal n => simp [hc]
  | assign d e =>
    simp only [Client.runStmt]; split
    · next hc => unfold Client.runAssign; split <;> simp [Client.goto, Client.setLocal, Client.fail, hc]
    · simp
  | beq k imm l =>
    simp only [Client.runStmt]; split
    · next hc => unfold Client.runBranch; split <;> simp [Client.goto, Client.fail, hc]
    · simp
  | bne k imm l =>
    simp only [Client.runStmt]; split
    · next hc => unfold Client.runBranch; split <;> simp [Client.goto, Client.fail, hc]
    · simp
  | jmp l =>
    simp only [Client.runStmt]; split
    · next hc => simp [Client.goto]
    · simp
  | fatal code =>
    simp only [Client.runStmt]; split
    · next hc => simp [Client.stop, hc]
    · simp
  | done =>
    simp only [Client.runStmt]; split
    · next hc => simp [Client.stop, hc]
    · simp

/-- A client statement keeps the locals in order. -/
theorem locals_run (cfg : Config) (p : Program) (st : Stmt) (cl : Client) (h : AssocSorted cl.locals) :
    AssocSorted (Client.runStmt cfg p st cl).locals := by
  cases st <;> simp only [Client.runStmt, Client.runLread, Client.runLwrite, Client.runAssign, Client.runBranch] <;>
    (repeat' split) <;> first | exact h | exact assocInsert_sorted h _ _

theorem attachEffect_not_selftest (s : State) (c : Nat) (st : Stmt) (h : s.attach ≠ .selftest) : s.attachEffect c st = s := by
  unfold State.attachEffect; rw [if_neg (fun hh => h hh.1)]

/-- A client statement leaves the codec alone or ends the self-test (43 R190). -/
theorem attachEffect_cases (s : State) (c : Nat) (st : Stmt) :
    s.attachEffect c st = s ∨ (s.attach = .selftest ∧ c = selftestClient ∧ (s.attachEffect c st = s.attachReady ∨ s.attachEffect c st = s.attachDead)) := by
  unfold State.attachEffect
  split
  · next h =>
    split
    · exact .inr ⟨h.1, h.2, .inl rfl⟩
    · split
      · exact .inr ⟨h.1, h.2, .inr rfl⟩
      · exact .inl rfl
    · exact .inl rfl
  · exact .inl rfl

theorem attachEffect_other (s : State) (c : Nat) (st : Stmt) (h1 : st ≠ .done) (h2 : ∀ n, st ≠ .fatal n) : s.attachEffect c st = s := by
  unfold State.attachEffect
  split
  · cases st <;> first | rfl | (exact absurd rfl h1) | (exact absurd rfl (h2 _))
  · rfl

theorem attachEffect_clients' (s : State) (c : Nat) (cl : Client) (st : Stmt) :
    (if cl.cstat = .run then s.attachEffect c st else s).clients = s.clients := by split <;> simp

theorem withClient_eq {s : State} {c : Nat} {cl : Client} {rest : List Move} (f : Client → Client) (h : s.clients[c]? = some cl) :
    State.modifyClient { s with env := { s.env with agenda := rest } } c f = s.withClient c (f cl) rest := by
  unfold State.modifyClient State.withClient
  rw [modify_eq_set _ _ _ _ h]

theorem withClient_same {s : State} {c : Nat} {cl : Client} {rest : List Move} (h : s.clients[c]? = some cl) :
    s.withClient c cl rest = { s with env := { s.env with agenda := rest } } := by
  unfold State.withClient
  rw [show s.clients.set c cl = s.clients from ?_]
  apply List.ext_getElem?
  intro j
  rw [List.getElem?_set]
  split
  · next hj => subst hj; obtain ⟨hl, he⟩ := List.getElem?_eq_some_iff.1 h; simp [hl, he]
  · rfl

/-- Everything the submission of a request can do (10 R26). -/
theorem submit_cases (s : State) (c : Nat) (q : Request) :
    s.submit c q = s ∨ (s.direct c = true ∧ s.request c = none ∧ s.response c = none ∧ s.inProgress c = false ∧
      s.submit c q = s.modifyClient c (Client.issue q)) := by
  unfold State.submit
  split
  · next h =>
    simp only [Bool.and_eq_true, Option.isNone_iff_eq_none, Bool.not_eq_true'] at h
    exact .inr ⟨h.1.1.1, h.1.1.2, h.1.2, h.2, rfl⟩
  · exact .inl rfl

/-- Everything the consumption of a response can do (10 R26). -/
theorem consume_cases (s : State) (c : Nat) :
    s.consume c = s ∨ (s.direct c = true ∧ (s.response c).isSome = true ∧ s.consume c = s.modifyClient c Client.release) := by
  unfold State.consume
  split
  · next h => exact .inr ⟨(Bool.and_eq_true_iff.1 h).1, (Bool.and_eq_true_iff.1 h).2, rfl⟩
  · exact .inl rfl

/-- The step of a client at a statement (43 R180, R181). -/
theorem step_atStmt {s : State} {c : Nat} {cl : Client} {p : Program} {st : Stmt} {rest : List Move}
    (h : s.AtStmt c cl p st rest) (hs : cl.cstat = .run ∨ cl.cstat = .wait) :
    step s = .next ((if cl.cstat = .run then ({ s with env := { s.env with agenda := rest } } : State).attachEffect c st
      else { s with env := { s.env with agenda := rest } }).modifyClient c (Client.runStmt s.cfg p st)) := by
  obtain ⟨hn, hc⟩ := nextMove_of_agenda h.agenda
  obtain ⟨labels, hl⟩ := h.stmt
  rw [step_eq h.cfg_wf, hn, hc]
  show State.clientMove _ c = _
  unfold State.clientMove
  have h1 : ({ s with env := { s.env with agenda := rest } } : State).clients[c]? = some cl := h.client
  rw [h1]
  have hst : cl.stopped = false := by
    unfold Client.stopped; rw [h.no_fault]; rcases hs with hs | hs <;> rw [hs] <;> rfl
  have hwf : Program.WellFormed p := h.prog_wf
  simp only [h.prog, hst, hl]
  rw [if_neg (not_not.2 hwf)]
  rfl

/-- The step of a client at a statement other than DONE and FATAL. -/
theorem step_local {s : State} {c : Nat} {cl : Client} {p : Program} {st : Stmt} {rest : List Move}
    (h : s.AtStmt c cl p st rest) (hs : cl.cstat = .run ∨ cl.cstat = .wait) (h1 : st ≠ .done) (h2 : ∀ n, st ≠ .fatal n) :
    step s = .next (s.withClient c (Client.runStmt s.cfg p st cl) rest) := by
  rw [step_atStmt h hs, attachEffect_other _ _ _ h1 h2]
  simp only [ite_self]
  rw [withClient_eq _ h.client]

/-- A label's targets are the statements it marks. -/
theorem mem_labelTargets {p : Program} {l : Label} {n : Nat} :
    n ∈ labelTargets p l ↔ ∃ tgt, p[n]? = some tgt ∧ l ∈ tgt.labels := by
  unfold labelTargets
  rw [List.mem_filter, List.mem_range]
  cases h : p[n]? with
  | none => simp
  | some tgt =>
    have hn := (List.getElem?_eq_some_iff.1 h).1
    simp [hn]

/-- A branch goes to one of its label's targets. -/
theorem labelIndex_mem {p : Program} (pc : Nat) {l : Label} (h : labelTargets p l ≠ []) : labelIndex p pc l ∈ labelTargets p l := by
  unfold labelIndex
  split
  · next n hn => rw [hn]; exact List.mem_singleton_self n
  · have hl := List.length_pos_iff.2 h
    rw [List.getD_eq_getElem?_getD, List.getElem?_eq_getElem (Nat.mod_lt _ hl)]
    exact List.getElem_mem _

/-- A label a well-formed program uses marks a statement of it, and a branch goes to such a one (43 R180, R185). -/
theorem label_found {p : Program} (hw : Program.WellFormed p) {ln : Line} (hl : ln ∈ p) {l : Label} (hu : l ∈ ln.stmt.uses)
    (pc : Nat) : ∃ tgt, p[labelIndex p pc l]? = some tgt ∧ l ∈ tgt.labels := by
  have hd := hw.1 ln hl l hu
  simp only [Program.labels, List.mem_flatMap] at hd
  obtain ⟨tgt, ht, hlt⟩ := hd
  obtain ⟨n, hn⟩ := List.mem_iff_getElem?.1 ht
  exact mem_labelTargets.1 (labelIndex_mem pc (List.ne_nil_of_mem (mem_labelTargets.2 ⟨tgt, hn, hlt⟩)))

end Sys2Proof.Machine
end

