-- ==== Sys2Proof/Laws/PerInstr.lean ====
section
/-! SUPPORT. Laws stated of every instruction as syntax, one lemma a constructor. -/

namespace Sys2Proof.Laws.LegalEncoding

open Sys2Proof Sys2Proof.Machine

/-- The encoding of an instruction is a legal word of its format (30 R84, R87), and read as a row of the opcode table it is that
instruction again. -/
def Statement (i : Instr) : Prop :=
  match encode i with
  | .ldesc d => d.extractLsb' 4 28 = 0 ∧ d.getLsbD 1 = false ∧ decodeTableWord 32 d.toNat = some i
  | .cmd c => c.extractLsb' 0 4 = 0b1111#4 ∧ decodeTableWord 8 c.toNat = some i

theorem lread (w : Width) : Statement (.lread w) := by cases w <;> simp only [Statement, encode] <;> decide

theorem lwrite (w : Width) : Statement (.lwrite w) := by cases w <;> simp only [Statement, encode] <;> decide

theorem pread : Statement .pread := by simp only [Statement, encode]; decide

theorem pwrite : Statement .pwrite := by simp only [Statement, encode]; decide

end Sys2Proof.Laws.LegalEncoding
end

