-- ==== Sys2Proof/Tests/Slice0.lean ====
section
/-! SUPPORT. Tests of the model from the spec's own vectors (95_test_vectors.md), the checks of WellFormed on ill-formed terms, and a
witness for the hypotheses of every obligation that has some. -/

namespace Sys2Proof.Tests

open Sys2Proof Sys2Proof.Machine

/-! ## Small states -/

/-- The example configuration after reset, with given programs, moves and draws; STATUS EVT reads 0x7E and CNT 0x01FF. -/
def start (progs : List (Option Program)) (ms : List Move) (ds : List Value) : State :=
  State.resetWith Config.specExample progs 0 ⟨ms, 0x7E :: 0x1FF :: ds, 0⟩

/-- After the self-test, with clients that act on their slots directly. -/
def ready (ms : List Move) : State := { start [none, none, none] ms [] with attach := .ready, grant := 1 }

/-- `ready` with the request `q` in `REQ[1]`. -/
def offer (ms : List Move) (q : Request) : State := (ready ms).modifyClient 1 (Client.issue q)

/-- Client 1's access in progress with `idx` beats done. -/
def busy (ms : List Move) (op : Op) (w : Width) (addr : Addr) (wdata : Value) (idx : BitVec 4) : State :=
  { (ready ms).modifyClient 1 (fun cl => { cl with cstat := .wait }) with
    phase := .busy, owner := 1, op := op, w := w, addr := addr, wdata := wdata, idx := idx }

/-- Stopped by client 1's fault V36, with client 2's request waiting. -/
def faulted (ms : List Move) : State :=
  { (busy ms .read .w4 0x2000 0 0).modifyClient 2 (Client.issue ⟨0, 0x1050, 0⟩) with
    phase := .faulted, faultCode := .unmapped, faultClient := 1, faultPaddr := 0x2000, faultDesc := 8 }

/-- After a failed self-test, with client 1's request of V82 waiting. -/
def dead (ms : List Move) : State :=
  { offer ms ⟨0, 0x1050, 0⟩ with attach := .dead, faultCode := .selftestMismatch }

/-- Client 1, which has no program, has a response to consume. -/
def answered (ms : List Move) : State :=
  (ready ms).modifyClient 1 fun cl => { cl with rsp := some .writeDone, cstat := .wait }

/-- Client 1 runs the program `p` from statement `pc` with the locals `ls`. -/
def running (ms : List Move) (p : Program) (pc : Nat) (ls : List (Nat × Value)) : State :=
  (ready ms).modifyClient 1 fun cl => { cl with prog := some p, pc := pc, locals := ls }

/-- The client `running` makes. -/
def runner (p : Program) (pc : Nat) (ls : List (Nat × Value)) : Client := ⟨none, none, some p, pc, ls, .run, none⟩

/-- The outcome is a next state with the property. -/
def onNext (o : Host.Outcome State Fault Refusal) (p : State → Bool) : Bool :=
  match o with
  | .next t => p t
  | _ => false

theorem exists_next {o : Host.Outcome State Fault Refusal} {p : State → Bool} (h : onNext o p = true) :
    ∃ t, o = .next t ∧ p t = true := by
  cases o with
  | next t => exact ⟨t, rfl, h⟩
  | fault r => cases h
  | refused r => cases h

theorem ok {c : Config} {a : Addr} {i : Nat} (h : a.toNat + 4 * i < addrSpace ∧ c.mapped (a.toNat + 4 * i) = true) :
    beatOk c a i := h

theorem not_ok {c : Config} {a : Addr} {i : Nat} (h : ¬ (a.toNat + 4 * i < addrSpace ∧ c.mapped (a.toNat + 4 * i) = true)) :
    ¬ beatOk c a i := h

/-! ## Decoding: words written out from the spec's encodings (30 R81 to R84, R87; 95 L2) -/

theorem test_decode_lread_w1 : decode (.ldesc 0b00000000000000000000000000000000#32) = .ok (.lread .w1) := by decide
theorem test_decode_lread_w8 : decode (.ldesc 0b00000000000000000000000000001100#32) = .ok (.lread .w8) := by decide
theorem test_decode_lwrite_w2 : decode (.ldesc 0b00000000000000000000000000000101#32) = .ok (.lwrite .w2) := by decide
theorem test_decode_lwrite_w4 : decode (.ldesc 0b00000000000000000000000000001001#32) = .ok (.lwrite .w4) := by decide
theorem test_decode_pread : decode (.cmd 0b01111#5) = .ok .pread := by decide
theorem test_decode_pwrite : decode (.cmd 0b11111#5) = .ok .pwrite := by decide
theorem test_decode_reserved_op : decode (.ldesc 0x0000000A#32) = .error .reservedOp := by decide
theorem test_decode_reserved_bit4 : decode (.ldesc 0x00000010#32) = .error .reservedBits := by decide
theorem test_decode_reserved_bit31 : decode (.ldesc 0x80000009#32) = .error .reservedBits := by decide
theorem test_decode_partial_lanes : decode (.cmd 0b10001#5) = .error .illegalCmd := by decide
theorem test_table_words : decodeTableWord 32 0xD = some (.lwrite .w8) ∧ decodeTableWord 8 0x1F = some .pwrite := by decide

/-- `withFetchWord` places a word so that the very next step runs it. -/
theorem test_withFetchWord :
    onNext (step (State.reset.withFetchWord 32 0x9)) (fun t => decide (t.phase = .busy ∧ t.op = .write ∧ t.w = .w4)) = true ∧
    onNext (step (State.reset.withFetchWord 8 0x0F)) (fun t => decide (t.idx = 1 ∧ t.hist.length = 1)) = true := by decide

/-! ## WellFormed refuses an ill-formed term at each check -/

theorem smoke_request : Request.WellFormed ⟨0x9, 0x1004, 0⟩ ∧ ¬ Request.WellFormed ⟨0x10, 0x1004, 0⟩ ∧
    ¬ Request.WellFormed ⟨0x2, 0x1004, 0⟩ ∧ ¬ Request.WellFormed ⟨0x9, 0x1006, 0⟩ := by decide

theorem smoke_busCycle : BusCycle.WellFormed ⟨0b11111, 0x1004, 0xFF⟩ ∧ ¬ BusCycle.WellFormed ⟨0b11110, 0x1004, 0xFF⟩ ∧
    ¬ BusCycle.WellFormed ⟨0b11111, 0x1005, 0xFF⟩ ∧ ¬ BusCycle.WellFormed ⟨0b11111, 0x1004, 0x100⟩ ∧
    ¬ BusCycle.WellFormed ⟨0b01111, 0x1004, 1⟩ := by decide

theorem smoke_config : Config.specExample.WellFormed := by decide

/-- V62: a register that ends after `CSR_SPAN`. -/
theorem smoke_config_v62 :
    ¬ Config.WellFormed { Config.specExample with regs := Config.exampleRegs ++ [⟨"X", 0xFC, .w2, .storage, 0, .identity, .identity⟩] } := by
  decide

/-- V63: a register whose slot another register has. -/
theorem smoke_config_v63 :
    ¬ Config.WellFormed { Config.specExample with regs := Config.exampleRegs ++ [⟨"Y", 0x30, .w1, .storage, 0, .identity, .identity⟩] } := by
  decide

theorem smoke_config_clients : ¬ Config.WellFormed { Config.specExample with nClients := 0 } := by decide
theorem smoke_config_test : ¬ Config.WellFormed { Config.specExample with test := 0x12345678 } := by decide
theorem smoke_config_base : ¬ Config.WellFormed { Config.specExample with csrBase := 0x1002 } := by decide
theorem smoke_config_span : ¬ Config.WellFormed { Config.specExample with csrSpan := 0xFE } := by decide
theorem smoke_config_off :
    ¬ Config.WellFormed { Config.specExample with regs := [⟨"Z", 0x06, .w1, .storage, 0, .identity, .identity⟩] } := by decide
theorem smoke_config_top : ¬ Config.WellFormed { Config.specExample with csrBase := 0xFFFFFFFC } := by decide
theorem smoke_config_mapped : ¬ Config.WellFormed { Config.specExample with mappedBlocks := [⟨0x1000, 0xFC⟩] } := by decide

/-- The self-test program is well formed (43 R189). -/
theorem smoke_program : Program.WellFormed (selfTestProgram Config.specExample) := by decide
theorem smoke_program_label : ¬ Program.WellFormed [⟨[], .jmp 1⟩] := by decide
theorem smoke_program_last : ¬ Program.WellFormed [⟨[], .assign 0 (.imm 1)⟩] := by decide

/-- What 43 R180 does not exclude is well formed: a label defined twice, an address beyond 32 bits, a slice outside its operand. -/
theorem test_program_wf : Program.WellFormed [⟨[7], .done⟩, ⟨[7], .lread .w1 0 (.base .csr 0xFFFFFFFF)⟩,
    ⟨[], .assign 0 (.slice (.imm 0) 64 0)⟩, ⟨[], .assign 0 (.zext 32 (.imm 0))⟩, ⟨[], .jmp 7⟩] := by decide

/-- And it runs: such an access is issued (43 R182), such an assignment completes (43 R184). -/
theorem test_program_runs :
    onNext (step (running [.client 1] [⟨[7], .done⟩, ⟨[7], .lread .w1 0 (.base .csr 0xFFFFFFFF)⟩, ⟨[], .done⟩] 1 []))
      (fun t => decide ((t.clients[1]?).map Client.cstat = some .wait)) = true ∧
    onNext (step (running [.client 1] [⟨[], .assign 0 (.slice (.imm 0) 64 0)⟩, ⟨[], .done⟩] 0 []))
      (fun t => decide ((t.clients[1]?).map Client.pc = some 1)) = true := by decide

/-! ## One step of each instruction, from the spec's vectors -/

/-- V4, beat 0: LWRITE.2 of 0x12345 drives 0x23 first; bits 63:16 are ignored. -/
theorem test_lwrite_v4 : onNext (exec (.lwrite .w2) (busy [] .write .w2 0x1020 0x12345 0)) (fun t =>
    decide (t.hist = [⟨1, .pwrite, 0x1020, 0x23⟩] ∧ t.idx = 1)) = true := by decide

/-- V35: LREAD.4 at 0x2002, not mapped, faults MISALIGNED at acceptance. -/
theorem test_lread_v35 : onNext (exec (.lread .w4) (offer [] ⟨0x8, 0x2002, 0⟩)) (fun t =>
    decide (t.faultRecord = (.misaligned, 1, 0x2002, 0, 0x8) ∧ t.hist = [])) = true := by decide

/-- V23, beat 1: bits 31:8 of `DAT_R` are ignored; the device is a HOLE that answers 0x55555534. -/
theorem test_lread_v23 : onNext (exec (.lread .w4)
      { busy [] .read .w4 0x1080 0 1 with acc := 0x12000000, env := ⟨[], [0x55555534], 0⟩ }) (fun t =>
    decide (t.acc = 0x12340000)) = true := by decide

/-- V39, beat 2 of LWRITE.8 at 0xFFFFFFF8: the address does not wrap, and `FAULT_PADDR` holds 33 bits. -/
theorem test_lwrite_v39 : onNext (exec (.lwrite .w8) (busy [] .write .w8 0xFFFFFFF8 0x1122334455667788 2)) (fun t =>
    decide (t.faultRecord = (.unmapped, 1, 0x100000000, 2, 0xD))) = true := by decide

/-- V58: after reset a PREAD of 0x1008 returns 0x34. -/
theorem test_pread_v58 : onNext (exec .pread (busy [] .read .w1 0x1008 0 0)) (fun t =>
    decide (t.hist = [⟨1, .pread, 0x1008, 0x34⟩])) = true := by decide

/-- V70, beat 0: a PREAD samples the most significant byte of CNT. -/
theorem test_pread_v70 : onNext (exec .pread (busy [] .read .w2 0x1060 0 0)) (fun t =>
    decide (t.hist = [⟨1, .pread, 0x1060, 0x01⟩] ∧ t.acc = 0x100)) = true := by decide

/-- V59: a PWRITE of 0x5A to 0x1008 makes SCRATCH 0x125A5678. -/
theorem test_pwrite_v59 : onNext (exec .pwrite (busy [] .write .w1 0x1008 0x5A 0)) (fun t =>
    decide ((t.cfg.regs[0]?).map t.storeVal = some 0x125A5678)) = true := by decide

/-- V60: a PWRITE to a STATUS register changes no cell and no status. -/
theorem test_pwrite_v60 : onNext (exec .pwrite (busy [] .write .w1 0x1050 0x01 0)) (fun t =>
    decide (t.cells = [] ∧ t.status 3 = 0x7E)) = true := by decide

/-- V50 to V57: the address decoder. -/
theorem test_decoder : csrDecode Config.specExample 0x0FFC = .notMine ∧ csrDecode Config.specExample 0x1000 = .hole ∧
    (∃ reg, csrDecode Config.specExample 0x1004 = .hit 0 reg 0) ∧ (∃ reg, csrDecode Config.specExample 0x1010 = .hit 0 reg 3) ∧
    csrDecode Config.specExample 0x1014 = .hole ∧ (∃ reg, csrDecode Config.specExample 0x103C = .hit 1 reg 7) ∧
    (∃ reg, csrDecode Config.specExample 0x10FC = .hit 5 reg 1) ∧ csrDecode Config.specExample 0x1100 = .notMine :=
  ⟨by decide, by decide, ⟨_, rfl⟩, ⟨_, rfl⟩, by decide, ⟨_, rfl⟩, ⟨_, rfl⟩, by decide⟩

/-- P1, statement 0: the request of the self-test's first access. -/
theorem test_selftest_request : onNext (step (start [some (selfTestProgram Config.specExample), none, none] [.client 0] []))
    (fun t => decide (t.request 0 = some ⟨0x00000008, 0x1004, 0⟩)) = true := by decide

/-- V82: a dead codec accepts nothing. -/
theorem test_dead : onNext (step (dead [.sequencer 1])) (fun t => decide (t.phase = .idle ∧ t.request 1 = some ⟨0, 0x1050, 0⟩)) = true := by
  decide

/-! ## The invariant of a concrete state -/

theorem forall_getElem? {α : Type} {l : List α} {P : Nat → α → Prop} (h : ∀ i : Fin l.length, P i l[i]) :
    ∀ (r : Nat) (x : α), l[r]? = some x → P r x := by
  intro r x hx
  obtain ⟨hr, rfl⟩ := List.getElem?_eq_some_iff.1 hx
  exact h ⟨r, hr⟩

/-- What can be evaluated of the invariant, for a state with an empty accumulator. -/
abbrev Checked (s : State) : Prop :=
  s.clients.length = s.cfg.nClients ∧ Memory.wf s.cfg s.cells ∧ s.statusVal.length = s.cfg.regs.length ∧
  (∀ i : Fin s.cfg.regs.length, truncTo s.cfg.regs[i].w (s.status i) = s.status i) ∧
  (s.phase ≠ .idle → s.owner < s.cfg.nClients) ∧ (s.phase = .busy → s.idx.toNat ≤ s.w.bytes) ∧
  (s.phase = .busy → s.addr.toNat % stride = 0) ∧ s.acc = 0 ∧
  (s.attach = .selftest → s.phase ≠ .idle → s.owner = selftestClient) ∧ (s.attach = .dead → s.phase = .idle) ∧
  (s.phase = .faulted ↔ s.faultCode.ofSequencer = true) ∧ (s.attach = .dead ↔ s.faultCode = .selftestMismatch) ∧
  (s.phase = .faulted → s.faultClient = s.owner) ∧
  (∀ i : Fin s.clients.length,
    (s.clients[i].req.isSome = true → s.clients[i].rsp = none ∧ s.inProgress i = false) ∧
    (s.clients[i].rsp.isSome = true → s.inProgress i = false)) ∧
  (∀ i : Fin s.clients.length,
    (s.clients[i].cstat = .wait ↔ s.clients[i].req.isSome = true ∨ s.clients[i].rsp.isSome = true ∨ s.inProgress i = true)) ∧
  s.hist = [] ∧ (∀ cl ∈ s.clients, AssocSorted cl.locals)

theorem inv_of_checked {s : State} (hc : s.cfg.WellFormed) (h : Checked s) : s.Inv := by
  obtain ⟨h1, h2, h3, h4, h5, h6, h7, h8, h9, h10, h11, h12, h13, h14, h15, h16, h17⟩ := h
  exact ⟨hc, h1, h2, h3, forall_getElem? h4, h5, h6, h7, fun _ _ j _ => (by rw [h8]; simp), h9, h10, h11, h12, h13,
    forall_getElem? h14, forall_getElem? h15, fun e he => (by rw [h16] at he; cases he), h17⟩

theorem example_wf : Config.specExample.WellFormed := by decide

theorem busy_inv_read : (busy [.sequencer 1] .read .w4 0x1004 0 3).Inv := inv_of_checked example_wf (by decide)
theorem busy_inv_done : (busy [.sequencer 1] .read .w8 0x1020 0 8).Inv := inv_of_checked example_wf (by decide)
theorem offer_inv (op : Op) : (offer [] ⟨ldescOf op .w8, 0x1020, 0x0102030405060708⟩).Inv := by
  cases op <;> exact inv_of_checked example_wf (by decide)
theorem faulted_inv : (faulted [.sequencer 2]).Inv := inv_of_checked example_wf (by decide)
theorem dead_inv : (dead [.sequencer 1]).Inv := inv_of_checked example_wf (by decide)

/-! ## Witnesses: a state and operands that meet every hypothesis of a statement, clause by clause -/

/-- The last word of the map has its clause's hypothesis. -/
theorem witness_OpcodeMapMatchMask : decode (.ldesc 0x0000000C#32) = .ok (.lread .w8) ∧
    decode (.ldesc 0x0000000D#32) = .ok (.lwrite .w8) := by decide

theorem witness_StepRunsRequest : ∃ (s : State) (q : Request), s.cfg.WellFormed ∧ s.env.agenda = [.sequencer 1] ∧ s.Offers 1 q ∧
    decode (.ldesc q.desc) = .ok (.lwrite .w8) :=
  ⟨offer [.sequencer 1] ⟨0xD, 0x1020, 7⟩, ⟨0xD, 0x1020, 7⟩, example_wf, rfl, ⟨rfl, by decide, by decide⟩, by decide⟩

/-- The last beat of either kind. -/
theorem witness_StepRunsBusCycle (op : Op) : ∃ s : State, s.cfg.WellFormed ∧ s.env.agenda = [.sequencer 1] ∧ s.phase = .busy ∧
    s.op = op ∧ s.idx.toNat < s.w.bytes ∧ beatOk s.cfg s.addr s.idx.toNat :=
  ⟨busy [.sequencer 1] op .w2 0x10F8 0 1, example_wf, rfl, rfl, rfl, by cases op <;> decide, ok (by cases op <;> decide)⟩

/-- Completion, and the first beat beyond the mapped range. -/
theorem witness_StepRunsLogicalOperation (op : Op) :
    (∃ s : State, s.cfg.WellFormed ∧ s.env.agenda = [.sequencer 1] ∧ s.phase = .busy ∧ s.op = op ∧ s.w.bytes ≤ s.idx.toNat) ∧
    (∃ s : State, s.cfg.WellFormed ∧ s.env.agenda = [.sequencer 1] ∧ s.phase = .busy ∧ s.op = op ∧
      ¬ beatOk s.cfg s.addr s.idx.toNat) :=
  ⟨⟨busy [.sequencer 1] op .w8 0x1020 0 8, example_wf, rfl, rfl, rfl, by cases op <;> decide⟩,
   ⟨busy [.sequencer 1] op .w4 0x10FC 0 1, example_wf, rfl, rfl, rfl, not_ok (by cases op <;> decide)⟩⟩

/-- An admitted request that is legal, one that is misaligned, one that is reserved; a client that is not admitted, and one with
an empty slot. -/
theorem witness_AcceptanceRule :
    (∃ (s : State) (q : Request), s.cfg.WellFormed ∧ s.env.agenda = [.sequencer 1] ∧ s.phase = .idle ∧ s.admitted 1 = true ∧
      s.request 1 = some q ∧ q.desc.extractLsb' 4 28 = 0 ∧ q.desc.getLsbD 1 = false ∧ q.addr.toNat % 4 = 0) ∧
    (∃ (s : State) (q : Request), s.cfg.WellFormed ∧ s.env.agenda = [.sequencer 1] ∧ s.phase = .idle ∧ s.admitted 1 = true ∧
      s.request 1 = some q ∧ q.desc.extractLsb' 4 28 = 0 ∧ q.desc.getLsbD 1 = false ∧ q.addr.toNat % 4 ≠ 0) ∧
    (∃ (s : State) (q : Request), s.cfg.WellFormed ∧ s.env.agenda = [.sequencer 1] ∧ s.phase = .idle ∧ s.admitted 1 = true ∧
      s.request 1 = some q ∧ q.desc.extractLsb' 4 28 ≠ 0) ∧
    (∃ s : State, s.cfg.WellFormed ∧ s.env.agenda = [.sequencer 1] ∧ s.phase = .idle ∧ s.admitted 1 = false) ∧
    (∃ s : State, s.cfg.WellFormed ∧ s.env.agenda = [.sequencer 1] ∧ s.phase = .idle ∧ s.request 1 = none) :=
  ⟨⟨offer [.sequencer 1] ⟨0x9, 0x1020, 7⟩, ⟨0x9, 0x1020, 7⟩, example_wf, rfl, rfl, by decide, by decide, by decide, by decide, by decide⟩,
   ⟨offer [.sequencer 1] ⟨0x8, 0x1006, 7⟩, ⟨0x8, 0x1006, 7⟩, example_wf, rfl, rfl, by decide, by decide, by decide, by decide, by decide⟩,
   ⟨offer [.sequencer 1] ⟨0x10, 0x1020, 7⟩, ⟨0x10, 0x1020, 7⟩, example_wf, rfl, rfl, by decide, by decide, by decide⟩,
   ⟨dead [.sequencer 1], example_wf, rfl, rfl, by decide⟩, ⟨ready [.sequencer 1], example_wf, rfl, rfl, by decide⟩⟩

theorem witness_LreadAcceptance : ∃ (s : State) (q : Request), s.Offers s.grant q ∧ q.addr.toNat % 4 = 0 :=
  ⟨offer [] ⟨0x8, 0x1004, 0⟩, ⟨0x8, 0x1004, 0⟩, ⟨rfl, by decide, by decide⟩, by decide⟩

theorem witness_LwriteAcceptance : ∃ (s : State) (q : Request), s.Offers s.grant q ∧ q.addr.toNat % 4 = 0 :=
  ⟨offer [] ⟨0x9, 0xFFFFFFFC, 5⟩, ⟨0x9, 0xFFFFFFFC, 5⟩, ⟨rfl, by decide, by decide⟩, by decide⟩

theorem witness_MisalignedFaults : ∃ (s : State) (q : Request), s.Offers s.grant q ∧ q.addr.extractLsb' 0 2 ≠ 0 :=
  ⟨offer [] ⟨0x8, 0x1007, 0⟩, ⟨0x8, 0x1007, 0⟩, ⟨rfl, by decide, by decide⟩, by decide⟩

/-- V30 and V32, each way a word is reserved. -/
theorem witness_ReservedEncodingFaults :
    (∃ (s : State) (q : Request), s.cfg.WellFormed ∧ s.env.agenda = [.sequencer 1] ∧ s.Offers 1 q ∧ q.desc.getLsbD 1 = true) ∧
    (∃ (s : State) (q : Request), s.cfg.WellFormed ∧ s.env.agenda = [.sequencer 1] ∧ s.Offers 1 q ∧ q.desc.extractLsb' 4 28 ≠ 0) :=
  ⟨⟨offer [.sequencer 1] ⟨0x2, 0x1006, 0⟩, ⟨0x2, 0x1006, 0⟩, example_wf, rfl, ⟨rfl, by decide, by decide⟩, by decide⟩,
   ⟨offer [.sequencer 1] ⟨0x10, 0x1020, 0⟩, ⟨0x10, 0x1020, 0⟩, example_wf, rfl, ⟨rfl, by decide, by decide⟩, by decide⟩⟩

/-- The last beat: beyond the mapped range (V37) and inside it. -/
theorem witness_ReadBeatRule :
    (∃ s : State, s.phase = .busy ∧ s.op = .read ∧ s.idx.toNat < s.w.bytes ∧ ¬ beatOk s.cfg s.addr s.idx.toNat) ∧
    (∃ s : State, s.phase = .busy ∧ s.op = .read ∧ s.idx.toNat < s.w.bytes ∧ beatOk s.cfg s.addr s.idx.toNat) :=
  ⟨⟨busy [] .read .w2 0x10FC 0 1, rfl, rfl, by decide, not_ok (by decide)⟩,
   ⟨busy [] .read .w2 0x10F8 0 1, rfl, rfl, by decide, ok (by decide)⟩⟩

/-- The last beat: beyond 2^32 (V39) and inside the mapped range. -/
theorem witness_WriteBeatRule :
    (∃ s : State, s.phase = .busy ∧ s.op = .write ∧ s.idx.toNat < s.w.bytes ∧ ¬ beatOk s.cfg s.addr s.idx.toNat) ∧
    (∃ s : State, s.phase = .busy ∧ s.op = .write ∧ s.idx.toNat < s.w.bytes ∧ beatOk s.cfg s.addr s.idx.toNat) :=
  ⟨⟨busy [] .write .w2 0xFFFFFFFC 0 1, rfl, rfl, by decide, not_ok (by decide)⟩,
   ⟨busy [] .write .w8 0x1020 0xFF 7, rfl, rfl, by decide, ok (by decide)⟩⟩

theorem witness_PreadIssuesOneCycle : ∃ s : State, s.phase = .busy ∧ s.op = .read ∧ s.idx.toNat < s.w.bytes ∧
    beatOk s.cfg s.addr s.idx.toNat :=
  ⟨busy [] .read .w8 0x1020 0 7, rfl, rfl, by decide, ok (by decide)⟩

theorem witness_PwriteIssuesOneCycle : ∃ s : State, s.phase = .busy ∧ s.op = .write ∧ s.idx.toNat < s.w.bytes ∧
    beatOk s.cfg s.addr s.idx.toNat :=
  ⟨busy [] .write .w1 0x1050 0x7E 0, rfl, rfl, by decide, ok (by decide)⟩

theorem witness_CompletionRule (op : Op) : ∃ s : State, s.Inv ∧ s.phase = .busy ∧ s.idx.toNat = s.w.bytes ∧ s.op = op :=
  ⟨busy [] op .w8 0x1020 0 8, by cases op <;> exact inv_of_checked example_wf (by decide), rfl, by cases op <;> decide, rfl⟩

/-- An idle state issues no cycle, a fault beat issues none, and a client that is not admitted is not accepted. -/
theorem witness_StepsNotEnabledChangeNothing :
    (∃ s : State, ¬ (s.phase = .busy ∧ s.op = .read ∧ s.idx.toNat < s.w.bytes ∧ beatOk s.cfg s.addr s.idx.toNat)) ∧
    (∃ s : State, ¬ (s.phase = .busy ∧ s.op = .write ∧ s.idx.toNat < s.w.bytes ∧ beatOk s.cfg s.addr s.idx.toNat)) ∧
    (∃ s : State, s.phase = .idle ∧ s.admitted s.grant = false) ∧
    (∃ s : State, s.phase = .busy ∧ s.op ≠ .write ∧ s.op = .read ∧ s.w ≠ .w1) :=
  ⟨⟨ready [], fun h => (by cases h.1)⟩, ⟨busy [] .write .w4 0x10FC 0 1, fun h => absurd h.2.2.2 (not_ok (by decide))⟩,
   ⟨dead [], rfl, by decide⟩, ⟨busy [] .read .w4 0x1004 0 0, rfl, by decide, rfl, by decide⟩⟩

theorem witness_DrivenCyclesAreWellFormed : ∃ s : State, s.Inv ∧ s.phase = .busy ∧ s.idx.toNat < s.w.bytes ∧
    beatOk s.cfg s.addr s.idx.toNat :=
  ⟨_, busy_inv_read, rfl, by decide, ok (by decide)⟩

theorem witness_ReadResponseIsZeroExtended : ∃ s : State, s.Inv ∧ s.phase = .busy ∧ s.op = .read ∧ s.idx.toNat = s.w.bytes :=
  ⟨_, busy_inv_done, rfl, rfl, by decide⟩

/-- A read cycle that hits a STATUS register, and one that hits none. -/
theorem witness_PreadFrame :
    (∃ s t : State, exec .pread s = .next t ∧ t ≠ s ∧ ∃ r reg k, csrDecode s.cfg s.busCycle.adr.toNat = .hit r reg k ∧ reg.rdEffect = .identity) ∧
    (∃ s t : State, exec .pread s = .next t ∧ t ≠ s ∧ ∀ r reg k, csrDecode s.cfg s.busCycle.adr.toNat ≠ .hit r reg k) := by
  have key : ∀ s t : State, t.idx ≠ s.idx → t ≠ s := fun s t h he => h (by rw [he])
  refine ⟨⟨busy [] .read .w1 0x1050 0 0, _, rfl, key _ _ ?_, _, _, _, rfl, rfl⟩, ⟨busy [] .read .w1 0x1000 0 0, _, rfl, key _ _ ?_, ?_⟩⟩
  · decide
  · decide
  · intro r reg k h
    have : csrDecode (busy [] .read .w1 0x1000 0 0).cfg (busy [] .read .w1 0x1000 0 0).busCycle.adr.toNat = .hole := by decide
    rw [this] at h
    cases h

/-- A write cycle that stores, with an address it does not store to. -/
theorem witness_PwriteFrame : ∃ s t : State, exec .pwrite s = .next t ∧ t.idx ≠ s.idx ∧
    storedAddr s.cfg s.busCycle.adr.toNat ≠ some 0x1008 ∧
    ∀ r reg k, csrDecode s.cfg s.busCycle.adr.toNat = .hit r reg k → reg.wrEffect = .identity := by
  refine ⟨busy [] .write .w1 0x1004 0xDE 0, _, rfl, by decide, by decide, fun r reg k h => ?_⟩
  have : csrDecode (busy [] .write .w1 0x1004 0xDE 0).cfg (busy [] .write .w1 0x1004 0xDE 0).busCycle.adr.toNat =
    .hit 0 ⟨"SCRATCH", 0x04, .w4, .storage, 0x12345678, .identity, .identity⟩ 0 := by decide
  rw [this] at h
  cases h
  rfl

/-- A step of either operation in each phase. -/
theorem witness_LogicalFrame (op : Op) :
    (∃ s t : State, exec (match op with | .read => .lread .w8 | .write => .lwrite .w8) s = .next t ∧ s.phase = .idle ∧ 2 ≠ s.grant) ∧
    (∃ s t : State, exec (match op with | .read => .lread .w8 | .write => .lwrite .w8) s = .next t ∧ s.phase ≠ .idle ∧
      s.idx.toNat = s.w.bytes ∧ 2 ≠ s.owner) ∧
    (∃ s t : State, exec (match op with | .read => .lread .w8 | .write => .lwrite .w8) s = .next t ∧ s.phase = .faulted) := by
  cases op
  · exact ⟨⟨offer [] ⟨0xC, 0x1020, 0⟩, _, rfl, rfl, by decide⟩, ⟨busy [] .read .w8 0x1020 0 8, _, rfl, by decide, by decide, by decide⟩,
      ⟨faulted [], _, rfl, rfl⟩⟩
  · exact ⟨⟨offer [] ⟨0xD, 0x1020, 0⟩, _, rfl, rfl, by decide⟩, ⟨busy [] .write .w8 0x1020 0 8, _, rfl, by decide, by decide, by decide⟩,
      ⟨faulted [], _, rfl, rfl⟩⟩

theorem witness_LogicalCellFrame :
    (∃ s t : State, exec (.lread .w4) s = .next t ∧ s.phase = .busy) ∧
    (∃ s t : State, exec (.lwrite .w4) s = .next t ∧ s.phase = .busy ∧ storedAddr s.cfg s.busCycle.adr.toNat ≠ some 0x1008) :=
  ⟨⟨busy [] .read .w4 0x1004 0 0, _, rfl, rfl⟩, ⟨busy [] .write .w4 0x1004 0 0, _, rfl, rfl, by decide⟩⟩

/-- V9's write and the read of the same words: every hypothesis of the whole-operation statements. -/
theorem witness_LreadNetEffect : ∃ (s : State) (q : Request), s.Inv ∧ s.Offers 1 q ∧ q.desc = ldescWord 0b00#2 .w8 ∧
    q.addr.toNat % 4 = 0 ∧ ∀ i < Width.w8.bytes, beatOk s.cfg q.addr i :=
  ⟨_, ⟨ldescOf .read .w8, 0x1020, 0x0102030405060708⟩, offer_inv .read, ⟨rfl, by decide, by decide⟩, by decide, by decide,
    fun i hi => ok (by revert i; decide)⟩

theorem witness_LwriteWordOrdering : ∃ (s : State) (q : Request), s.Inv ∧ s.Offers 1 q ∧ q.desc = ldescWord 0b01#2 .w8 ∧
    q.addr.toNat % 4 = 0 ∧ ∀ i < Width.w8.bytes, beatOk s.cfg q.addr i :=
  ⟨_, ⟨ldescOf .write .w8, 0x1020, 0x0102030405060708⟩, offer_inv .write, ⟨rfl, by decide, by decide⟩, by decide, by decide,
    fun i hi => ok (by revert i; decide)⟩

theorem storage_wide : ∀ i < 8, storageWord Config.specExample (0x1020 + 4 * i) := by
  have : ∀ i : Fin 8, csrDecode Config.specExample (0x1020 + 4 * i.1) =
      .hit 1 ⟨"WIDE", 0x20, .w8, .storage, 0, .identity, .identity⟩ i.1 := by decide
  exact fun i hi => ⟨_, _, _, this ⟨i, hi⟩, rfl⟩

/-- V9 also meets the hypotheses on the words stored to and on an address that is not. -/
theorem witness_LwriteStoresBigEndian : ∃ (s : State) (q : Request), s.Inv ∧ s.Offers 1 q ∧ q.desc = ldescWord 0b01#2 .w8 ∧
    q.addr.toNat % 4 = 0 ∧ (∀ i < Width.w8.bytes, beatOk s.cfg q.addr i) ∧ storageWord s.cfg (q.addr.toNat + 4 * 7) ∧
    ∀ i < Width.w8.bytes, storedAddr s.cfg (q.addr.toNat + 4 * i) ≠ some 0x1040 :=
  ⟨_, ⟨ldescOf .write .w8, 0x1020, 0x0102030405060708⟩, offer_inv .write, ⟨rfl, by decide, by decide⟩, by decide, by decide,
    fun i hi => ok (by revert i; decide), storage_wide 7 (by decide), by decide⟩

/-- V43. -/
theorem witness_RoundTrip : ∃ (s : State) (cl : Client) (addr : Addr) (v : Value), s.Inv ∧ s.clients[1]? = some cl ∧ cl.prog = none ∧
    s.Offers 1 ⟨ldescWord 0b01#2 .w8, addr, v⟩ ∧ addr.toNat % 4 = 0 ∧ ∀ i < Width.w8.bytes, storageWord s.cfg (addr.toNat + 4 * i) :=
  ⟨_, _, 0x1020, 0x0102030405060708, offer_inv .write, rfl, rfl, ⟨rfl, by decide, by decide⟩, by decide, storage_wide⟩

/-- V38 and the read of the same words: the third beat is the first not mapped. -/
theorem witness_FaultsAtFirstUnmappedBeat (op : Op) : ∃ (s : State) (q : Request), s.Inv ∧ s.Offers 1 q ∧
    q.desc = ldescWord (match op with | .read => 0b00#2 | .write => 0b01#2) .w4 ∧ q.addr.toNat % 4 = 0 ∧ 2 < Width.w4.bytes ∧
    (∀ i < 2, beatOk s.cfg q.addr i) ∧ ¬ beatOk s.cfg q.addr 2 := by
  refine ⟨offer [] ⟨ldescOf op .w4, 0x10F8, 0xA1B2C3D4⟩, ⟨ldescOf op .w4, 0x10F8, 0xA1B2C3D4⟩, ?_, ?_, ?_, by cases op <;> decide, by cases op <;> decide,
    fun i hi => ok (by revert i; cases op <;> decide), not_ok (by cases op <;> decide)⟩
  · cases op <;> exact inv_of_checked example_wf (by decide)
  · cases op <;> exact ⟨rfl, by decide, by decide⟩
  · cases op <;> rfl

theorem witness_AccessEndsWithinBound : ∃ (s : State) (cs : List Nat), s.Inv ∧ s.phase = .busy ∧
    cs.length = s.w.bytes - s.idx.toNat + 1 :=
  ⟨_, [0, 2], busy_inv_read, rfl, by decide⟩

theorem busy_steps : ∃ t, step (busy [.sequencer 1] .read .w4 0x1004 0 3) = .next t ∧ decide (t.idx = 4) = true :=
  exists_next (by decide)

theorem witness_LockExcludes : ∃ s t : State, s.phase = .busy ∧ s.nextMove ≠ .reset ∧ step s = .next t :=
  let ⟨t, h, _⟩ := busy_steps
  ⟨_, t, rfl, by decide, h⟩

theorem witness_HistoryGrowsByBeats : ∃ s t : State, s.nextMove ≠ .reset ∧ step s = .next t :=
  let ⟨t, h, _⟩ := busy_steps
  ⟨_, t, by decide, h⟩

theorem witness_RequestLeavesOnlyByAcceptance : ∃ (s t : State) (q : Request), s.nextMove ≠ .reset ∧ step s = .next t ∧
    s.request 1 = some q ∧ t.request 1 = none :=
  let ⟨t, h, hq⟩ := exists_next (o := step (offer [.sequencer 1] ⟨0x9, 0x1020, 7⟩)) (p := fun t => decide (t.request 1 = none)) (by decide)
  ⟨_, t, ⟨0x9, 0x1020, 7⟩, by decide, h, by decide, by simpa using hq⟩

theorem witness_ResponseOnlyByCompletion :
    (∃ (s t : State) (r : Response), step s = .next t ∧ t.response 1 = some r ∧ s.response 1 ≠ some r) ∧
    (∃ (s t : State) (r : Response), step s = .next t ∧ s.nextMove ≠ .reset ∧ s.response 1 = some r ∧ t.response 1 = none) :=
  let ⟨t, h, hq⟩ := exists_next (o := step (busy [.sequencer 1] .read .w8 0x1020 0 8))
    (p := fun t => decide (t.response 1 = some (.readDone 0))) (by decide)
  let ⟨u, h', hq'⟩ := exists_next (o := step (answered [.consume 1])) (p := fun t => decide (t.response 1 = none)) (by decide)
  ⟨⟨_, t, .readDone 0, h, by simpa using hq, by decide⟩, ⟨_, u, .writeDone, h', by decide, by decide, by simpa using hq'⟩⟩

theorem witness_CellsChangeOnlyByWriteBeats : ∃ s t : State, s.nextMove ≠ .reset ∧ step s = .next t ∧
    Memory.get t.cfg t.cells 0x1004 ≠ Memory.get s.cfg s.cells 0x1004 :=
  let ⟨t, h, hq⟩ := exists_next (o := step (busy [.sequencer 1] .write .w4 0x1004 0xDEADBEEF 0))
    (p := fun t => decide (Memory.get t.cfg t.cells 0x1004 ≠ 0x12)) (by decide)
  ⟨_, t, by decide, h, by
    have h0 : Memory.get (busy [.sequencer 1] .write .w4 0x1004 0xDEADBEEF 0).cfg
      (busy [.sequencer 1] .write .w4 0x1004 0xDEADBEEF 0).cells 0x1004 = 0x12 := by decide
    rw [h0]; simpa using hq⟩

theorem witness_FaultedIsSticky : ∃ (s t : State) (q : Request), s.Inv ∧ s.phase = .faulted ∧ s.nextMove ≠ .reset ∧ step s = .next t ∧
    s.request 2 = some q :=
  let ⟨t, h, _⟩ := exists_next (o := step (faulted [.sequencer 2])) (p := fun _ => true) (by decide)
  ⟨_, t, _, faulted_inv, rfl, by decide, h, rfl⟩

theorem witness_DeadServesNobody : ∃ (s t : State) (q : Request), s.Inv ∧ s.attach = .dead ∧ s.nextMove ≠ .reset ∧ step s = .next t ∧
    s.request 1 = some q :=
  let ⟨t, h, _⟩ := exists_next (o := step (dead [.sequencer 1])) (p := fun _ => true) (by decide)
  ⟨_, t, _, dead_inv, rfl, by decide, h, rfl⟩

theorem witness_FaultRecordWrittenOnce : ∃ s t : State, s.Inv ∧ s.faultCode ≠ .none ∧ s.nextMove ≠ .reset ∧ step s = .next t :=
  let ⟨t, h, _⟩ := exists_next (o := step (faulted [.sequencer 2])) (p := fun _ => true) (by decide)
  ⟨_, t, faulted_inv, by decide, by decide, h⟩

/-- V83. -/
theorem witness_SelftestGatesPeers : ∃ s t : State, s.attach = .selftest ∧ s.phase = .idle ∧ step s = .next t ∧ t.phase ≠ .idle :=
  let ⟨t, h, hq⟩ := exists_next
    (o := step ((start [none, none, none] [.sequencer 0] []).modifyClient 0 (Client.setReq ⟨0x8, 0x1004, 0⟩)))
    (p := fun t => decide (t.phase ≠ .idle)) (by decide)
  ⟨_, t, rfl, rfl, h, by simpa using hq⟩

theorem witness_DecoderFindsTheSlot : ∃ c : Config, c.WellFormed := ⟨_, example_wf⟩

/-- V59, the last slot of SCRATCH. -/
theorem witness_StorageWriteTouchesOneCell : ∃ (s : State) (r : Nat) (reg : RegDesc), Memory.wf s.cfg s.cells ∧
    csrDecode s.cfg 0x1010 = .hit r reg 3 ∧ reg.kind = .storage ∧ 0x100C ≠ slotAddr s.cfg reg 3 :=
  ⟨ready [], _, _, by decide, rfl, rfl, by decide⟩

theorem witness_StorageReadBack : ∃ (s t : State) (r : Nat) (reg : RegDesc), Memory.wf s.cfg s.cells ∧
    csrDecode s.cfg 0x1010 = .hit r reg 3 ∧ reg.kind = .storage ∧ t.cfg = s.cfg ∧ t.cell reg 3 = (s.memWrite 0x1010 0xFF5A).cell reg 3 :=
  ⟨ready [], (ready []).memWrite 0x1010 0xFF5A, _, _, by decide, rfl, rfl, rfl, rfl⟩

/-- The last byte of CNT. -/
theorem witness_StatusAccess : ∃ (s : State) (r : Nat) (reg : RegDesc), csrDecode s.cfg 0x1064 = .hit r reg 1 ∧ reg.kind = .status :=
  ⟨ready [], _, _, rfl, rfl⟩

/-- V61, and the first word of another device. -/
theorem witness_HoleAccess :
    (∃ s : State, csrDecode s.cfg 0x1000 = .hole) ∧ (∃ s : State, csrDecode s.cfg 0x1100 = .notMine) :=
  ⟨⟨ready [], by decide⟩, ⟨ready [], by decide⟩⟩

/-- V70's device event, and one that names a STORAGE register. -/
theorem witness_DeviceEventRule :
    (∃ (s : State) (reg : RegDesc), s.Inv ∧ s.env.agenda = [.device 4 0x0200] ∧ s.cfg.regs[4]? = some reg ∧ reg.kind = .status) ∧
    (∃ (s : State) (reg : RegDesc), s.Inv ∧ s.env.agenda = [.device 0 0x0200] ∧ s.cfg.regs[0]? = some reg ∧ reg.kind = .storage) :=
  ⟨⟨ready [.device 4 0x0200], _, inv_of_checked example_wf (by decide), rfl, rfl, rfl⟩,
   ⟨ready [.device 0 0x0200], _, inv_of_checked example_wf (by decide), rfl, rfl, rfl⟩⟩

/-! ### Client statements -/

/-- The expansions of 30 R91. -/
theorem test_pseudo :
    lmodify .w4 (.const 0x1004) 3 (.bor (.reg 3) (.imm 1)) =
      [⟨[], .lread .w4 3 (.const 0x1004)⟩, ⟨[], .assign 3 (.bor (.reg 3) (.imm 1))⟩, ⟨[], .lwrite .w4 (.const 0x1004) (.reg 3)⟩] ∧
    poll .w1 3 (.const 0x1050) (.imm 1) 4 9 =
      [⟨[9], .lread .w1 3 (.const 0x1050)⟩, ⟨[], .assign 4 (.band (.reg 3) (.imm 1))⟩, ⟨[], .beq 4 0 9⟩] ∧
    Program.WellFormed (poll .w1 3 (.const 0x1050) (.reg 5) 4 9 ++ [⟨[], .done⟩]) := by decide

/-- One statement of each kind, with the labels they need. -/
def sample : Program :=
  [⟨[7], .lread .w2 0 (.base .csr 0x60)⟩, ⟨[], .lwrite .w8 (.const 0x1020) (.reg 0)⟩, ⟨[], .assign 1 (.reg 0)⟩,
   ⟨[], .beq 0 0 7⟩, ⟨[], .bne 0 0 7⟩, ⟨[], .jmp 7⟩, ⟨[], .fatal 4⟩, ⟨[], .done⟩,
   ⟨[], .assign 1 (.add (.imm 1) (.reg 0))⟩, ⟨[], .done⟩]

theorem sample_wf : Program.WellFormed sample := by decide

/-- Client 1 of `running` stands at its statement. -/
theorem running_atStmt {pc : Nat} {ls : List (Nat × Value)} {labels : List Label} {st : Stmt} (h : sample[pc]? = some ⟨labels, st⟩) :
    (running [.client 1] sample pc ls).AtStmt 1 (runner sample pc ls) sample st [] :=
  ⟨example_wf, rfl, rfl, rfl, sample_wf, rfl, labels, h⟩

/-- The same client with an access outstanding: it waits, and its response is there or not. -/
def waiting (pc : Nat) (rsp : Option Response) : State :=
  (running [.client 1] sample pc []).modifyClient 1 fun cl => { cl with cstat := .wait, rsp := rsp }

theorem waiting_atStmt {pc : Nat} {rsp : Option Response} {labels : List Label} {st : Stmt} (h : sample[pc]? = some ⟨labels, st⟩) :
    (waiting pc rsp).AtStmt 1 { runner sample pc [] with cstat := .wait, rsp := rsp } sample st [] :=
  ⟨example_wf, rfl, rfl, rfl, sample_wf, rfl, labels, h⟩

theorem witness_LreadStatement :
    (∃ (s : State) (cl : Client), s.AtStmt 1 cl sample (.lread .w2 0 (.base .csr 0x60)) [] ∧ cl.cstat = .run ∧ cl.req = none ∧
      cl.rsp = none) ∧
    (∃ (s : State) (cl : Client) (v : Value), s.AtStmt 1 cl sample (.lread .w2 0 (.base .csr 0x60)) [] ∧ cl.cstat = .wait ∧
      cl.rsp = some (.readDone v)) ∧
    (∃ (s : State) (cl : Client), s.AtStmt 1 cl sample (.lread .w2 0 (.base .csr 0x60)) [] ∧ cl.cstat = .wait ∧ cl.rsp = none) :=
  ⟨⟨_, _, running_atStmt (pc := 0) (ls := []) rfl, rfl, rfl, rfl⟩,
   ⟨_, _, 0x1FF, waiting_atStmt (pc := 0) (rsp := some (.readDone 0x1FF)) rfl, rfl, rfl⟩,
   ⟨_, _, waiting_atStmt (pc := 0) (rsp := none) rfl, rfl, rfl⟩⟩

theorem witness_LwriteStatement :
    (∃ (s : State) (cl : Client) (v : Value), s.AtStmt 1 cl sample (.lwrite .w8 (.const 0x1020) (.reg 0)) [] ∧ cl.cstat = .run ∧
      cl.req = none ∧ cl.rsp = none ∧ srcValue cl.locals (.reg 0) = some v) ∧
    (∃ (s : State) (cl : Client), s.AtStmt 1 cl sample (.lwrite .w8 (.const 0x1020) (.reg 0)) [] ∧ cl.cstat = .wait ∧
      cl.rsp = some .writeDone) ∧
    (∃ (s : State) (cl : Client), s.AtStmt 1 cl sample (.lwrite .w8 (.const 0x1020) (.reg 0)) [] ∧ cl.cstat = .wait ∧ cl.rsp = none) :=
  ⟨⟨_, _, 5, running_atStmt (pc := 1) (ls := [(0, 5)]) rfl, rfl, rfl, rfl, rfl⟩,
   ⟨_, _, waiting_atStmt (pc := 1) (rsp := some .writeDone) rfl, rfl, rfl⟩,
   ⟨_, _, waiting_atStmt (pc := 1) (rsp := none) rfl, rfl, rfl⟩⟩

theorem witness_WaitingClientWaits : ∃ (s : State) (cl : Client) (st : Stmt), s.AtStmt 1 cl sample st [] ∧ cl.cstat = .wait ∧ cl.rsp = none :=
  ⟨_, _, _, waiting_atStmt (pc := 0) (rsp := none) rfl, rfl, rfl⟩

theorem witness_AssignStatement : ∃ (s : State) (cl : Client) (v : Value), s.AtStmt 1 cl sample (.assign 1 (.reg 0)) [] ∧
    cl.cstat = .run ∧ assignValue cl.locals (.reg 0) = some v :=
  ⟨_, _, 5, running_atStmt (pc := 2) (ls := [(0, 5)]) rfl, rfl, by decide⟩

/-- Values at which every operator wraps or truncates, and the boundary slices. -/
theorem witness_ExpressionsWrapMod64 : ∃ (l : List (Nat × Value)) (x y : Value), assocGet l 0 = some x ∧ assocGet l 1 = some y ∧ y ≠ 0 ∧
    0 ≤ 63 ∧ 63 < 64 :=
  ⟨[(0, 0xFFFFFFFFFFFFFFFF), (1, 65)], 0xFFFFFFFFFFFFFFFF, 65, rfl, rfl, by decide, by decide, by decide⟩

theorem witness_BranchStatements :
    (∃ (s : State) (cl : Client) (x : Value), cl.cstat = .run ∧ assocGet cl.locals 0 = some x ∧ s.AtStmt 1 cl sample (.beq 0 0 7) []) ∧
    (∃ (s : State) (cl : Client) (x : Value), cl.cstat = .run ∧ assocGet cl.locals 0 = some x ∧ s.AtStmt 1 cl sample (.bne 0 0 7) []) ∧
    (∃ (s : State) (cl : Client) (x : Value), cl.cstat = .run ∧ assocGet cl.locals 0 = some x ∧ s.AtStmt 1 cl sample (.jmp 7) []) :=
  ⟨⟨_, _, 0, rfl, rfl, running_atStmt (pc := 3) (ls := [(0, 0)]) rfl⟩, ⟨_, _, 1, rfl, rfl, running_atStmt (pc := 4) (ls := [(0, 1)]) rfl⟩,
   ⟨_, _, 1, rfl, rfl, running_atStmt (pc := 5) (ls := [(0, 1)]) rfl⟩⟩

theorem witness_EndStatements :
    (∃ (s : State) (cl : Client), cl.cstat = .run ∧ s.AtStmt 1 cl sample .done []) ∧
    (∃ (s : State) (cl : Client), cl.cstat = .run ∧ s.AtStmt 1 cl sample (.fatal 4) []) ∧
    (∃ (s : State) (cl : Client), cl.cstat = .run ∧ s.attach = .selftest ∧ s.AtStmt selftestClient cl sample .done []) ∧
    (∃ (s : State) (cl : Client), cl.cstat = .run ∧ s.attach = .selftest ∧ s.AtStmt selftestClient cl sample (.fatal 4) []) ∧
    (∃ (s : State) (cl : Client), cl.cstat = .done ∧ s.AtStmt 1 cl sample .done []) ∧
    (∃ (s : State) (cl : Client), cl.cstat = .fatal 4 ∧ s.AtStmt 1 cl sample (.fatal 4) []) :=
  ⟨⟨_, _, rfl, running_atStmt (pc := 7) (ls := []) rfl⟩, ⟨_, _, rfl, running_atStmt (pc := 6) (ls := []) rfl⟩,
   ⟨(start [some sample, none, none] [.client 0] []).modifyClient 0 (Client.goto 7), runner sample 7 [], rfl, rfl,
     ⟨example_wf, rfl, rfl, rfl, sample_wf, rfl, [], rfl⟩⟩,
   ⟨(start [some sample, none, none] [.client 0] []).modifyClient 0 (Client.goto 6), runner sample 6 [], rfl, rfl,
     ⟨example_wf, rfl, rfl, rfl, sample_wf, rfl, [], rfl⟩⟩,
   ⟨(running [.client 1] sample 7 []).modifyClient 1 (Client.stop .done), (runner sample 7 []).stop .done, rfl,
     ⟨example_wf, rfl, rfl, rfl, sample_wf, rfl, [], rfl⟩⟩,
   ⟨(running [.client 1] sample 6 []).modifyClient 1 (Client.stop (.fatal 4)), (runner sample 6 []).stop (.fatal 4), rfl,
     ⟨example_wf, rfl, rfl, rfl, sample_wf, rfl, [], rfl⟩⟩⟩

/-- V85, the same for the other reads of a local (one inside an expression), and a client that has stopped so. -/
theorem witness_UnwrittenLocalStopsClient :
    (∃ (s : State) (cl : Client), cl.cstat = .run ∧ assocGet cl.locals 0 = none ∧ s.AtStmt 1 cl sample (.beq 0 0 7) []) ∧
    (∃ (s : State) (cl : Client), cl.cstat = .run ∧ assocGet cl.locals 0 = none ∧ s.AtStmt 1 cl sample (.bne 0 0 7) []) ∧
    (∃ (s : State) (cl : Client), cl.cstat = .run ∧ s.AtStmt 1 cl sample (.assign 1 (.add (.imm 1) (.reg 0))) [] ∧
      assignValue cl.locals (.add (.imm 1) (.reg 0)) = none) ∧
    (∃ (s : State) (cl : Client), cl.cstat = .run ∧ cl.req = none ∧ cl.rsp = none ∧ assocGet cl.locals 0 = none ∧
      s.AtStmt 1 cl sample (.lwrite .w8 (.const 0x1020) (.reg 0)) []) ∧
    (∃ (s : State) (cl : Client), s.cfg.WellFormed ∧ s.env.agenda = [.client 1] ∧ s.clients[1]? = some cl ∧ cl.prog = some sample ∧
      Program.WellFormed sample ∧ cl.cfault.isSome = true) :=
  ⟨⟨_, _, rfl, rfl, running_atStmt (pc := 3) (ls := []) rfl⟩, ⟨_, _, rfl, rfl, running_atStmt (pc := 4) (ls := []) rfl⟩,
   ⟨_, _, rfl, running_atStmt (pc := 8) (ls := []) rfl, rfl⟩, ⟨_, _, rfl, rfl, rfl, rfl, running_atStmt (pc := 1) (ls := []) rfl⟩,
   ⟨(running [.client 1] sample 3 []).modifyClient 1 Client.fail, (runner sample 3 []).fail, example_wf, rfl, rfl, rfl, sample_wf, rfl⟩⟩

/-- A move of a program, a submission, a consumption. -/
theorem witness_ClientMovesLeaveTheCodec :
    (∃ s t : State, s.nextMove = .client 1 ∧ step s = .next t ∧ ¬ (s.attach = .selftest ∧ 1 = selftestClient ∧ s.nextMove = .client 1)) ∧
    (∃ s t : State, s.nextMove = .submit 1 ⟨2, 1, 0⟩ ∧ step s = .next t ∧ t.request 1 = some ⟨2, 1, 0⟩) ∧
    (∃ s t : State, s.nextMove = .consume 1 ∧ step s = .next t ∧ s.response 1 ≠ none) := by
  obtain ⟨t, h, -⟩ := exists_next (o := step (running [.client 1] sample 0 [])) (p := fun t => decide (t.request 1 ≠ none)) (by decide)
  obtain ⟨u, hu, hq⟩ := exists_next (o := step (ready [.submit 1 ⟨2, 1, 0⟩])) (p := fun t => decide (t.request 1 = some ⟨2, 1, 0⟩)) (by decide)
  obtain ⟨v, hv, -⟩ := exists_next (o := step (answered [.consume 1])) (p := fun _ => true) (by decide)
  exact ⟨⟨_, t, rfl, h, by decide⟩, ⟨_, u, rfl, hu, by simpa using hq⟩, ⟨_, v, rfl, hv, by decide⟩⟩

theorem witness_IllFormedIsRefused :
    (∃ s : State, ¬ s.cfg.WellFormed) ∧
    (∃ (s : State) (cl : Client) (p : Program), s.cfg.WellFormed ∧ s.env.agenda = [.client 1] ∧ s.clients[1]? = some cl ∧
      cl.prog = some p ∧ ¬ Program.WellFormed p) :=
  ⟨⟨{ ready [] with cfg := { Config.specExample with nClients := 0 } }, by decide⟩,
   ⟨running [.client 1] [⟨[], .jmp 1⟩] 0 [], runner [⟨[], .jmp 1⟩] 0 [], _, example_wf, rfl, rfl, rfl, smoke_program_label⟩⟩

/-- An empty slot (the request is taken) and a slot that waits (it is not); a response to consume, and none. -/
theorem witness_SubmitOnlyWhenNothingOutstanding :
    (∃ (s : State) (q : Request) (cl : Client), s.cfg.WellFormed ∧ s.clients[1]? = some cl ∧ cl.prog = none ∧
      s.env.agenda = [.submit 1 q] ∧ cl.req = none ∧ cl.rsp = none ∧ s.lockOwner ≠ some 1) ∧
    (∃ (s : State) (q : Request) (cl : Client), s.cfg.WellFormed ∧ s.clients[1]? = some cl ∧ cl.prog = none ∧
      s.env.agenda = [.submit 1 q] ∧ cl.req ≠ none) ∧
    (∃ (s : State) (cl : Client), s.cfg.WellFormed ∧ s.clients[1]? = some cl ∧ cl.prog = none ∧ s.env.agenda = [.consume 1] ∧
      cl.rsp ≠ none) ∧
    (∃ (s : State) (cl : Client), s.cfg.WellFormed ∧ s.clients[1]? = some cl ∧ cl.prog = none ∧ s.env.agenda = [.consume 1] ∧
      cl.rsp = none) :=
  ⟨⟨ready [.submit 1 ⟨2, 1, 0⟩], ⟨2, 1, 0⟩, _, example_wf, rfl, rfl, rfl, rfl, rfl, by decide⟩,
   ⟨offer [.submit 1 ⟨2, 1, 0⟩] ⟨0, 0x1050, 0⟩, ⟨2, 1, 0⟩, _, example_wf, rfl, rfl, rfl, by decide⟩,
   ⟨answered [.consume 1], _, example_wf, rfl, rfl, rfl, by decide⟩, ⟨ready [.consume 1], _, example_wf, rfl, rfl, rfl, rfl⟩⟩

/-- A reset out of FAULTED and one out of DEAD, with a storage slot that reset fills. -/
theorem witness_ResetRule :
    (∃ s : State, s.cfg.WellFormed ∧ s.env.agenda = [.reset]) ∧
    (∃ reg : RegDesc, (ready []).cfg.regs[0]? = some reg ∧ reg.kind = .storage ∧ 3 < reg.w.bytes) ∧
    (∃ s t : State, step s = .next t ∧ s.phase = .faulted ∧ t.phase ≠ .faulted) ∧
    (∃ s t : State, step s = .next t ∧ s.attach = .dead ∧ t.attach ≠ .dead) := by
  refine ⟨⟨ready [.reset], example_wf, rfl⟩, ⟨_, rfl, rfl, by decide⟩, ?_, ?_⟩
  · obtain ⟨t, h, hq⟩ := exists_next (o := step (faulted [.reset])) (p := fun t => decide (t.phase ≠ .faulted)) (by decide)
    exact ⟨_, t, h, rfl, by simpa using hq⟩
  · obtain ⟨t, h, hq⟩ := exists_next (o := step (dead [.reset])) (p := fun t => decide (t.attach ≠ .dead)) (by decide)
    exact ⟨_, t, h, rfl, by simpa using hq⟩

theorem witness_ResetValues : ∃ reg : RegDesc, State.reset.cfg.regs[0]? = some reg := ⟨_, rfl⟩

theorem witness_AnyResetMeetsInvariant : ∃ (c : Config) (progs : List (Option Program)), c.WellFormed ∧ progs.length = c.nClients :=
  ⟨_, [none, some sample, none], example_wf, rfl⟩

theorem witness_StepKeepsInvariant : ∃ s t : State, s.Inv ∧ step s = .next t ∧ t.idx = 4 :=
  let ⟨t, h, hq⟩ := busy_steps
  ⟨_, t, busy_inv_read, h, by simpa using hq⟩

end Sys2Proof.Tests
end

section
/-! PROOFS. The statements of 00_scope.md: the step of an offered request (R11) and the operators of client expressions (R8). -/

namespace Sys2Proof.Machine

/-! ## A step runs the offered request -/

/-- A scheduled sequencer's step is its move with the client offered and the schedule advanced (00 R11). -/
theorem step_sequencer {s : State} {c : Nat} {rest : List Move} (hw : s.cfg.WellFormed) (ha : s.env.agenda = .sequencer c :: rest) :
    step s = State.sequencerMove { s with grant := c, env := { s.env with agenda := rest } } := by
  obtain ⟨hmove, hcalled⟩ := nextMove_of_agenda ha
  rw [step_eq hw, hmove, hcalled]
  rfl

/-- Settles O4: the idle sequencer fetches the offered client's LDESC and runs the instruction it decodes to. -/
theorem stepRunsRequest : Obligations.StepRunsRequest := by
  intro s c rest q i hw ha ho hd
  obtain ⟨hidle, hadmitted, hrequest⟩ := ho
  rw [step_sequencer hw ha]
  exact sequencerMove_exec (fetchWord_idle hidle hadmitted hrequest) hd

/-! ## The operators of `<expr>` on 64-bit values, one rule each (00 R8, 43 R184)

Each rule takes operands that are any expressions whose values are the words `x` and `y`, and gives the value as a word. -/

section Operators

variable {l : List (Nat × Value)} {a b : Expr} {x y : Value}

/-- An expression whose value is a word's number assigns that word. -/
theorem assignValue_of_toNat {e : Expr} {v : Value} (h : exprValue l e = some v.toNat) : assignValue l e = some v := by
  simp [assignValue, h]

theorem exprValue_reg {i : Nat} (h : assocGet l i = some x) : exprValue l (.reg i) = some x.toNat := by
  simp [exprValue, h]

@[simp] theorem both_some (f : Nat → Nat → Nat) (m n : Nat) : both f (some m) (some n) = some (f m n) := rfl

theorem wrap64_eq : wrap64 = 2 ^ 64 := by decide

theorem shiftLeft64_toNat (x : Value) (n : Nat) : shiftLeft64 x.toNat n = (x <<< n).toNat := by
  unfold shiftLeft64
  split
  next => rw [BitVec.toNat_shiftLeft, Nat.shiftLeft_eq, wrap64_eq]
  next hn => rw [BitVec.shiftLeft_eq_zero (by omega)]; rfl

theorem shiftRight_toNat (x : Value) (n : Nat) : shiftRight 64 x.toNat n = (x >>> n).toNat := by
  unfold shiftRight
  split
  next => rw [BitVec.toNat_ushiftRight, Nat.shiftRight_eq_div_pow]
  next hn => rw [BitVec.ushiftRight_eq_zero (by omega)]; rfl

theorem remainder_toNat (n : Nat) (x : Value) (hy : y ≠ 0) : remainder n x.toNat y.toNat = (x % y).toNat := by
  have hn : y.toNat ≠ 0 := fun h => hy (BitVec.eq_of_toNat_eq h)
  rw [remainder, if_neg hn, BitVec.toNat_umod]

theorem sliceBits_toNat (x : Value) {hi lo : Nat} (hle : lo ≤ hi) (hlt : hi < 64) :
    sliceBits 64 hi lo x.toNat = ((x.extractLsb' lo (hi + 1 - lo)).setWidth 64).toNat := by
  rw [sliceBits, if_pos ⟨hle, hlt⟩, BitVec.toNat_setWidth_of_le (by omega), BitVec.extractLsb'_toNat, Nat.shiftRight_eq_div_pow]

section Binary

variable (ha : exprValue l a = some x.toNat) (hb : exprValue l b = some y.toNat)
include ha hb

theorem exprValue_add : exprValue l (.add a b) = some (x + y).toNat := by
  rw [exprValue, ha, hb, both_some, wrap64_eq, BitVec.toNat_add]

/-- `wrap64 - y` is the two's complement of `y`, so the sum wraps to the difference. -/
theorem exprValue_sub : exprValue l (.sub a b) = some (x - y).toNat := by
  rw [exprValue, ha, hb, both_some, wrap64_eq, Nat.mod_eq_of_lt y.isLt, BitVec.toNat_sub, Nat.add_comm]

theorem exprValue_shl : exprValue l (.shl a b) = some (x <<< y.toNat).toNat := by
  rw [exprValue, ha, hb, both_some, shiftLeft64_toNat]

theorem exprValue_shr (hw : a.width = 64) : exprValue l (.shr a b) = some (x >>> y.toNat).toNat := by
  rw [exprValue, ha, hb, both_some, hw, shiftRight_toNat]

theorem exprValue_band : exprValue l (.band a b) = some (x &&& y).toNat := by
  rw [exprValue, ha, hb, both_some, BitVec.toNat_and]; rfl

theorem exprValue_bor : exprValue l (.bor a b) = some (x ||| y).toNat := by
  rw [exprValue, ha, hb, both_some, BitVec.toNat_or]; rfl

theorem exprValue_bxor : exprValue l (.bxor a b) = some (x ^^^ y).toNat := by
  rw [exprValue, ha, hb, both_some, BitVec.toNat_xor]; rfl

theorem exprValue_mod (hy : y ≠ 0) : exprValue l (.mod a b) = some (x % y).toNat := by
  rw [exprValue, ha, hb, both_some, remainder_toNat _ x hy]

end Binary

theorem exprValue_slice (ha : exprValue l a = some x.toNat) (hw : a.width = 64) {hi lo : Nat} (hle : lo ≤ hi) (hlt : hi < 64) :
    exprValue l (.slice a hi lo) = some ((x.extractLsb' lo (hi + 1 - lo)).setWidth 64).toNat := by
  rw [exprValue, ha, hw, Option.map_some, sliceBits_toNat x hle hlt]

end Operators

/-- Settles O49: each operator's rule, with two written locals as its operands. -/
theorem expressionsWrapMod64 : Obligations.ExpressionsWrapMod64 := by
  intro l i j x y hi hj
  have hx := exprValue_reg hi
  have hy := exprValue_reg hj
  exact ⟨assignValue_of_toNat (exprValue_add hx hy), assignValue_of_toNat (exprValue_sub hx hy),
    assignValue_of_toNat (exprValue_shl hx hy), assignValue_of_toNat (exprValue_shr hx hy rfl),
    assignValue_of_toNat (exprValue_band hx hy), assignValue_of_toNat (exprValue_bor hx hy),
    assignValue_of_toNat (exprValue_bxor hx hy), fun hne => assignValue_of_toNat (exprValue_mod hx hy hne),
    fun _ _ hle hlt => assignValue_of_toNat (exprValue_slice hx rfl hle hlt)⟩

end Sys2Proof.Machine
end

section
/-! PROOFS. The invariant of 10_state.md in five parts, and that every operation of the machine keeps each part. A part is a
predicate of the few fields it speaks of, so that an operation that leaves these fields alone keeps the part by the field lemmas of
Laws/State. -/

namespace Sys2Proof.Machine

/-! ## The five parts -/

/-- The register bank under its configuration (42 R152, R155). -/
structure BankOk (c : Config) (cells : Memory) (vals : List Value) : Prop where
  cfg_wf : c.WellFormed
  cells_wf : Memory.wf c cells
  length : vals.length = c.regs.length
  fits : ∀ (r : Nat) (reg : RegDesc), c.regs[r]? = some reg → truncTo reg.w (vals.getD r 0) = vals.getD r 0

/-- The lock, the attach state and the fault record among `n` clients (10 R23 to R25, 60 R201, R205, R206). -/
structure LockOk (n : Nat) (phase : Phase) (owner : Nat) (attach : Attach) (code : FaultCode) (client : Nat) : Prop where
  owner_lt : phase ≠ .idle → owner < n
  selftest_owner : attach = .selftest → phase ≠ .idle → owner = selftestClient
  dead_idle : attach = .dead → phase = .idle
  faulted_iff : phase = .faulted ↔ code.ofSequencer = true
  dead_iff : attach = .dead ↔ code = .selftestMismatch
  fault_client : phase = .faulted → client = owner

/-- The access in progress (10 R27, 20 R56, 40 R104). -/
structure AccessOk (op : Op) (w : Width) (addr : Addr) (idx : BitVec 4) (acc : Value) : Prop where
  idx_le : idx.toNat ≤ w.bytes
  aligned : addr.toNat % stride = 0
  acc_shape : op = .read → ∀ j, j < 8 * (w.bytes - idx.toNat) ∨ 8 * w.bytes ≤ j → acc.getLsbD j = false

/-- A client; `active` says that a request of it is in progress (10 R26, 43 R182). -/
structure ClientOk (active : Bool) (cl : Client) : Prop where
  req_alone : cl.req.isSome = true → cl.rsp = none ∧ active = false
  rsp_alone : cl.rsp.isSome = true → active = false
  wait_iff : cl.cstat = .wait ↔ cl.req.isSome = true ∨ cl.rsp.isSome = true ∨ active = true
  sorted : AssocSorted cl.locals

/-- The `n` clients, where `lock` is the owner of the lock (10 R23, R26). -/
structure ClientsOk (n : Nat) (cs : List Client) (lock : Option Nat) : Prop where
  length : cs.length = n
  each : ∀ (c : Nat) (cl : Client), cs[c]? = some cl → ClientOk (decide (lock = some c)) cl

/-- An event of the bus history (20 R50, R61, 30 R88). -/
def EventOk (c : Config) (e : BusEvent) : Prop :=
  e.client < c.nClients ∧ e.paddr.toNat % 4 = 0 ∧ c.mapped e.paddr.toNat = true ∧ (e.kind = .pwrite → e.data.toNat < 256)

/-- The parts that do not speak of the access in progress. -/
structure State.InvFrame (s : State) : Prop where
  bank : BankOk s.cfg s.cells s.statusVal
  lock : LockOk s.cfg.nClients s.phase s.owner s.attach s.faultCode s.faultClient
  clients : ClientsOk s.cfg.nClients s.clients s.lockOwner
  hist : ∀ e ∈ s.hist, EventOk s.cfg e

/-- The five parts together. -/
structure State.InvParts (s : State) : Prop extends s.InvFrame where
  access : s.phase = .busy → AccessOk s.op s.w s.addr s.idx s.acc

theorem State.Inv.parts {s : State} (h : s.Inv) : s.InvParts where
  bank := ⟨h.cfg_wf, h.cells_wf, h.status_length, h.status_fits⟩
  lock := ⟨h.owner_lt, h.selftest_owner, h.dead_idle, h.faulted_iff, h.dead_iff, h.fault_client⟩
  clients := ⟨h.clients_length, fun c cl hc =>
    ⟨(h.one_outstanding c cl hc).1, (h.one_outstanding c cl hc).2, h.wait_iff c cl hc,
      h.locals_sorted cl (List.mem_of_getElem? hc)⟩⟩
  hist := h.hist_ok
  access hb := ⟨h.idx_le hb, h.addr_aligned hb, h.acc_shape hb⟩

theorem State.InvParts.inv {s : State} (h : s.InvParts) : s.Inv where
  cfg_wf := h.bank.cfg_wf
  clients_length := h.clients.length
  cells_wf := h.bank.cells_wf
  status_length := h.bank.length
  status_fits := h.bank.fits
  owner_lt := h.lock.owner_lt
  idx_le hb := (h.access hb).idx_le
  addr_aligned hb := (h.access hb).aligned
  acc_shape hb := (h.access hb).acc_shape
  selftest_owner := h.lock.selftest_owner
  dead_idle := h.lock.dead_idle
  faulted_iff := h.lock.faulted_iff
  dead_iff := h.lock.dead_iff
  fault_client := h.lock.fault_client
  one_outstanding c cl hc := ⟨(h.clients.each c cl hc).req_alone, (h.clients.each c cl hc).rsp_alone⟩
  wait_iff c cl hc := (h.clients.each c cl hc).wait_iff
  hist_ok := h.hist
  locals_sorted cl hcl :=
    let ⟨c, hc⟩ := List.mem_iff_getElem?.1 hcl
    (h.clients.each c cl hc).sorted

/-! ## The register bank -/

section Bank

variable {s : State} (h : BankOk s.cfg s.cells s.statusVal)
include h

theorem BankOk.takeEffect (r : List Value × Nat) : BankOk s.cfg s.cells (s.takeEffect r).statusVal where
  cfg_wf := h.cfg_wf
  cells_wf := h.cells_wf
  length := (mergeStatus_length _ _ _).trans h.length
  fits := mergeStatus_fits _ _ _ h.fits

theorem BankOk.rdEffect (e : Effect) (r k : Nat) : BankOk s.cfg s.cells (s.rdEffect e r k).statusVal := by
  cases e with
  | identity => exact h
  | device id => exact h.takeEffect _

theorem BankOk.wrEffect (e : Effect) (r k : Nat) (b : Byte) : BankOk s.cfg s.cells (s.wrEffect e r k b).statusVal := by
  cases e with
  | identity => exact h
  | device id => exact h.takeEffect _

theorem BankOk.memRead (a : Nat) : BankOk s.cfg s.cells (s.memRead a).2.statusVal := by
  unfold State.memRead
  split
  · exact h.rdEffect _ _ _
  · exact h
  · exact h

theorem BankOk.setCell {r k : Nat} {reg : RegDesc} (hr : s.cfg.regs[r]? = some reg) (hk : k < reg.w.bytes)
    (hs : reg.kind = .storage) (b : Byte) : BankOk s.cfg (s.setCell reg k b).cells s.statusVal where
  cfg_wf := h.cfg_wf
  cells_wf := Memory.wf_set h.cells_wf (isStorage_slotAddr h.cfg_wf hr hk hs) b
  length := h.length
  fits := h.fits

/-- A hit on a STORAGE slot writes the cell and then runs the write effect; any other write changes nothing. -/
theorem BankOk.memWrite (a : Nat) (d : Word) : BankOk s.cfg (s.memWrite a d).cells (s.memWrite a d).statusVal := by
  unfold State.memWrite
  split
  · next r reg k hd =>
    obtain ⟨-, -, hr, hk, -⟩ := csrDecode_hit hd
    split
    · next hs =>
      rw [State.wrEffect_cells]
      exact BankOk.wrEffect (s := s.setCell reg k (wordByte d)) (h.setCell hr hk hs _) _ _ _ _
    · exact h
  · exact h
  · exact h

theorem BankOk.deviceEvent (r : Nat) (v : Value) : BankOk s.cfg s.cells (s.deviceEvent r v).statusVal := by
  unfold State.deviceEvent
  split
  · next reg hreg =>
    split
    · refine ⟨h.cfg_wf, h.cells_wf, List.length_set.trans h.length, fun r' reg' hr' => ?_⟩
      by_cases heq : r' = r
      · subst heq
        obtain rfl : reg' = reg := Option.some.inj (hr'.symm.trans hreg)
        exact set_fits _ _ _ _
      · simpa [List.getD_eq_getElem?_getD, List.getElem?_set_ne (Ne.symm heq)] using h.fits r' reg' hr'
    · exact h
  · exact h

end Bank

theorem BankOk.reset {c : Config} (hc : c.WellFormed) (e : Env) : BankOk c [] (drawStatus c.regs e).1 :=
  ⟨hc, Memory.wf_nil, drawStatus_length c.regs e, drawStatus_fits c.regs e⟩

/-! ## The lock, the attach state and the fault record -/

section Lock

variable {n owner client : Nat} {phase : Phase} {attach : Attach} {code : FaultCode}

/-- An admitted client takes the free lock (40 R100). -/
theorem LockOk.take {c : Nat} (h : LockOk n .idle owner attach code client) (hc : c < n)
    (ha : attach = .ready ∨ attach = .selftest ∧ c = selftestClient) : LockOk n .busy c attach code client where
  owner_lt _ := hc
  selftest_owner hs _ := by
    rcases ha with hr | ⟨-, hc⟩
    · rw [hr] at hs; cases hs
    · exact hc
  dead_idle hd := by rcases ha with hr | ⟨hr, -⟩ <;> rw [hr] at hd <;> cases hd
  faulted_iff := by simpa using h.faulted_iff
  dead_iff := h.dead_iff
  fault_client hf := by cases hf

/-- A fault of the sequencer keeps the lock and records its owner (60 R201). -/
theorem LockOk.fault {code' : FaultCode} (h : LockOk n .busy owner attach code client) (hcode : code'.ofSequencer = true) :
    LockOk n .faulted owner attach code' owner := by
  have hlive : attach ≠ .dead := fun hd => by cases h.dead_idle hd
  exact {
    owner_lt _ := h.owner_lt (by decide)
    selftest_owner hs _ := h.selftest_owner hs (by decide)
    dead_idle hd := absurd hd hlive
    faulted_iff := by simp [hcode]
    dead_iff := iff_of_false hlive (by rintro rfl; cases hcode)
    fault_client _ := rfl }

/-- Completion releases the lock (41 R134). -/
theorem LockOk.release (h : LockOk n .busy owner attach code client) : LockOk n .idle owner attach code client where
  owner_lt hp := absurd rfl hp
  selftest_owner _ hp := absurd rfl hp
  dead_idle _ := rfl
  faulted_iff := by simpa using h.faulted_iff
  dead_iff := h.dead_iff
  fault_client hf := by cases hf

/-- The self-test passes (43 R190). -/
theorem LockOk.passed (h : LockOk n phase owner .selftest code client) : LockOk n phase owner .ready code client where
  owner_lt := h.owner_lt
  selftest_owner hs := by cases hs
  dead_idle hd := by cases hd
  faulted_iff := h.faulted_iff
  dead_iff := by simpa using h.dead_iff
  fault_client := h.fault_client

/-- The self-test fails in phase IDLE (43 R190, 60 R206). -/
theorem LockOk.failed (owner client : Nat) : LockOk n .idle owner .dead .selftestMismatch client := by
  constructor <;> simp [FaultCode.ofSequencer]

theorem LockOk.reset : LockOk n .idle 0 .selftest .none 0 := by
  constructor <;> simp [FaultCode.ofSequencer]

end Lock

/-! ## The access in progress -/

/-- An accepted access has read nothing yet (40 R100). -/
theorem AccessOk.start (op : Op) (w : Width) {addr : Addr} (h : addr.toNat % 4 = 0) : AccessOk op w addr 0 0 :=
  ⟨Nat.zero_le _, h, fun _ _ _ => BitVec.getLsbD_zero⟩

/-- A beat changes the bits of its own byte only (40 R104). -/
theorem getLsbD_accumulate_of_outside (w : Width) {i j : Nat} (b : Byte) (acc : Value)
    (h : j < 8 * (w.bytes - 1 - i) ∨ 8 * (w.bytes - 1 - i) + 8 ≤ j) : (accumulate w i b acc).getLsbD j = acc.getLsbD j := by
  have hb : (b.setWidth 64 <<< (8 * (w.bytes - 1 - i))).getLsbD j = false := by
    rw [BitVec.getLsbD_shiftLeft, BitVec.getLsbD_setWidth]
    rcases h with h | h
    · simp [h]
    · rw [BitVec.getLsbD_of_ge b _ (by omega)]; simp
  rw [accumulate, BitVec.getLsbD_or, hb, Bool.or_false]

theorem AccessOk.readBeat {w : Width} {addr : Addr} {idx : BitVec 4} {acc : Value} (h : AccessOk .read w addr idx acc)
    (hl : idx.toNat < w.bytes) (b : Byte) : AccessOk .read w addr (idx + 1) (accumulate w idx.toNat b acc) := by
  refine ⟨by rw [idx_succ hl]; omega, h.aligned, fun _ j hj => ?_⟩
  rw [idx_succ hl] at hj
  rw [getLsbD_accumulate_of_outside w b acc (by omega)]
  exact h.acc_shape rfl j (by omega)

theorem AccessOk.writeBeat {w : Width} {addr : Addr} {idx : BitVec 4} {acc : Value} (h : AccessOk .write w addr idx acc)
    (hl : idx.toNat < w.bytes) : AccessOk .write w addr (idx + 1) acc :=
  ⟨by rw [idx_succ hl]; omega, h.aligned, fun ho => by cases ho⟩

/-! ## The clients -/

theorem ClientOk.req_none {active : Bool} {cl : Client} (h : ClientOk active cl) (hr : cl.rsp.isSome = true) : cl.req = none := by
  by_contra hq
  rw [(h.req_alone (Option.isSome_iff_ne_none.2 hq)).1] at hr
  cases hr

/-- A client that runs has no access in progress, or it would wait (43 R182). -/
theorem ClientOk.inactive_of_run {active : Bool} {cl : Client} (h : ClientOk active cl) (hr : cl.cstat = .run) : active = false := by
  by_contra ha
  have hw := h.wait_iff.2 (.inr (.inr (by simpa using ha)))
  rw [hr] at hw
  cases hw

/-- Acceptance takes the request of a client that waits for it alone (40 R100). -/
theorem ClientOk.clearReq {cl : Client} (h : ClientOk false cl) (hq : cl.req.isSome = true) : ClientOk true cl.clearReq where
  req_alone hn := by cases hn
  rsp_alone hr := by rw [show cl.clearReq.rsp = none from (h.req_alone hq).1] at hr; cases hr
  wait_iff := iff_of_true (h.wait_iff.2 (.inl hq)) (.inr (.inr rfl))
  sorted := h.sorted

/-- Completion gives the response to the client in progress, whose slots were EMPTY (40 R105). -/
theorem ClientOk.setRsp {cl : Client} (h : ClientOk true cl) (r : Response) : ClientOk false (cl.setRsp r) where
  req_alone hq := by cases (h.req_alone hq).2
  rsp_alone _ := rfl
  wait_iff := iff_of_true (h.wait_iff.2 (.inr (.inr rfl))) (.inr (.inl rfl))
  sorted := h.sorted

/-- A client with nothing outstanding issues a request (10 R26). -/
theorem ClientOk.issue {cl : Client} (h : ClientOk false cl) (hr : cl.rsp = none) (q : Request) :
    ClientOk false (cl.issue q) where
  req_alone _ := ⟨hr, rfl⟩
  rsp_alone _ := rfl
  wait_iff := iff_of_true rfl (.inl rfl)
  sorted := h.sorted

/-- A client that consumes its response has nothing outstanding (10 R26). -/
theorem ClientOk.release {active : Bool} {cl : Client} (h : ClientOk active cl) (hr : cl.rsp.isSome = true) :
    ClientOk active cl.release := by
  have hq := h.req_none hr
  obtain rfl := h.rsp_alone hr
  exact {
    req_alone _ := ⟨rfl, rfl⟩
    rsp_alone _ := rfl
    wait_iff := by simp [Client.release, hq]
    sorted := h.sorted }

/-- A statement issues a request, takes a response or leaves both slots and the waiting alone (43 R181 to R186). -/
theorem ClientOk.runStmt {active : Bool} {cl : Client} (h : ClientOk active cl) (cfg : Config) (p : Program) (st : Stmt) :
    ClientOk active (Client.runStmt cfg p st cl) := by
  have hs := locals_run cfg p st cl h.sorted
  obtain ⟨hreq, hrsp, -, hwait⟩ := runStmt_slots cfg p st cl
  rcases hreq with hreq | ⟨-, -, hrun, hissued, hwaits, hempty⟩
  · rcases hrsp with hrsp | ⟨hempty, hfull, -, hruns, -⟩
    · exact ⟨by rw [hreq, hrsp]; exact h.req_alone, by rw [hrsp]; exact h.rsp_alone,
        by rw [hreq, hrsp, hwait hreq hrsp]; exact h.wait_iff, hs⟩
    · have hnone := hreq.trans (h.req_none hfull)
      obtain rfl := h.rsp_alone hfull
      exact ⟨fun _ => ⟨hempty, rfl⟩, fun _ => rfl, by simp [hruns, hnone, hempty], hs⟩
  · have hidle := h.inactive_of_run hrun
    exact ⟨fun _ => ⟨hempty, hidle⟩, fun _ => hidle, iff_of_true hwaits (.inl hissued), hs⟩

theorem ClientsOk.modify {n : Nat} {cs : List Client} {lock lock' : Option Nat} {c : Nat} {f : Client → Client}
    (h : ClientsOk n cs lock) (hlock : ∀ i, i ≠ c → (lock' = some i ↔ lock = some i))
    (hf : ∀ cl, cs[c]? = some cl → ClientOk (decide (lock = some c)) cl → ClientOk (decide (lock' = some c)) (f cl)) :
    ClientsOk n (cs.modify c f) lock' := by
  refine ⟨by rw [List.length_modify]; exact h.length, fun i cl hi => ?_⟩
  by_cases hic : i = c
  · subst hic
    rw [List.getElem?_modify_eq] at hi
    obtain ⟨x, hx, rfl⟩ := Option.map_eq_some_iff.1 hi
    exact hf x hx (h.each i x hx)
  · rw [modify_ne _ _ hic] at hi
    rw [decide_eq_decide.2 (hlock i hic)]
    exact h.each i cl hi

theorem ClientsOk.reset {n : Nat} {progs : List (Option Program)} (h : progs.length = n) :
    ClientsOk n (progs.map Client.atReset) none := by
  refine ⟨by rw [List.length_map, h], fun c cl hc => ?_⟩
  rw [List.getElem?_map] at hc
  obtain ⟨p, -, rfl⟩ := Option.map_eq_some_iff.1 hc
  constructor <;> simp [Client.atReset, AssocSorted]

/-! ## The lock's owner -/

theorem lockOwner_idle {s : State} (h : s.phase = .idle) : s.lockOwner = none := if_pos h

theorem lockOwner_held {s : State} (h : s.phase ≠ .idle) : s.lockOwner = some s.owner := if_neg h

theorem lockOwner_congr {s t : State} (hp : t.phase = s.phase) (ho : t.owner = s.owner) : t.lockOwner = s.lockOwner := by
  rw [State.lockOwner, State.lockOwner, hp, ho]

theorem admitted_iff {s : State} {c : Nat} : s.admitted c = true ↔ s.attach = .ready ∨ s.attach = .selftest ∧ c = selftestClient :=
  decide_eq_true_iff

/-! ## The operations keep the invariant -/

section Operations

variable {s : State}

theorem State.InvParts.called (h : s.InvParts) : s.called.InvParts := ⟨⟨h.bank, h.lock, h.clients, h.hist⟩, h.access⟩

theorem State.InvParts.offered (h : s.InvParts) (c : Nat) : (s.offered c).InvParts :=
  ⟨⟨h.bank, h.lock, h.clients, h.hist⟩, h.access⟩

/-- Acceptance takes the lock and the request, whatever becomes of the access (40 R100). -/
theorem State.InvParts.takeLock {q : Request} (h : s.InvParts) (hi : s.phase = .idle) (ha : s.admitted s.grant = true)
    (hq : s.request s.grant = some q) : s.takeLock.InvFrame := by
  obtain ⟨cl, hcl, hreq⟩ := request_some hq
  have hlt : s.grant < s.cfg.nClients := by
    rw [← h.clients.length]
    exact (List.getElem?_eq_some_iff.1 hcl).1
  have hlock := h.lock
  have hclients := h.clients
  rw [hi] at hlock
  rw [lockOwner_idle hi] at hclients
  have htaken : s.takeLock.lockOwner = some s.grant := rfl
  refine ⟨h.bank, hlock.take hlt (admitted_iff.1 ha), htaken ▸ hclients.modify (fun i hne => ?_) (fun x hx hok => ?_), h.hist⟩
  · exact iff_of_false (fun he => hne (Option.some.inj he).symm) (by simp)
  · obtain rfl : x = cl := Option.some.inj (hx.symm.trans hcl)
    have hok : ClientOk false x := by simpa using hok
    simpa using hok.clearReq (by rw [hreq]; rfl)

/-- The sequencer's faults record the owner of the lock, which it keeps (60 R201). -/
theorem State.InvFrame.raiseFault {code : FaultCode} (h : s.InvFrame) (hb : s.phase = .busy) (hcode : code.ofSequencer = true)
    (p : BitVec 33) (i : BitVec 4) (d : Word) : (s.raiseFault code s.owner p i d).InvParts := by
  have hlock := h.lock
  have hclients := h.clients
  rw [hb] at hlock
  rw [lockOwner_held (by rw [hb]; decide)] at hclients
  exact ⟨⟨h.bank, hlock.fault hcode, hclients, h.hist⟩, fun hf => by cases hf⟩

theorem State.InvParts.acceptReserved {q : Request} (h : s.InvParts) (hi : s.phase = .idle) (ha : s.admitted s.grant = true)
    (hq : s.request s.grant = some q) : (s.acceptReserved q).InvParts :=
  (h.takeLock hi ha hq).raiseFault rfl rfl _ _ _

theorem State.InvParts.accept {q : Request} (h : s.InvParts) (hi : s.phase = .idle) (ha : s.admitted s.grant = true)
    (hq : s.request s.grant = some q) (op : Op) (w : Width) : (s.accept op w q).InvParts := by
  have hframe := h.takeLock hi ha hq
  rcases accept_cases s op w q with ⟨haligned, heq⟩ | ⟨-, heq⟩ <;> rw [heq]
  · exact ⟨⟨hframe.bank, hframe.lock, hframe.clients, hframe.hist⟩, fun _ => .start op w haligned⟩
  · exact hframe.raiseFault rfl rfl _ _ _

theorem State.InvParts.beatFault (h : s.InvParts) (hb : s.phase = .busy) : s.beatFault.InvParts :=
  h.toInvFrame.raiseFault hb rfl _ _ _

/-- The event of a mapped beat (20 R50, R61). -/
theorem State.InvParts.beatEvent (h : s.InvParts) (hb : s.phase = .busy) (hm : s.beatMapped = true) {kind : BusKind} {d : Word}
    (hd : kind = .pwrite → d.toNat < 256) : EventOk s.cfg ⟨s.owner, kind, BitVec.ofNat 32 s.beatAddr, d⟩ := by
  obtain ⟨hlt, hmap⟩ := beatMapped_iff.1 hm
  have haddr : (BitVec.ofNat 32 s.beatAddr).toNat = s.beatAddr := Nat.mod_eq_of_lt hlt
  have haligned : s.beatAddr % 4 = 0 := by
    have hbase : s.addr.toNat % 4 = 0 := (h.access hb).aligned
    change (s.addr.toNat + 4 * s.idx.toNat) % 4 = 0
    omega
  refine ⟨h.lock.owner_lt (by rw [hb]; decide), ?_, ?_, hd⟩ <;> rw [haddr]
  · exact haligned
  · exact hmap

theorem State.InvParts.readCycle (h : s.InvParts) (hb : s.phase = .busy) (ho : s.op = .read) (hl : s.beatsLeft = true)
    (hm : s.beatMapped = true) : s.readCycle.InvParts where
  bank := by
    rw [State.readCycle_cfg, State.readCycle_cells]
    exact h.bank.memRead _
  lock := by simpa using h.lock
  clients := by simpa [lockOwner_congr (s := s) (t := s.readCycle) (by simp) (by simp)] using h.clients
  hist := by
    rw [State.readCycle_cfg, readCycle_hist s hm, List.forall_mem_append, List.forall_mem_singleton]
    exact ⟨h.hist, h.beatEvent hb hm (fun hk => by cases hk)⟩
  access _ := by
    have hacc := h.access hb
    rw [ho] at hacc
    rw [State.readCycle_op, State.readCycle_w, State.readCycle_addr, readCycle_idx, ho]
    exact hacc.readBeat (beatsLeft_iff.1 hl) _

theorem State.InvParts.writeCycle (h : s.InvParts) (hb : s.phase = .busy) (ho : s.op = .write) (hl : s.beatsLeft = true)
    (hm : s.beatMapped = true) : s.writeCycle.InvParts where
  bank := by
    rw [State.writeCycle_cfg]
    exact h.bank.memWrite _ _
  lock := by simpa using h.lock
  clients := by simpa [lockOwner_congr (s := s) (t := s.writeCycle) (by simp) (by simp)] using h.clients
  hist := by
    rw [State.writeCycle_cfg, writeCycle_hist s ho hm, List.forall_mem_append, List.forall_mem_singleton]
    refine ⟨h.hist, h.beatEvent hb hm fun _ => ?_⟩
    rw [BitVec.toNat_setWidth_of_le (by decide)]
    exact (byteOf s.wdata (s.w.bytes - 1 - s.idx.toNat)).isLt
  access _ := by
    have hacc := h.access hb
    rw [ho] at hacc
    rw [State.writeCycle_op, State.writeCycle_w, State.writeCycle_addr, State.writeCycle_acc, writeCycle_idx, ho]
    exact hacc.writeBeat (beatsLeft_iff.1 hl)

theorem State.InvParts.complete (h : s.InvParts) (hb : s.phase = .busy) (r : Response) : (s.complete r).InvParts := by
  have hlock := h.lock
  have hclients := h.clients
  rw [hb] at hlock
  rw [lockOwner_held (by rw [hb]; decide)] at hclients
  refine ⟨⟨h.bank, hlock.release, hclients.modify (fun i hne => ?_) (fun x hx hok => ?_), h.hist⟩, fun hf => by cases hf⟩ <;>
    rw [lockOwner_idle (s := s.complete r) rfl]
  · exact iff_of_false (by simp) (fun he => hne (Option.some.inj he).symm)
  · have hok : ClientOk true x := by simpa using hok
    exact hok.setRsp r

theorem State.InvParts.sequencer {t : State} (h : s.InvParts) (hc : SequencerCase s t) : t.InvParts := by
  cases hc with
  | wait => exact h
  | reserved q e hi ha hq hd => exact h.acceptReserved hi ha hq
  | accept q op w hi ha hq hd => exact h.accept hi ha hq op w
  | fault hb hl hm => exact h.beatFault hb
  | read hb ho hl hm => exact h.readCycle hb ho hl hm
  | write hb ho hl hm => exact h.writeCycle hb ho hl hm
  | complete hb hw => exact h.complete hb s.result

/-- A change of one client that keeps what the invariant says of it keeps the invariant. -/
theorem State.InvParts.modifyClient {c : Nat} {f : Client → Client} (h : s.InvParts)
    (hf : ∀ cl, s.clients[c]? = some cl → ClientOk (s.inProgress c) cl → ClientOk (s.inProgress c) (f cl)) :
    (s.modifyClient c f).InvParts :=
  ⟨⟨h.bank, h.lock, h.clients.modify (fun _ _ => Iff.rfl) hf, h.hist⟩, h.access⟩

/-- While the self-test client runs on before its test has ended, the lock is free: it would be the owner and wait (10 R24). -/
theorem State.InvParts.idle_of_selftest_runs {cl : Client} (h : s.InvParts) (hs : s.attach = .selftest)
    (hcl : s.clients[selftestClient]? = some cl) (hr : cl.cstat = .run) : s.phase = .idle := by
  by_contra hp
  have hinactive := (h.clients.each selftestClient cl hcl).inactive_of_run hr
  rw [lockOwner_held hp, h.lock.selftest_owner hs hp] at hinactive
  simp at hinactive

/-- A running client ends the self-test or leaves the codec alone (43 R190). -/
theorem State.InvParts.attachEffect {c : Nat} {cl : Client} (h : s.InvParts) (hcl : s.clients[c]? = some cl)
    (hr : cl.cstat = .run) (st : Stmt) : (s.attachEffect c st).InvParts := by
  rcases attachEffect_cases s c st with heq | ⟨hs, rfl, heq⟩
  · rw [heq]; exact h
  · have hlock := h.lock
    rw [hs] at hlock
    rcases heq with heq | heq <;> rw [heq]
    · exact ⟨⟨h.bank, hlock.passed, h.clients, h.hist⟩, h.access⟩
    · have hi := h.idle_of_selftest_runs hs hcl hr
      refine ⟨⟨h.bank, ?_, h.clients, h.hist⟩, h.access⟩
      rw [State.attachDead_phase, hi]
      exact .failed _ _

theorem State.InvParts.client {t : State} {c : Nat} (h : s.InvParts) (hc : ClientCase s c t) : t.InvParts := by
  cases hc with
  | wait => exact h
  | run cl p ln hcl hp hs hl =>
    refine State.InvParts.modifyClient ?_ fun x _ hok => hok.runStmt s.cfg p ln.stmt
    split
    · next hr => exact h.attachEffect hcl hr ln.stmt
    · exact h

theorem State.InvParts.submit (h : s.InvParts) (c : Nat) (q : Request) : (s.submit c q).InvParts := by
  rcases submit_cases s c q with heq | ⟨-, -, hrsp, hidle, heq⟩ <;> rw [heq]
  · exact h
  · refine h.modifyClient fun cl hcl hok => ?_
    rw [hidle] at hok ⊢
    exact hok.issue (by simpa [State.response, hcl] using hrsp) q

theorem State.InvParts.consume (h : s.InvParts) (c : Nat) : (s.consume c).InvParts := by
  rcases consume_cases s c with heq | ⟨-, hrsp, heq⟩ <;> rw [heq]
  · exact h
  · exact h.modifyClient fun cl hcl hok => hok.release (by simpa [State.response, hcl] using hrsp)

theorem State.InvParts.deviceEvent (h : s.InvParts) (r : Nat) (v : Value) : (s.deviceEvent r v).InvParts where
  bank := by simpa using h.bank.deviceEvent r v
  lock := by simpa using h.lock
  clients := by simpa [lockOwner_congr (s := s) (t := s.deviceEvent r v) (by simp) (by simp)] using h.clients
  hist := by simpa using h.hist
  access := by simpa using h.access

theorem resetWith_invParts {c : Config} {progs : List (Option Program)} (hc : c.WellFormed) (hl : progs.length = c.nClients)
    (dev : Nat) (e : Env) : (State.resetWith c progs dev e).InvParts where
  bank := .reset hc e
  lock := .reset
  clients := .reset hl
  hist _ he := absurd he List.not_mem_nil
  access hb := by cases hb

end Operations

/-- Settles O60: whichever agent moves, its operation keeps the five parts of the invariant. -/
theorem stepKeepsInvariant : Obligations.StepKeepsInvariant := by
  intro s t hs hstep
  have h := hs.parts.called
  apply State.InvParts.inv
  cases step_cases hstep with
  | sequencer c t _ hc => exact (h.offered c).sequencer hc
  | client c t _ hc => exact h.client hc
  | submit c q => exact h.submit c q
  | consume c => exact h.consume c
  | device r v => exact h.deviceEvent r v
  | reset => exact resetWith_invParts h.bank.cfg_wf (by rw [List.length_map]; exact h.clients.length) _ _

/-- Settles O59. -/
theorem anyResetMeetsInvariant : Obligations.AnyResetMeetsInvariant := fun _ _ dev e hc hl =>
  (resetWith_invParts hc hl dev e).inv

/-- Settles O58: the example configuration is well formed and `State.reset` gives it its three clients. -/
theorem resetMeetsInvariant : Obligations.ResetMeetsInvariant :=
  anyResetMeetsInvariant _ _ _ _ (by decide) rfl

end Sys2Proof.Machine
end

section
/-! PROOFS. The statements of 10_state.md about single registers of the state: the slots (R26), the attach state (R24), the fault record
(R25) and the values at reset (R34). -/

namespace Sys2Proof.Machine

variable {s t : State}

/-! ## What a change of one client does to the slots -/

/-- A change of a client that leaves its request there leaves every request there. -/
theorem request_modify_keeps {c i : Nat} {f : Client → Client} {q : Request} (h : s.request c = some q)
    (hf : ∀ cl, s.clients[i]? = some cl → cl.req = some q → (f cl).req = some q) : (s.modifyClient i f).request c = some q := by
  rw [request_modify]
  split
  · next hci =>
    obtain ⟨cl, hcl, hreq⟩ := request_some h
    simpa [hcl] using hf cl (hci ▸ hcl) hreq
  · exact h

theorem response_modify_same (s : State) (c i : Nat) {f : Client → Client} (hf : ∀ cl : Client, (f cl).rsp = cl.rsp) :
    (s.modifyClient i f).response c = s.response c := by
  rw [response_modify]
  split
  · unfold State.response; cases s.clients[c]? <;> simp [hf]
  · rfl

/-- A change of a client that writes no response leaves no response that was not there. -/
theorem response_of_modify {c i : Nat} {f : Client → Client} {r : Response} (h : (s.modifyClient i f).response c = some r)
    (hf : ∀ cl : Client, (f cl).rsp = some r → cl.rsp = some r) : s.response c = some r := by
  rw [response_modify] at h
  split at h
  · next hci =>
    unfold State.response
    cases hs : s.clients[c]? with
    | none => simp [hs] at h
    | some x => simpa using hf x (by simpa [hs] using h)
  · exact h

theorem request_resetWith (c : Config) (progs : List (Option Program)) (dev : Nat) (e : Env) (i : Nat) :
    (State.resetWith c progs dev e).request i = none := by
  simp only [State.request, State.resetWith, List.getElem?_map]
  cases progs[i]? <;> rfl

theorem response_resetWith (c : Config) (progs : List (Option Program)) (dev : Nat) (e : Env) (i : Nat) :
    (State.resetWith c progs dev e).response i = none := by
  simp only [State.response, State.resetWith, List.getElem?_map]
  cases progs[i]? <;> rfl

/-! ## What the sequencer's move does to the lock and the slots -/

/-- An idle sequencer waits or accepts the request of an admitted client, which then owns the lock (40 R100). -/
theorem SequencerCase.waits_or_accepts (h : SequencerCase s t) (hi : s.phase = .idle) :
    t = s ∨ (s.admitted s.grant = true ∧ t.phase ≠ .idle ∧ t.owner = s.grant ∧
      t.clients = s.clients.modify s.grant Client.clearReq) := by
  cases h with
  | wait => exact .inl rfl
  | reserved q e _ ha hq hd => exact .inr ⟨ha, (nofun : Phase.faulted ≠ .idle), rfl, rfl⟩
  | accept q op w _ ha hq hd =>
    obtain ⟨-, -, -, hclients, -, -, -, -, -, howner, hphase, -⟩ := accept_facts s op w q
    exact .inr ⟨ha, hphase, howner, hclients⟩
  | fault hb _ _ | read hb _ _ _ | write hb _ _ _ | complete hb _ => cases hi.symm.trans hb

/-- A busy sequencer leaves every request where it is: a beat touches no client and completion no request. -/
theorem SequencerCase.request_of_not_idle {c : Nat} {q : Request} (h : SequencerCase s t) (hi : s.phase ≠ .idle)
    (hq : s.request c = some q) : t.request c = some q := by
  cases h with
  | wait => exact hq
  | reserved q e hi' _ _ _ | accept q op w hi' _ _ _ => exact absurd hi' hi
  | fault hb hl hm => exact hq
  | read hb ho hl hm => rw [request_congr s.readCycle_clients]; exact hq
  | write hb ho hl hm => rw [request_congr s.writeCycle_clients]; exact hq
  | complete hb hw => exact request_modify_keeps hq fun _ _ hreq => hreq

/-- A response slot is left alone but for completion, which writes the result into the owner's (40 R105). -/
theorem SequencerCase.response_kept_or_completed (h : SequencerCase s t) (c : Nat) : t.response c = s.response c ∨
    (s.phase = .busy ∧ s.idx.toNat = s.w.bytes ∧ c = s.owner ∧ t.phase = .idle ∧ t.response c = some s.result) := by
  have hkeep : (s.modifyClient s.grant Client.clearReq).response c = s.response c := response_modify_same s c _ fun _ => rfl
  cases h with
  | wait => exact .inl rfl
  | reserved q e hi ha hq hd => exact .inl hkeep
  | accept q op w hi ha hq hd =>
    obtain ⟨-, -, -, hclients, -⟩ := accept_facts s op w q
    exact .inl ((response_congr (s := s.modifyClient s.grant Client.clearReq) hclients c).trans hkeep)
  | fault hb hl hm => exact .inl rfl
  | read hb ho hl hm => exact .inl (response_congr s.readCycle_clients c)
  | write hb ho hl hm => exact .inl (response_congr s.writeCycle_clients c)
  | complete hb hw =>
    by_cases hc : c = s.owner
    · subst hc
      rcases Nat.lt_or_ge s.owner s.clients.length with hlt | hge
      · exact .inr ⟨hb, hw, rfl, rfl, complete_response s _ hlt⟩
      · refine .inl ?_
        simp [State.response, State.complete, State.modifyClient, hge]
    · exact .inl ((response_modify s c s.owner _).trans (if_neg hc))

/-! ## What a client's move does -/

theorem runStmt_keeps_request {cfg : Config} {p : Program} {st : Stmt} {cl : Client} {q : Request} (h : cl.req = some q) :
    (Client.runStmt cfg p st cl).req = some q := by
  obtain ⟨hreq, -⟩ := runStmt_slots cfg p st cl
  rcases hreq with hreq | ⟨hnone, -⟩
  · exact hreq.trans h
  · rw [h] at hnone; cases hnone

theorem runStmt_writes_no_response {cfg : Config} {p : Program} {st : Stmt} {cl : Client} {r : Response}
    (h : (Client.runStmt cfg p st cl).rsp = some r) : cl.rsp = some r := by
  obtain ⟨-, hrsp, -⟩ := runStmt_slots cfg p st cl
  rcases hrsp with hrsp | ⟨hnone, -⟩
  · exact hrsp.symm.trans h
  · rw [h] at hnone; cases hnone

/-- A move of client `c` from `s` to `t`, by its program or on its slots directly, that leaves the datapath, the history, the bank and
the other clients alone (10 R26, 43 R184 to R186). -/
structure OwnMove (s : State) (c : Nat) (t : State) : Prop where
  cfg : t.cfg = s.cfg
  grant : t.grant = s.grant
  phase : t.phase = s.phase
  held : t.held = s.held
  idx : t.idx = s.idx
  acc : t.acc = s.acc
  hist : t.hist = s.hist
  cells : t.cells = s.cells
  statusVal : t.statusVal = s.statusVal
  device : t.device = s.device
  others : ∀ c', c' ≠ c → t.clients[c']? = s.clients[c']?
  request : ∀ c' q, s.request c' = some q → t.request c' = some q
  response : ∀ c' r, t.response c' = some r → s.response c' = some r

theorem OwnMove.refl (s : State) (c : Nat) : OwnMove s c s :=
  ⟨rfl, rfl, rfl, rfl, rfl, rfl, rfl, rfl, rfl, rfl, fun _ _ => rfl, fun _ _ h => h, fun _ _ h => h⟩

theorem OwnMove.trans {u : State} {c : Nat} (h : OwnMove s c t) (h' : OwnMove t c u) : OwnMove s c u where
  cfg := h'.cfg.trans h.cfg
  grant := h'.grant.trans h.grant
  phase := h'.phase.trans h.phase
  held := h'.held.trans h.held
  idx := h'.idx.trans h.idx
  acc := h'.acc.trans h.acc
  hist := h'.hist.trans h.hist
  cells := h'.cells.trans h.cells
  statusVal := h'.statusVal.trans h.statusVal
  device := h'.device.trans h.device
  others c' hc := (h'.others c' hc).trans (h.others c' hc)
  request c' q hq := h'.request c' q (h.request c' q hq)
  response c' r hr := h.response c' r (h'.response c' r hr)

theorem OwnMove.modifyClient {c : Nat} {f : Client → Client}
    (hreq : ∀ cl q, s.clients[c]? = some cl → cl.req = some q → (f cl).req = some q)
    (hrsp : ∀ cl r, (f cl).rsp = some r → cl.rsp = some r) : OwnMove s c (s.modifyClient c f) :=
  ⟨rfl, rfl, rfl, rfl, rfl, rfl, rfl, rfl, rfl, rfl, fun _ hc => modify_ne _ _ hc,
    fun _ q hq => request_modify_keeps hq fun cl hcl => hreq cl q hcl, fun _ r hr => response_of_modify hr fun cl => hrsp cl r⟩

theorem OwnMove.attachEffect (s : State) (c : Nat) (st : Stmt) : OwnMove s c (s.attachEffect c st) := by
  constructor <;> simp [State.held, State.request, State.response]

theorem ClientCase.ownMove {c : Nat} (h : ClientCase s c t) : OwnMove s c t := by
  cases h with
  | wait => exact .refl s c
  | run cl p ln hcl hp hs hl =>
    have hend : OwnMove s c (if cl.cstat = .run then s.attachEffect c ln.stmt else s) := by
      split
      · exact .attachEffect s c ln.stmt
      · exact .refl s c
    exact hend.trans (.modifyClient (fun _ _ _ => runStmt_keeps_request) fun _ _ => runStmt_writes_no_response)

theorem ownMove_submit (s : State) (c : Nat) (q : Request) : OwnMove s c (s.submit c q) := by
  rcases submit_cases s c q with heq | ⟨-, hnone, -, -, heq⟩ <;> rw [heq]
  · exact .refl s c
  · refine .modifyClient (fun cl q' hcl hreq => ?_) fun _ _ hrsp => hrsp
    simp [State.request, hcl, hreq] at hnone

theorem ownMove_consume (s : State) (c : Nat) : OwnMove s c (s.consume c) := by
  rcases consume_cases s c with heq | ⟨-, -, heq⟩ <;> rw [heq]
  · exact .refl s c
  · exact .modifyClient (fun _ _ _ hreq => hreq) fun _ _ hrsp => by cases hrsp

/-- A client's move empties no slot but its own. -/
theorem OwnMove.emptied {c c' : Nat} {r : Response} (h : OwnMove s c' t) (hr : s.response c = some r)
    (hnone : t.response c = none) : c' = c := by
  by_contra hne
  unfold State.response at hr hnone
  rw [h.others c (Ne.symm hne), hr] at hnone
  cases hnone

theorem submit_response (s : State) (c c' : Nat) (q : Request) : (s.submit c' q).response c = s.response c := by
  rcases submit_cases s c' q with heq | ⟨-, -, -, -, heq⟩ <;> rw [heq]
  exact response_modify_same s c c' fun _ => rfl

/-- A move of a client's program touches the attach state and the record only where the self-test client runs on in its test (43 R190). -/
theorem ClientCase.record_kept_or_selftest {c : Nat} (h : ClientCase s c t) : t.attach = s.attach ∧ t.faultRecord = s.faultRecord ∨
    (s.attach = .selftest ∧ c = selftestClient ∧ ∃ cl, s.clients[c]? = some cl ∧ cl.cstat = .run) := by
  cases h with
  | wait => exact .inl ⟨rfl, rfl⟩
  | run cl p ln hcl hp hs hl =>
    split
    · next hr =>
      rcases attachEffect_cases s c ln.stmt with heq | ⟨hs, hc, -⟩
      · rw [heq]; exact .inl ⟨rfl, rfl⟩
      · exact .inr ⟨hs, hc, cl, hcl, hr⟩
    · exact .inl ⟨rfl, rfl⟩

theorem submit_faultRecord (s : State) (c : Nat) (q : Request) : (s.submit c q).faultRecord = s.faultRecord := by
  simp [State.faultRecord]

theorem consume_faultRecord (s : State) (c : Nat) : (s.consume c).faultRecord = s.faultRecord := by
  simp [State.faultRecord]

theorem deviceEvent_faultRecord (s : State) (r : Nat) (v : Value) : (s.deviceEvent r v).faultRecord = s.faultRecord := by
  simp [State.faultRecord]

/-! ## The slots (10 R26) -/

/-- Settles O32: an idle sequencer takes the request of the client it accepts, and no other move takes one. -/
theorem requestLeavesOnlyByAcceptance : Obligations.RequestLeavesOnlyByAcceptance := by
  intro s t c q hreset hstep hq
  cases step_cases hstep with
  | sequencer c' t hm hc =>
    by_cases hi : s.phase = .idle
    · rcases hc.waits_or_accepts hi with rfl | ⟨ha, hphase, howner, hclients⟩
      · exact .inl hq
      · have hreq : t.request c = if c = c' then ((s.clients[c]?).map Client.clearReq).bind Client.req else s.request c :=
          (request_congr (s := s.modifyClient c' Client.clearReq) hclients c).trans (request_modify s c c' _)
        by_cases hcc : c = c'
        · subst hcc
          rw [if_pos rfl] at hreq
          refine .inr ⟨hreq.trans ?_, hm, hi, ha, ?_⟩
          · cases s.clients[c]? <;> rfl
          · rw [lockOwner_held hphase, howner]; rfl
        · exact .inl (hreq.trans ((if_neg hcc).trans hq))
    · exact .inl (hc.request_of_not_idle hi hq)
  | client c' t _ hc => exact .inl (hc.ownMove.request c q hq)
  | submit c' q' => exact .inl ((ownMove_submit _ c' q').request c q hq)
  | consume c' => exact .inl ((ownMove_consume _ c').request c q hq)
  | device r v => exact .inl ((request_congr (State.deviceEvent_clients _ r v) c).trans hq)
  | reset hm => exact absurd hm hreset

/-- Settles O33: of all moves only completion writes a response slot, and only the client's own moves empty one. -/
theorem responseOnlyByCompletion : Obligations.ResponseOnlyByCompletion := by
  intro s t c hstep
  cases step_cases hstep with
  | sequencer c' t _ hc =>
    rcases hc.response_kept_or_completed c with hkeep | ⟨hb, hw, hown, hidle, hwritten⟩
    · exact ⟨fun r hr hne => absurd (hkeep.symm.trans hr) hne, fun r _ hr hnone => by cases hnone.symm.trans (hkeep.trans hr)⟩
    · refine ⟨fun r hr _ => ⟨hb, hw, hown, hidle, ?_⟩, fun r _ _ hnone => by cases hnone.symm.trans hwritten⟩
      exact Option.some.inj (hr.symm.trans hwritten)
  | client c' t hm hc =>
    refine ⟨fun r hr hne => absurd (hc.ownMove.response c r hr) hne, fun r _ hr hnone => .inl ?_⟩
    rw [hm, hc.ownMove.emptied hr hnone]
  | submit c' q' =>
    have hkeep := submit_response s.called c c' q'
    exact ⟨fun r hr hne => absurd (hkeep.symm.trans hr) hne, fun r _ hr hnone => by cases hnone.symm.trans (hkeep.trans hr)⟩
  | consume c' hm =>
    have hown := ownMove_consume s.called c'
    refine ⟨fun r hr hne => absurd (hown.response c r hr) hne, fun r _ hr hnone => .inr ?_⟩
    rw [hm, hown.emptied hr hnone]
  | device r' v =>
    have hkeep := response_congr (State.deviceEvent_clients s.called r' v) c
    exact ⟨fun r hr hne => absurd (hkeep.symm.trans hr) hne, fun r _ hr hnone => by cases hnone.symm.trans (hkeep.trans hr)⟩
  | reset hm =>
    exact ⟨fun r hr _ => (by cases (response_resetWith ..).symm.trans hr), fun _ hreset => absurd hm hreset⟩

/-! ## A client without a program (10 R26, log 10) -/

section Direct

variable {c : Nat} {cl : Client} (hcl : s.clients[c]? = some cl) (hp : cl.prog = none)
include hcl hp

theorem submit_eq (q : Request) : s.submit c q =
    if cl.req = none ∧ cl.rsp = none ∧ s.lockOwner ≠ some c then s.modifyClient c (Client.issue q) else s := by
  simp [State.submit, State.direct, State.request, State.response, State.inProgress, hcl, hp, and_assoc]

theorem consume_eq : s.consume c = if cl.rsp = none then s else s.modifyClient c Client.release := by
  cases hr : cl.rsp <;> simp [State.consume, State.direct, State.response, hcl, hp, hr]

end Direct

/-- Settles O55: the step is the client's submission or consumption, which replaces that client where it is enabled. -/
theorem submitOnlyWhenNothingOutstanding : Obligations.SubmitOnlyWhenNothingOutstanding := by
  intro s c rest cl hw hcl hp
  refine ⟨fun q ha => ?_, fun ha => ?_⟩ <;>
    (obtain ⟨hmove, hcalled⟩ := nextMove_of_agenda ha
     rw [step_eq hw, hmove, hcalled])
  · change Host.Outcome.next (State.submit _ c q) = _
    rw [submit_eq (s := { s with env := { s.env with agenda := rest } }) hcl hp, withClient_eq _ hcl]
    rfl
  · change Host.Outcome.next (State.consume _ c) = _
    rw [consume_eq (s := { s with env := { s.env with agenda := rest } }) hcl hp, withClient_eq _ hcl]
    rfl

/-- Settles O53: each of the three moves is one of the client's own, and of them only a program's touches the attach state or the
record. -/
theorem clientMovesLeaveTheCodec : Obligations.ClientMovesLeaveTheCodec := by
  intro s t c hmove hstep
  have hboth : OwnMove s.called c t ∧ (¬ (s.attach = .selftest ∧ c = selftestClient ∧ s.nextMove = .client c) →
      t.attach = s.attach ∧ t.faultRecord = s.faultRecord) := by
    cases step_cases hstep with
    | client c' t hm hc =>
      obtain rfl : c' = c := by simpa [hm] using hmove
      refine ⟨hc.ownMove, fun hn => ?_⟩
      rcases hc.record_kept_or_selftest with hkeep | ⟨hs, hself, -⟩
      · exact hkeep
      · exact absurd ⟨hs, hself, hm⟩ hn
    | submit c' q hm =>
      obtain rfl : c' = c := by simpa [hm] using hmove
      exact ⟨ownMove_submit _ c' q, fun _ => ⟨State.submit_attach _ c' q, submit_faultRecord _ c' q⟩⟩
    | consume c' hm =>
      obtain rfl : c' = c := by simpa [hm] using hmove
      exact ⟨ownMove_consume _ c', fun _ => ⟨State.consume_attach _ c', consume_faultRecord _ c'⟩⟩
    | sequencer c' t hm _ | device r v hm | reset hm => simp [hm] at hmove
  obtain ⟨hown, hrecord⟩ := hboth
  exact ⟨hown.cfg, hown.grant, hown.phase, hown.held, hown.idx, hown.acc, hown.hist, hown.cells, hown.statusVal, hown.device,
    hown.others, hrecord⟩

/-! ## The attach state and the fault record (10 R24, R25) -/

theorem not_admitted_of_dead {c : Nat} (hd : s.attach = .dead) : ¬ s.admitted c = true := by
  simp [State.admitted, hd]

/-- A sequencer that is FAULTED, or that serves a dead codec, makes no step (60 R206, R208). -/
theorem SequencerCase.eq_of_stopped (h : SequencerCase s t) (hs : s.phase = .faulted ∨ s.attach = .dead ∧ s.phase = .idle) : t = s := by
  rcases hs with hf | ⟨hd, hi⟩
  · cases h with
    | wait => rfl
    | reserved q e hi _ _ _ | accept q op w hi _ _ _ => cases hf.symm.trans hi
    | fault hb _ _ | read hb _ _ _ | write hb _ _ _ | complete hb _ => cases hf.symm.trans hb
  · rcases h.waits_or_accepts hi with rfl | ⟨ha, -⟩
    · rfl
    · exact absurd ha (not_admitted_of_dead hd)

/-- Only a FAULTED or a dead codec holds a fault code (10 R25). -/
theorem LockOk.stopped_of_code {n owner client : Nat} {phase : Phase} {attach : Attach} {code : FaultCode}
    (h : LockOk n phase owner attach code client) (hc : code ≠ .none) : phase = .faulted ∨ attach = .dead ∧ phase = .idle := by
  cases code with
  | none => exact absurd rfl hc
  | selftestMismatch => exact .inr ⟨h.dead_iff.2 rfl, h.dead_idle (h.dead_iff.2 rfl)⟩
  | reservedEncoding | misaligned | unmapped => exact .inl (h.faulted_iff.2 rfl)

/-- Settles O37: a codec that holds a record is FAULTED or dead, so its sequencer waits, and the self-test, which has the only other
access to the record, has ended or waits for ever. -/
theorem faultRecordWrittenOnce : Obligations.FaultRecordWrittenOnce := by
  intro s t hinv hcode hreset hstep
  have hparts := hinv.parts.called
  have hstopped : s.phase = .faulted ∨ s.attach = .dead ∧ s.phase = .idle := hparts.lock.stopped_of_code hcode
  cases step_cases hstep with
  | sequencer c t _ hc => rw [hc.eq_of_stopped hstopped]; rfl
  | client c t _ hc =>
    rcases hc.record_kept_or_selftest with ⟨-, hkeep⟩ | ⟨hs, rfl, cl, hcl, hr⟩
    · exact hkeep
    · have hi : s.phase = .idle := hparts.idle_of_selftest_runs hs hcl hr
      rcases hstopped with hf | ⟨hd, -⟩
      · cases hf.symm.trans hi
      · cases hd.symm.trans hs
  | submit c q => exact submit_faultRecord _ c q
  | consume c => exact consume_faultRecord _ c
  | device r v => exact deviceEvent_faultRecord _ r v
  | reset hm => exact absurd hm hreset

/-- Settles O36: no client is admitted, so the sequencer waits, and O32 and O37 give the requests and the record. -/
theorem deadServesNobody : Obligations.DeadServesNobody := by
  intro s t hinv hd hreset hstep
  have hi := hinv.dead_idle hd
  have hcode : s.faultCode ≠ .none := by rw [hinv.dead_iff.1 hd]; decide
  have hcodec : t.attach = s.attach ∧ t.phase = s.phase ∧ t.hist = s.hist := by
    cases step_cases hstep with
    | sequencer c t _ hc => rw [hc.eq_of_stopped (.inr ⟨hd, hi⟩)]; exact ⟨rfl, rfl, rfl⟩
    | client c t _ hc =>
      refine ⟨?_, hc.ownMove.phase, hc.ownMove.hist⟩
      rcases hc.record_kept_or_selftest with ⟨hkeep, -⟩ | ⟨hs, -⟩
      · exact hkeep
      · cases hd.symm.trans hs
    | submit c q => exact ⟨State.submit_attach _ c q, State.submit_phase _ c q, State.submit_hist _ c q⟩
    | consume c => exact ⟨State.consume_attach _ c, State.consume_phase _ c, State.consume_hist _ c⟩
    | device r v => exact ⟨State.deviceEvent_attach _ r v, State.deviceEvent_phase _ r v, State.deviceEvent_hist _ r v⟩
    | reset hm => exact absurd hm hreset
  obtain ⟨hattach, hphase, hhist⟩ := hcodec
  refine ⟨hattach.trans hd, hphase.trans hi, hhist, faultRecordWrittenOnce s t hinv hcode hreset hstep, fun c q hq => ?_⟩
  rcases requestLeavesOnlyByAcceptance s t c q hreset hstep hq with hkeep | ⟨-, -, -, ha, -⟩
  · exact hkeep
  · exact absurd ha (not_admitted_of_dead hd)

/-- Settles O38: only acceptance leaves IDLE, and in SELFTEST it admits the self-test client alone. -/
theorem selftestGatesPeers : Obligations.SelftestGatesPeers := by
  intro s t hs hi hstep hleft
  cases step_cases hstep with
  | sequencer c t hm hc =>
    rcases hc.waits_or_accepts hi with rfl | ⟨ha, -, howner, -⟩
    · exact absurd hi hleft
    · rcases admitted_iff.1 ha with hr | ⟨-, hself⟩
      · cases hs.symm.trans hr
      · obtain rfl : c = selftestClient := hself
        exact ⟨hm, howner⟩
  | client c t _ hc => exact absurd (hc.ownMove.phase.trans hi) hleft
  | submit c q => exact absurd ((State.submit_phase s.called c q).trans hi) hleft
  | consume c => exact absurd ((State.consume_phase s.called c).trans hi) hleft
  | device r v => exact absurd ((State.deviceEvent_phase s.called r v).trans hi) hleft
  | reset => exact absurd rfl hleft

/-! ## Reset (10 R34) -/

/-- Settles O57: the scratch register's four cells are unlisted, so they hold the bytes of its reset value, which is EXPECTED. -/
theorem resetValues : Obligations.ResetValues := by
  refine ⟨rfl, rfl, rfl, rfl, rfl, fun c => ⟨request_resetWith .., response_resetWith ..⟩, fun reg hreg => ?_⟩
  obtain rfl := Option.some.inj hreg
  decide

end Sys2Proof.Machine
end

section
/-! PROOFS. The statements of 20_memory.md: the cycles of 20 R56, R57, and LWRITE as a whole (R52). A run of an access is its
acceptance, its beats and its completion; each is one lemma about a state that is `n` beats into the access. -/

namespace Sys2Proof.Machine

/-! ## Driven cycles -/

theorem cmdWord_lanes (we : BitVec 1) : (cmdWord we).extractLsb' 0 4 = 0b1111#4 := by
  revert we; decide

theorem byteWord_upper (b : Byte) : (byteWord b).extractLsb' 8 24 = 0 := by
  ext j hj
  simp [byteWord]

/-- The data word is one zero-extended byte for a write and zero for a read (30 R87, R88). -/
theorem busCycle_data (s : State) :
    s.busCycle.datW.extractLsb' 8 24 = 0 ∧ (s.busCycle.cmd.getLsbD 4 = false → s.busCycle.datW = 0) := by
  cases ho : s.op with
  | read => simp [State.busCycle, ho]
  | write =>
    have hcmd : s.busCycle.cmd.getLsbD 4 = true := by simp only [State.busCycle, ho]; decide
    have hdat : s.busCycle.datW = byteWord s.beatByte := by rw [State.busCycle, ho]
    exact ⟨hdat ▸ byteWord_upper s.beatByte, fun hread => by rw [hcmd] at hread; cases hread⟩

/-- Settles O18: the driven address is the beat's, which is a multiple of 4 beyond an aligned base. -/
theorem drivenCyclesAreWellFormed : Obligations.DrivenCyclesAreWellFormed := by
  intro s hs hb _ hok
  have haddr : s.busCycle.adr.toNat = s.addr.toNat + 4 * s.idx.toNat := busCycle_adr hok.1
  have hbase : s.addr.toNat % 4 = 0 := hs.addr_aligned hb
  refine ⟨⟨cmdWord_lanes _, ?_, busCycle_data s⟩, haddr⟩
  change s.busCycle.adr.toNat % 4 = 0
  omega

/-! ## Scheduled sequencer steps -/

section Runs

variable {s t u : State} {c : Nat} {ms : List Move}

theorem State.InvParts.scheduled (h : s.InvParts) (ms : List Move) : (s.scheduled ms).InvParts :=
  ⟨⟨h.bank, h.lock, h.clients, h.hist⟩, h.access⟩

theorem State.Offers.scheduled {q : Request} (h : s.Offers c q) (ms : List Move) : (s.scheduled ms).Offers c q :=
  ⟨h.idle, h.admitted, h.request⟩

/-- A run is extended by a step at its end. -/
theorem after_snoc {k : Nat} (h : s.after k = .next t) (hstep : step t = .next u) : s.after (k + 1) = .next u := by
  rw [after_add h, after_succ hstep, after_zero]

/-- The step of a scheduled sequencer is its move in the state with the choice taken and the client offered. -/
theorem step_offered (hw : s.cfg.WellFormed) (ha : s.env.agenda = .sequencer c :: ms) :
    step s = (s.called.offered c).sequencerMove := by
  rw [step_sequencer hw ha, (nextMove_of_agenda ha).2]
  rfl

theorem called_agenda {m : Move} (ha : s.env.agenda = m :: ms) : s.called.env.agenda = ms := by
  rw [(nextMove_of_agenda ha).2]

end Runs

/-! ## An access in progress and an access done -/

/-- `u` is `n` beats into the access `op`, `w` that the request `q` of client `c` asked for in `s`, with the schedule `ms` left. -/
structure AccessRun (s : State) (c : Nat) (q : Request) (op : Op) (w : Width) (n : Nat) (ms : List Move) (u : State) : Prop where
  parts : u.InvParts
  agenda : u.env.agenda = ms
  cfg : u.cfg = s.cfg
  busy : u.phase = .busy
  owner : u.owner = c
  kind : u.op = op
  width : u.w = w
  base : u.addr = q.addr
  data : u.wdata = q.wdata
  idx : u.idx.toNat = n
  clients : u.clients = s.clients.modify c Client.clearReq
  attach : u.attach = s.attach
  record : u.faultRecord = s.faultRecord

/-- `t` is `s` with the access of client `c` done and answered by `r`, with the schedule `ms` left. -/
structure AccessDone (s : State) (c : Nat) (r : Response) (ms : List Move) (t : State) : Prop where
  parts : t.InvParts
  agenda : t.env.agenda = ms
  cfg : t.cfg = s.cfg
  idle : t.phase = .idle
  clients : t.clients = (s.clients.modify c Client.clearReq).modify c (Client.setRsp r)
  attach : t.attach = s.attach
  record : t.faultRecord = s.faultRecord
  response : t.response c = some r

section Access

variable {s u t : State} {c : Nat} {q : Request} {op : Op} {w : Width} {n : Nat} {r : Response} {ms : List Move}

theorem AccessDone.request (h : AccessDone s c r ms t) : t.request c = none := by
  have hreq : ∀ cl : Client, (cl.clearReq.setRsp r).req = none := fun _ => rfl
  rw [State.request, h.clients, List.modify_modify_eq, List.getElem?_modify_eq]
  cases s.clients[c]? <;> simp [hreq]

theorem AccessDone.others (h : AccessDone s c r ms t) {c' : Nat} (hne : c' ≠ c) : t.clients[c']? = s.clients[c']? := by
  rw [h.clients, modify_ne _ _ hne, modify_ne _ _ hne]

/-- Acceptance begins the access, before its first beat, and leaves the bus and the register bank alone (40 R100). -/
theorem step_accepts (hs : s.InvParts) (ho : s.Offers c q) (hd : q.desc = ldescOf op w) (h4 : q.addr.toNat % 4 = 0)
    (ha : s.env.agenda = .sequencer c :: ms) :
    ∃ u, step s = .next u ∧ AccessRun s c q op w 0 ms u ∧ u.hist = s.hist ∧ u.cells = s.cells := by
  obtain ⟨hi, hadm, hreq⟩ := ho
  have hstep := step_offered hs.bank.cfg_wf ha
  rw [sequencerMove_accept (s := s.called.offered c) hi hadm hreq hd] at hstep
  have hparts := (hs.called.offered c).accept hi hadm hreq op w
  rw [accept_aligned h4] at hstep hparts
  exact ⟨_, hstep, ⟨hparts, called_agenda ha, rfl, rfl, rfl, rfl, rfl, rfl, rfl, rfl, rfl, rfl, rfl⟩, rfl, rfl⟩

/-- The state in which a scheduled sequencer makes its move is as far into the access. -/
theorem AccessRun.offered (h : AccessRun s c q op w n (.sequencer c :: ms) u) :
    AccessRun s c q op w n ms (u.called.offered c) :=
  { h with parts := h.parts.called.offered c, agenda := called_agenda h.agenda }

/-- The address of the next beat (20 R51). -/
theorem AccessRun.beatAddr (h : AccessRun s c q op w n ms u) : u.beatAddr = q.addr.toNat + 4 * n := by
  rw [State.beatAddr, h.base, h.idx]

theorem AccessRun.beatMapped (h : AccessRun s c q op w n ms u) (hok : beatOk s.cfg q.addr n) : u.beatMapped = true := by
  rw [beatMapped_iff, h.beatAddr, h.cfg]
  exact hok

theorem AccessRun.beatsLeft (h : AccessRun s c q op w n ms u) (hn : n < w.bytes) : u.beatsLeft = true := by
  rw [beatsLeft_iff, h.idx, h.width]
  exact hn

/-- The cycle of a write beat takes the access one beat on (40 R103). -/
theorem AccessRun.writeCycle (h : AccessRun s c q .write w n ms u) (hn : n < w.bytes) (hok : beatOk s.cfg q.addr n) :
    AccessRun s c q .write w (n + 1) ms u.writeCycle where
  parts := h.parts.writeCycle h.busy h.kind (h.beatsLeft hn) (h.beatMapped hok)
  agenda := by rw [State.writeCycle_env]; exact h.agenda
  cfg := by rw [State.writeCycle_cfg]; exact h.cfg
  busy := by rw [State.writeCycle_phase]; exact h.busy
  owner := by rw [State.writeCycle_owner]; exact h.owner
  kind := by rw [State.writeCycle_op]; exact h.kind
  width := by rw [State.writeCycle_w]; exact h.width
  base := by rw [State.writeCycle_addr]; exact h.base
  data := by rw [State.writeCycle_wdata]; exact h.data
  idx := by rw [writeCycle_idx, idx_succ (beatsLeft_iff.1 (h.beatsLeft hn)), h.idx]
  clients := by rw [State.writeCycle_clients]; exact h.clients
  attach := by rw [State.writeCycle_attach]; exact h.attach
  record := by simpa [State.faultRecord] using h.record

/-- After its last beat the access completes: the bus and the register bank stay as they are (40 R105). -/
theorem AccessRun.completes (h : AccessRun s c q op w w.bytes (.sequencer c :: ms) u) :
    ∃ t, step u = .next t ∧ AccessDone s c u.result ms t ∧ t.hist = u.hist ∧ t.cells = u.cells := by
  have hv := h.offered
  have hstep := step_offered h.parts.bank.cfg_wf h.agenda
  rw [sequencerMove_complete hv.busy (by rw [hv.idx, hv.width])] at hstep
  have hlt : (u.called.offered c).owner < (u.called.offered c).clients.length := by
    rw [hv.parts.clients.length]
    exact hv.parts.lock.owner_lt (by rw [hv.busy]; decide)
  have hrsp := complete_response _ (u.called.offered c).result hlt
  rw [hv.owner] at hrsp
  have hclients : ((u.called.offered c).complete u.result).clients =
      (s.clients.modify c Client.clearReq).modify c (Client.setRsp u.result) := by
    rw [← hv.clients, ← hv.owner]; rfl
  exact ⟨_, hstep, ⟨hv.parts.complete hv.busy _, hv.agenda, hv.cfg, rfl, hclients, hv.attach, hv.record, hrsp⟩, rfl, rfl⟩

end Access

/-! ## What write cycles store -/

/-- The cell an aligned write cycle stores to is the one at its address (42 R153). -/
theorem storedAddr_aligned {cfg : Config} (hw : cfg.WellFormed) {a x : Nat} (h4 : a % 4 = 0) (h : storedAddr cfg a = some x) : x = a := by
  unfold storedAddr at h
  split at h
  · next r reg k hd =>
    split at h
    · rw [← slotAddr_of_hit hw hd h4]
      exact (Option.some.inj h).symm
    · cases h
  · cases h

/-- A write cycle leaves the byte it carries in the STORAGE word it goes to (42 R156). -/
theorem memWrite_get_storage {s : State} (hb : BankOk s.cfg s.cells s.statusVal) {a : Nat} (h4 : a % 4 = 0)
    (h : storageWord s.cfg a) (b : Byte) : Memory.get s.cfg (s.memWrite a (byteWord b)).cells a = b := by
  obtain ⟨r, reg, k, hd, hk⟩ := h
  have hbyte : (byteWord b).extractLsb' 0 8 = b := wordByte_byteWord b
  rw [memWrite_storage hd hk, hbyte, State.wrEffect_cells]
  change Memory.get s.cfg (Memory.set s.cfg s.cells (slotAddr s.cfg reg k) b) a = b
  rw [slotAddr_of_hit hb.cfg_wf hd h4]
  exact Memory.get_set_same hb.cells_wf a b

/-- `m'` is the bank `m` after the first `n` cycles of a `w`-byte write of `v` at `a`: each STORAGE word reached holds its byte, and
each cell that no cycle stores to is as before (20 R52, 42 R156). -/
structure BytesStored (cfg : Config) (a : Addr) (w : Width) (v : Value) (n : Nat) (m m' : Memory) : Prop where
  stored : ∀ i < n, storageWord cfg (a.toNat + 4 * i) → Memory.get cfg m' (a.toNat + 4 * i) = byteOf v (w.bytes - 1 - i)
  kept : ∀ x, (∀ i < n, storedAddr cfg (a.toNat + 4 * i) ≠ some x) → Memory.get cfg m' x = Memory.get cfg m x

theorem BytesStored.zero (cfg : Config) (a : Addr) (w : Width) (v : Value) (m : Memory) : BytesStored cfg a w v 0 m m :=
  ⟨fun _ hi => absurd hi (Nat.not_lt_zero _), fun _ _ => rfl⟩

/-- The next cycle stores its own byte and none of the earlier ones is lost: the words are 4 bytes apart. -/
theorem BytesStored.memWrite {s : State} {a : Addr} {w : Width} {v : Value} {n : Nat} {m : Memory}
    (h : BytesStored s.cfg a w v n m s.cells) (hb : BankOk s.cfg s.cells s.statusVal) (h4 : a.toNat % 4 = 0) :
    BytesStored s.cfg a w v (n + 1) m (s.memWrite (a.toNat + 4 * n) (byteWord (byteOf v (w.bytes - 1 - n)))).cells where
  stored i hi hst := by
    rcases Nat.lt_succ_iff_lt_or_eq.1 hi with hlt | rfl
    · rw [memWrite_get _ _ _ _ fun hx => ?_]
      · exact h.stored i hlt hst
      · have := storedAddr_aligned hb.cfg_wf (by omega) hx
        omega
    · exact memWrite_get_storage hb (by omega) hst _
  kept x hx := by
    rw [memWrite_get _ _ _ _ (hx n (Nat.lt_succ_self n))]
    exact h.kept x fun i hi => hx i (Nat.lt_succ_of_lt hi)

/-! ## LWRITE as a whole -/

theorem writeEvents_succ (c : Nat) (a : Addr) (w : Width) (v : Value) (n : Nat) : writeEvents c a w v (n + 1) =
    writeEvents c a w v n ++ [⟨c, .pwrite, BitVec.ofNat 32 (a.toNat + 4 * n), byteWord (byteOf v (w.bytes - 1 - n))⟩] := by
  rw [writeEvents, List.range_succ, List.map_append]
  rfl

/-- `u` is `n` beats into a write: their events stand in the history and their bytes in the bank (40 R103). -/
structure WriteRun (s : State) (c : Nat) (q : Request) (w : Width) (n : Nat) (ms : List Move) (u : State) : Prop
    extends AccessRun s c q .write w n ms u where
  hist : u.hist = s.hist ++ writeEvents c q.addr w q.wdata n
  bank : BytesStored s.cfg q.addr w q.wdata n s.cells u.cells

section Write

variable {s u : State} {c : Nat} {q : Request} {w : Width} {ms : List Move} (h4 : q.addr.toNat % 4 = 0)
include h4

/-- A write beat at a mapped word (40 R103). -/
theorem WriteRun.beat {n : Nat} (h : WriteRun s c q w n (.sequencer c :: ms) u) (hn : n < w.bytes)
    (hok : beatOk s.cfg q.addr n) : ∃ t, step u = .next t ∧ WriteRun s c q w (n + 1) ms t := by
  have hv := h.offered
  have hm := hv.beatMapped hok
  have hstep := step_offered h.parts.bank.cfg_wf h.agenda
  rw [sequencerMove_write hv.busy hv.kind (hv.beatsLeft hn) hm] at hstep
  have hcycle := writeCycle_eq _ hv.kind hm
  rw [hv.owner, hv.width, hv.data, hv.idx, hv.beatAddr] at hcycle
  refine ⟨_, hstep, hv.writeCycle hn hok, ?_, ?_⟩ <;> rw [hcycle]
  · rw [writeEvents_succ, ← List.append_assoc, ← h.hist]
    rfl
  · rw [← hv.cfg]
    exact BytesStored.memWrite (s := u.called.offered c) (hv.cfg ▸ h.bank) hv.parts.bank h4

/-- `n` write beats at mapped words, by induction on `n` with the schedule left open (40 R102). -/
theorem WriteRun.beats {n : Nat} (h : WriteRun s c q w 0 (List.replicate n (.sequencer c) ++ ms) u) (hn : n ≤ w.bytes)
    (hok : ∀ i < n, beatOk s.cfg q.addr i) : ∃ t, u.after n = .next t ∧ WriteRun s c q w n ms t := by
  induction n generalizing ms with
  | zero => exact ⟨u, rfl, h⟩
  | succ n ih =>
    rw [List.replicate_succ', List.append_assoc] at h
    obtain ⟨v, hv, hrun⟩ := ih h (by omega) fun i hi => hok i (by omega)
    obtain ⟨t, ht, hnext⟩ := hrun.beat h4 hn (hok n (by omega))
    exact ⟨t, after_snoc hv ht, hnext⟩

/-- LWRITE as a whole, with any schedule `ms` after its own: `w + 2` sequencer steps accept the request, issue its `w` cycles and
answer it (40 R102). -/
theorem lwrite_run (hs : s.InvParts) (ho : s.Offers c q) (hd : q.desc = ldescOf .write w) (hok : ∀ i < w.bytes, beatOk s.cfg q.addr i)
    (ha : s.env.agenda = List.replicate (w.bytes + 2) (.sequencer c) ++ ms) : ∃ t, s.after (w.bytes + 2) = .next t ∧
      AccessDone s c .writeDone ms t ∧ t.hist = s.hist ++ writeEvents c q.addr w q.wdata w.bytes ∧
      BytesStored s.cfg q.addr w q.wdata w.bytes s.cells t.cells := by
  rw [List.replicate_succ, List.replicate_succ', List.cons_append, List.append_assoc] at ha
  obtain ⟨u, hu, hacc, hhist, hcells⟩ := step_accepts hs ho hd h4 ha
  have hstart : WriteRun s c q w 0 _ u := ⟨hacc, by simp [hhist, writeEvents], hcells ▸ .zero ..⟩
  obtain ⟨v, hv, hrun⟩ := hstart.beats h4 (Nat.le_refl _) hok
  obtain ⟨t, ht, hdone, hthist, htcells⟩ := hrun.completes
  have hresult : v.result = .writeDone := by rw [State.result, hrun.kind]
  exact ⟨t, (after_succ hu).trans (after_snoc hv ht), hresult ▸ hdone, hthist.trans hrun.hist, htcells ▸ hrun.bank⟩

/-- LWRITE under a schedule of its own steps alone. -/
theorem lwrite_scheduled (hs : s.Inv) (ho : s.Offers c q) (hd : q.desc = ldescOf .write w) (hok : ∀ i < w.bytes, beatOk s.cfg q.addr i) :
    ∃ t, (s.scheduled (List.replicate (w.bytes + 2) (.sequencer c))).after (w.bytes + 2) = .next t ∧
      AccessDone s c .writeDone [] t ∧ t.hist = s.hist ++ writeEvents c q.addr w q.wdata w.bytes ∧
      BytesStored s.cfg q.addr w q.wdata w.bytes s.cells t.cells :=
  let own := List.replicate (w.bytes + 2) (Move.sequencer c)
  have ⟨t, ht, hdone, hrest⟩ := lwrite_run h4 (hs.parts.scheduled own) (ho.scheduled own) hd hok (List.append_nil own).symm
  ⟨t, ht, { hdone with }, hrest⟩

end Write

/-- Settles O25: the run of LWRITE, its history and its end. -/
theorem lwriteWordOrdering : Obligations.LwriteWordOrdering := by
  intro s c q w hs ho hd h4 hok
  obtain ⟨t, ht, hdone, hhist, -⟩ := lwrite_scheduled h4 hs ho hd hok
  exact ⟨t, ht, hhist, hdone.response, hdone.request, hdone.idle, hdone.attach, hdone.record, fun _ => hdone.others⟩

/-- Settles O26: the same run, and the bank it leaves. -/
theorem lwriteStoresBigEndian : Obligations.LwriteStoresBigEndian := by
  intro s c q w hs ho hd h4 hok
  obtain ⟨t, ht, hdone, -, hbank⟩ := lwrite_scheduled h4 hs ho hd hok
  have hcfg : t.cfg = s.cfg := hdone.cfg
  refine ⟨t, ht, ?_, ?_⟩ <;> rw [hcfg]
  · exact hbank.stored
  · exact hbank.kept

end Sys2Proof.Machine
end

section
/-! PROOFS. The statements of 30_encoding.md: the round trip of decoder and encoder (R81 to R84, R87, R89), the opcode map (R93), the
step of a bus cycle (R87) and the value a completed read answers (R86). -/

namespace Sys2Proof.Machine

/-! ## The round trip -/

/-- The encoding of every instruction decodes to it (30 R82, R83, R87). -/
theorem decode_encode (i : Instr) : decode (encode i) = .ok i := by
  cases i with
  | lread w => exact decode_ldescOf_read w
  | lwrite w => exact decode_ldescOf_write w
  | pread => exact decode_cmd_read
  | pwrite => exact decode_cmd_write

/-- A decoded `CMD` is the encoding of its instruction (30 R87, R89). -/
theorem encode_of_decodeCmd {c : BitVec 5} {i : Instr} (h : decodeCmd c = .ok i) : encode i = .cmd c := by
  unfold decodeCmd at h
  split at h
  · next hread => cases h; rw [hread]; rfl
  · split at h
    · next hwrite => cases h; rw [hwrite]; rfl
    · cases h

/-- Settles O1: no port's decoder drops a bit of the word it decodes, and an encoded instruction decodes to itself. -/
theorem decodeEncodeInverse : Obligations.DecodeEncodeInverse := by
  intro e i
  constructor
  · intro h
    cases e with
    | ldesc d => exact encode_of_decodeLdesc h
    | cmd c => exact encode_of_decodeCmd h
  · rintro rfl
    exact decode_encode i

/-- Settles O3: each word is the encoding of its instruction. -/
theorem specWordsDecode : Obligations.SpecWordsDecode :=
  ⟨decode_encode (.lread .w1), decode_encode (.lread .w2), decode_encode (.lread .w4), decode_encode (.lread .w8),
    decode_encode (.lwrite .w1), decode_encode (.lwrite .w2), decode_encode (.lwrite .w4), decode_encode (.lwrite .w8),
    decode_encode .pread, decode_encode .pwrite⟩

/-! ## The opcode map -/

theorem decode_ldesc_lread_iff {d : Word} {w : Width} : decode (.ldesc d) = .ok (.lread w) ↔ ldescWord 0b00#2 w = d := by
  rw [decodeEncodeInverse, encode, Encoded.ldesc.injEq]

theorem decode_ldesc_lwrite_iff {d : Word} {w : Width} : decode (.ldesc d) = .ok (.lwrite w) ↔ ldescWord 0b01#2 w = d := by
  rw [decodeEncodeInverse, encode, Encoded.ldesc.injEq]

/-- The mask of a bus command keeps every bit (30 R93). -/
theorem decode_cmd_iff {c v : BitVec 5} {i : Instr} (hi : encode i = .cmd v) : decode (.cmd c) = .ok i ↔ c &&& 0b11111#5 = v := by
  have hmask : c &&& 0b11111#5 = c := BitVec.and_allOnes
  rw [decodeEncodeInverse, hi, Encoded.cmd.injEq, hmask, eq_comm]

theorem ldescWcode_ldescWord (op : BitVec 2) (w : Width) : ldescWcode (ldescWord op w) = w.code := by
  cases w <;> revert op <;> decide

/-- `w = 1 << WCODE` (30 R83). -/
theorem bytes_eq_shiftLeft_code (w : Width) : w.bytes = 1 <<< w.code.toNat := by
  cases w <;> rfl

/-- The mask of an LDESC word keeps its fields `OP` and `RSV` (30 R81, R93). -/
theorem ldesc_fields_mask (d : Word) :
    ldescOp (d &&& 0xFFFFFFF3#32) = ldescOp d ∧ ldescRsv (d &&& 0xFFFFFFF3#32) = ldescRsv d :=
  ⟨BitVec.extractLsb'_and.trans BitVec.and_allOnes, BitVec.extractLsb'_and.trans BitVec.and_allOnes⟩

/-- The match value of `OP` holds `OP` and no reserved bit (30 R81, R93). -/
theorem ldesc_fields_match (op : BitVec 2) : ldescOp (op.setWidth 32) = op ∧ ldescRsv (op.setWidth 32) = 0#28 := by
  revert op; decide

/-- A word matches `OP` under the mask iff it is the word of `OP` and some width: the mask leaves out `WCODE` alone, and every `WCODE`
is a width's (30 R83, R93). -/
theorem exists_ldescWord_iff (op : BitVec 2) (d : Word) :
    (∃ w, ldescWord op w = d) ↔ d &&& 0xFFFFFFF3#32 = op.setWidth 32 := by
  constructor
  · rintro ⟨w, rfl⟩
    cases w <;> revert op <;> decide
  · intro h
    obtain ⟨hop, hrsv⟩ := ldesc_fields_mask d
    obtain ⟨hop', hrsv'⟩ := ldesc_fields_match op
    rw [h, hop'] at hop
    rw [h, hrsv'] at hrsv
    exact ⟨Width.ofCode (ldescWcode d), calc
      ldescWord op (Width.ofCode (ldescWcode d)) = 0#28 ++ ldescWcode d ++ op := by rw [ldescWord, code_ofCode]
      _ = ldescRsv d ++ ldescWcode d ++ ldescOp d := by rw [← hop, ← hrsv]
      _ = d := (ldesc_fields d).symm⟩

/-- Settles O2: by O1 a word decodes to LREAD or LWRITE iff it is the word of their `OP` and a width, whose code is `WCODE`. -/
theorem opcodeMapMatchMask : Obligations.OpcodeMapMatchMask := by
  refine ⟨fun d => ?_, fun d => ?_, fun d w h => ?_, fun _ => decode_cmd_iff rfl, fun _ => decode_cmd_iff rfl, fun d i h => ?_⟩
  · simp only [decode_ldesc_lread_iff]
    exact exists_ldescWord_iff 0b00#2 d
  · simp only [decode_ldesc_lwrite_iff]
    exact exists_ldescWord_iff 0b01#2 d
  · have hcode : ldescWcode d = w.code := by
      rw [decode_ldesc_lread_iff, decode_ldesc_lwrite_iff] at h
      rcases h with rfl | rfl <;> exact ldescWcode_ldescWord _ w
    rw [bytes_eq_shiftLeft_code, ← hcode]
    rfl
  · have hencode := (decodeEncodeInverse _ _).1 h
    constructor <;> rintro rfl <;> cases hencode

/-! ## The step of a bus cycle -/

/-- The `CMD` a beat drives decodes to the bus primitive of its operation (30 R87). -/
theorem decode_busCycle (s : State) :
    decode (.cmd s.busCycle.cmd) = .ok (match s.op with | .read => .pread | .write => .pwrite) := by
  rw [State.busCycle]
  cases s.op with
  | read => exact decode_cmd_read
  | write => exact decode_cmd_write

/-- Settles O5: a mapped beat fetches the `CMD` it drives. -/
theorem stepRunsBusCycle : Obligations.StepRunsBusCycle := by
  intro s c rest hw ha hb hl hok
  have hmapped : s.beatMapped = true := (beatOk_iff s).1 hok
  refine ⟨decode_busCycle s, ?_⟩
  rw [step_sequencer hw ha]
  exact sequencerMove_exec (fetchWord_beat hb (beatsLeft_iff.2 hl) hmapped) (decode_busCycle s)

/-! ## The value of a completed read -/

/-- A read leaves the bits of `ACC` above its `8w` zero (30 R86, 40 R104). -/
theorem AccessOk.acc_lt {w : Width} {addr : Addr} {idx : BitVec 4} {acc : Value} (h : AccessOk .read w addr idx acc) :
    acc.toNat < 2 ^ (8 * w.bytes) := by
  apply Nat.lt_pow_two_of_testBit
  intro j hj
  rw [BitVec.testBit_toNat]
  exact h.acc_shape rfl j (.inr hj)

/-- Settles O19: the answer is `ACC`. -/
theorem readResponseIsZeroExtended : Obligations.ReadResponseIsZeroExtended := by
  intro s hs hb ho hw
  have hacc := hs.parts.access hb
  rw [ho] at hacc
  have howner : s.owner < s.clients.length := hs.clients_length.symm ▸ hs.owner_lt (by simp [hb])
  exact ⟨_, _, execLread_complete hb ho hw, complete_response s _ howner, hacc.acc_lt⟩

end Sys2Proof.Machine
end

section
/-! PROOFS. The statements of 40_logical_access.md about one step: acceptance (R100), the beats (R103, R104), completion (R105), and a
step that is not enabled. -/

namespace Sys2Proof.Machine

variable {s : State}

/-! ## Acceptance -/

/-- Settles O7: the fetched LDESC is reserved, or the word of the operation and width its fields say, which is accepted by the
alignment of its address; where nothing is admitted nothing is fetched. -/
theorem acceptanceRule : Obligations.AcceptanceRule := by
  intro s c rest hw ha hi
  rw [step_sequencer hw ha]
  refine ⟨admitted_iff, fun q hadm hq => ?_, fun hnone => sequencerMove_idle_none hi hnone⟩
  by_cases hr : q.desc.extractLsb' 4 28 ≠ 0 ∨ q.desc.getLsbD 1 = true
  · obtain ⟨e, he⟩ := (decodeLdesc_error_iff q.desc).2 hr
    simp only [if_pos hr]
    exact sequencerMove_reserved (s := { s with grant := c, env := _ }) hi hadm hq he
  · have haccept := sequencerMove_accept (s := { s with grant := c, env := { s.env with agenda := rest } }) hi hadm hq
      (decodeLdesc_ok_legal hr)
    by_cases h4 : q.addr.toNat % 4 = 0
    · rw [accept_aligned h4] at haccept
      simp only [if_neg hr, if_neg (not_not.2 h4)]
      exact haccept
    · rw [accept_misaligned h4] at haccept
      simp only [if_neg hr, if_pos h4]
      exact haccept

/-- Settles O8: acceptance at an aligned base, with the operation and width of the instruction. -/
theorem lreadAcceptance : Obligations.LreadAcceptance := by
  rintro s w q ⟨hi, ha, hq⟩ h4
  exact (execLread_accept hi ha hq).trans (congrArg _ (accept_aligned h4))

/-- Settles O9: the same acceptance for a write. -/
theorem lwriteAcceptance : Obligations.LwriteAcceptance := by
  rintro s w q ⟨hi, ha, hq⟩ h4
  exact (execLwrite_accept hi ha hq).trans (congrArg _ (accept_aligned h4))

/-! ## Beats -/

theorem beatMapped_eq_false (h : ¬ beatOk s.cfg s.addr s.idx.toNat) : s.beatMapped = false := by
  rwa [beatOk_iff, Bool.not_eq_true] at h

/-- The record of a beat that faults (60 R200, R204). -/
theorem beatFault_eq {op : Op} (ho : s.op = op) : s.beatFault =
    s.raiseFault .unmapped s.owner (BitVec.ofNat 33 s.beatAddr) s.idx (ldescOf op s.w) := by
  rw [← ho]
  rfl

/-- A bus primitive is enabled in the mapped beats of its kind (41 R132). -/
theorem cycleEnabled_iff_beatOk {op : Op} : s.cycleEnabled op = true ↔
    s.phase = .busy ∧ s.op = op ∧ s.idx.toNat < s.w.bytes ∧ beatOk s.cfg s.addr s.idx.toNat := by
  rw [cycleEnabled_iff, beatsLeft_iff, beatOk_iff]

/-- Settles O6: a beat that faults and a finished access issue no cycle, so the LDESC in progress is fetched. -/
theorem stepRunsLogicalOperation : Obligations.StepRunsLogicalOperation := by
  intro s c rest hw ha hb h
  have hnone : (s.beatsLeft && s.beatMapped) = false := by
    rcases h with hdone | hfault
    · have hl : s.beatsLeft = false := by simpa [State.beatsLeft] using hdone
      rw [hl, Bool.false_and]
    · rw [beatMapped_eq_false hfault, Bool.and_false]
  rw [step_sequencer hw ha, sequencerMove_logical (s := { s with grant := c, env := _ }) hb hnone]
  cases s.op <;> rfl

/-- Settles O12: the step is the beat's cycle where its address is mapped, and the beat's fault where it is not. -/
theorem readBeatRule : Obligations.ReadBeatRule := by
  intro s hb ho hl
  have hbeat : exec (.lread s.w) s = _ := execLread_beat hb ho (beatsLeft_iff.2 hl)
  refine ⟨fun hn => ?_, fun hok => ?_⟩ <;> rw [hbeat]
  · rw [if_neg (by simp [beatMapped_eq_false hn]), beatFault_eq ho]
    rfl
  · have hm := (beatOk_iff s).1 hok
    rw [if_pos hm, readCycle_eq s hm]
    rfl

/-- Settles O13: as O12, with the cycle of a write. -/
theorem writeBeatRule : Obligations.WriteBeatRule := by
  intro s hb ho hl
  have hbeat : exec (.lwrite s.w) s = _ := execLwrite_beat hb ho (beatsLeft_iff.2 hl)
  refine ⟨fun hn => ?_, fun hok => ?_⟩ <;> rw [hbeat]
  · rw [if_neg (by simp [beatMapped_eq_false hn]), beatFault_eq ho]
    rfl
  · have hm := (beatOk_iff s).1 hok
    rw [if_pos hm, writeCycle_eq s ho hm]
    rfl

/-- Settles O14: the primitive is enabled and runs the beat's cycle. -/
theorem preadIssuesOneCycle : Obligations.PreadIssuesOneCycle := by
  intro s hb ho hl hok
  exact (execPread_cycle (cycleEnabled_iff_beatOk.2 ⟨hb, ho, hl, hok⟩)).trans
    (congrArg _ (readCycle_eq s ((beatOk_iff s).1 hok)))

/-- Settles O15: as O14, with the cycle of a write. -/
theorem pwriteIssuesOneCycle : Obligations.PwriteIssuesOneCycle := by
  intro s hb ho hl hok
  exact (execPwrite_cycle (cycleEnabled_iff_beatOk.2 ⟨hb, ho, hl, hok⟩)).trans
    (congrArg _ (writeCycle_eq s ho ((beatOk_iff s).1 hok)))

/-! ## Completion -/

/-- Both slots of the lock's owner are EMPTY (10 R26, 41 R137). -/
theorem State.InvParts.owner_slots {c : Nat} (h : s.InvParts) (hl : s.lockOwner = some c) :
    s.request c = none ∧ s.response c = none := by
  unfold State.request State.response
  cases hc : s.clients[c]? with
  | none => exact ⟨rfl, rfl⟩
  | some cl =>
    have hok := h.clients.each c cl hc
    rw [hl, decide_eq_true rfl] at hok
    constructor
    · by_contra hne
      cases (hok.req_alone (Option.isSome_iff_ne_none.2 hne)).2
    · by_contra hne
      cases hok.rsp_alone (Option.isSome_iff_ne_none.2 hne)

/-- Settles O16: the lock's owner has no response in its slot, and a finished access completes. -/
theorem completionRule : Obligations.CompletionRule := fun s hb hw =>
  ⟨fun hinv => (hinv.parts.owner_slots (lockOwner_held (by rw [hb]; decide))).2,
    fun ho => execLread_complete hb ho hw, fun ho => execLwrite_complete hb ho hw⟩

/-! ## Steps that are not enabled -/

theorem exec_pread_disabled (h : ¬ s.cycleEnabled .read = true) : exec .pread s = .next s := congrArg _ (if_neg h)

theorem exec_pwrite_disabled (h : ¬ s.cycleEnabled .write = true) : exec .pwrite s = .next s := congrArg _ (if_neg h)

theorem acceptEnabled_eq_false (h : s.phase = .idle → s.admitted s.grant = false ∨ s.request s.grant = none) :
    s.acceptEnabled = false := by
  rw [← Bool.not_eq_true, acceptEnabled_iff]
  rintro ⟨hi, hadm, hreq⟩
  rcases h hi with hn | hn
  · rw [hn] at hadm; cases hadm
  · rw [hn] at hreq; cases hreq

/-- A logical operation waits where it has nothing to accept, unless it is in progress with beats or completion to come (log 4). -/
theorem exec_logical_waits (op : Op) (w : Width) :
    (s.phase = .idle → s.admitted s.grant = false ∨ s.request s.grant = none) →
    (s.phase = .busy → s.op ≠ op ∨ s.w ≠ w ∨ s.w.bytes < s.idx.toNat) →
    exec (match op with | .read => .lread w | .write => .lwrite w) s = .next s := by
  intro hidle hbusy
  have ha := acceptEnabled_eq_false hidle
  cases hrun : s.running op w with
  | false => cases op <;> simp [exec, execLread, execLwrite, ha, hrun]
  | true =>
    obtain ⟨hb, ho, rfl⟩ := running_iff.1 hrun
    have hpast : s.w.bytes < s.idx.toNat := by simpa [ho] using hbusy hb
    have hl : s.beatsLeft = false := by simpa [State.beatsLeft] using hpast.le
    cases op <;> simp [exec, execLread, execLwrite, ha, hrun, hl, hpast.ne']

/-- Settles O17: a bus primitive is enabled in its beats alone, and a logical operation waits outside its own steps. -/
theorem stepsNotEnabledChangeNothing : Obligations.StepsNotEnabledChangeNothing := fun _ =>
  ⟨fun h => exec_pread_disabled (mt cycleEnabled_iff_beatOk.1 h), fun h => exec_pwrite_disabled (mt cycleEnabled_iff_beatOk.1 h),
    exec_logical_waits .read, exec_logical_waits .write⟩

end Sys2Proof.Machine
end

section
/-! PROOFS. The frames of 40_logical_access.md: what a step of LREAD or LWRITE leaves unchanged (R100, R103 to R105), and which step
changes a cell (42 R156, R163). -/

namespace Sys2Proof.Machine

variable {s t : State} {op : Op} {w : Width}

/-! ## The parts a logical step leaves alone, one lemma each -/

theorem LogicalCase.fixed (h : LogicalCase s op w t) : t.cfg = s.cfg ∧ t.attach = s.attach ∧ t.grant = s.grant := by
  cases h with
  | accept q hi ha hq =>
    obtain ⟨hcfg, hattach, hgrant, -⟩ := accept_facts s op w q
    exact ⟨hcfg, hattach, hgrant⟩
  | wait | fault hb ho hl hm | complete r hb ho hi => exact ⟨rfl, rfl, rfl⟩
  | read hb ho hr hl hm | write hb ho hr hl hm => simp

/-- The slots of a client may change and nothing else of it. -/
def SlotsOnly (f : Client → Client) : Prop := ∀ cl, ∃ req rsp, f cl = { cl with req := req, rsp := rsp }

/-- Acceptance empties the granted client's slot, completion fills the owner's, and no other step touches a client. -/
theorem LogicalCase.clients (h : LogicalCase s op w t) : ∃ f, SlotsOnly f ∧
    t.clients = s.clients.modify (if s.phase = .idle then s.grant else s.owner) f := by
  have hsame : s.clients = s.clients.modify (if s.phase = .idle then s.grant else s.owner) id := (List.modify_id _ _).symm
  have hid : SlotsOnly id := fun cl => ⟨cl.req, cl.rsp, rfl⟩
  cases h with
  | wait | fault hb ho hl hm => exact ⟨id, hid, hsame⟩
  | read hb ho hr hl hm => exact ⟨id, hid, s.readCycle_clients.trans hsame⟩
  | write hb ho hr hl hm => exact ⟨id, hid, s.writeCycle_clients.trans hsame⟩
  | accept q hi ha hq =>
    obtain ⟨-, -, -, hclients, -⟩ := accept_facts s op w q
    exact ⟨Client.clearReq, fun cl => ⟨none, cl.rsp, rfl⟩, by rw [if_pos hi, hclients]⟩
  | complete r hb ho hi => exact ⟨Client.setRsp r, fun cl => ⟨cl.req, some r, rfl⟩, by rw [if_neg (by simp [hb])]; rfl⟩

/-- Only acceptance loads the datapath, and `ACC` also changes by the beats of a read (10 R21). -/
theorem LogicalCase.datapath (h : LogicalCase s op w t) (hni : s.phase ≠ .idle) :
    t.held = s.held ∧ (op = .write → t.acc = s.acc) := by
  cases h with
  | accept q hi ha hq => exact absurd hi hni
  | wait | fault hb ho hl hm | complete r hb ho hi => exact ⟨rfl, fun _ => rfl⟩
  | read hb ho hr hl hm => exact ⟨by simp [State.held], fun hw => by rw [hw] at hr; cases hr⟩
  | write hb ho hr hl hm => simp [State.held]

theorem LogicalCase.record (h : LogicalCase s op w t) : t.faultRecord = s.faultRecord ∨ t.phase = .faulted := by
  cases h with
  | accept q hi ha hq =>
    obtain ⟨-, -, -, -, -, -, -, -, -, -, -, hrecord⟩ := accept_facts s op w q
    exact hrecord
  | fault hb ho hl hm => exact .inr rfl
  | wait | complete r hb ho hi => exact .inl rfl
  | read hb ho hr hl hm | write hb ho hr hl hm => exact .inl (by simp [State.faultRecord])

/-- Outside the mapped beats the bus and the device side are left alone (41 R132). -/
theorem LogicalCase.outside (h : LogicalCase s op w t)
    (hn : ¬ (s.phase = .busy ∧ s.idx.toNat < s.w.bytes ∧ beatOk s.cfg s.addr s.idx.toNat)) :
    t.hist = s.hist ∧ t.statusVal = s.statusVal ∧ t.device = s.device ∧ t.env = s.env := by
  cases h with
  | accept q hi ha hq =>
    obtain ⟨-, -, -, -, hhist, -, hstatus, hdevice, henv, -⟩ := accept_facts s op w q
    exact ⟨hhist, hstatus, hdevice, henv⟩
  | wait | fault hb ho hl hm | complete r hb ho hi => exact ⟨rfl, rfl, rfl, rfl⟩
  | read hb ho hr hl hm | write hb ho hr hl hm => exact absurd ⟨hb, beatsLeft_iff.1 hl, (beatOk_iff s).2 hm⟩ hn

theorem LogicalCase.eq_of_faulted (h : LogicalCase s op w t) (hf : s.phase = .faulted) : t = s := by
  cases h with
  | wait => rfl
  | accept q hi _ _ => cases hf.symm.trans hi
  | fault hb _ _ _ | read hb _ _ _ _ | write hb _ _ _ _ | complete _ hb _ _ => cases hf.symm.trans hb

/-- Settles O22: the frame of each part. -/
theorem logicalFrame : Obligations.LogicalFrame := by
  intro s t op w hexec
  have h := logical_cases hexec
  obtain ⟨hcfg, hattach, hgrant⟩ := h.fixed
  obtain ⟨f, hf, hclients⟩ := h.clients
  refine ⟨hcfg, hattach, hgrant, fun c hc => ?_, fun c cl hcl => ?_, h.datapath, h.record, h.outside, h.eq_of_faulted⟩
  · rw [hclients, modify_ne _ _ hc]
  · generalize (if s.phase = .idle then s.grant else s.owner) = i at hclients
    by_cases hci : c = i
    · obtain ⟨req, rsp, heq⟩ := hf cl
      exact ⟨req, rsp, by rw [hclients, ← hci, List.getElem?_modify_eq, hcl, ← heq]; rfl⟩
    · exact ⟨cl.req, cl.rsp, by rw [hclients, modify_ne _ _ hci, hcl]⟩

/-! ## Cells -/

/-- A write beat changes no cell but the one its cycle stores to (42 R156). -/
theorem writeCycle_get {a : Nat} (h : storedAddr s.cfg s.busCycle.adr.toNat ≠ some a) :
    Memory.get s.cfg s.writeCycle.cells a = Memory.get s.cfg s.cells a :=
  memWrite_get s _ _ a h

/-- Of the logical steps only a write beat touches the cells. -/
theorem LogicalCase.cells (h : LogicalCase s op w t) : t.cells = s.cells ∨
    (op = .write ∧ s.phase = .busy ∧ s.beatsLeft = true ∧ s.beatMapped = true ∧ t = s.writeCycle) := by
  cases h with
  | accept q hi ha hq =>
    obtain ⟨-, -, -, -, -, hcells, -⟩ := accept_facts s op w q
    exact .inl hcells
  | wait | fault hb ho hl hm | complete r hb ho hi => exact .inl rfl
  | read hb ho hr hl hm => exact .inl s.readCycle_cells
  | write hb ho hr hl hm => exact .inr ⟨hr, hb, hl, hm, rfl⟩

/-- Settles O23: a step of LREAD is no write beat, and a write beat of LWRITE changes the cell it stores to. -/
theorem logicalCellFrame : Obligations.LogicalCellFrame := by
  intro s t w a
  refine ⟨fun hexec => ?_, fun hexec hstored => ?_⟩
  · have h := logical_cases (op := .read) hexec
    rcases h.cells with hcells | ⟨hwrite, -⟩
    · rw [h.fixed.1, hcells]
    · cases hwrite
  · have h := logical_cases (op := .write) hexec
    rcases h.cells with hcells | ⟨-, hb, hl, hm, rfl⟩
    · rw [h.fixed.1, hcells]
    · rw [h.fixed.1]
      exact writeCycle_get (hstored hb (beatsLeft_iff.1 hl) ((beatOk_iff s).2 hm))

/-- The sequencer never changes the configuration, and of its steps only a write beat touches the cells. -/
theorem SequencerCase.cells (h : SequencerCase s t) : (t.cfg = s.cfg ∧ t.cells = s.cells) ∨
    (s.op = .write ∧ s.phase = .busy ∧ s.beatsLeft = true ∧ s.beatMapped = true ∧ t = s.writeCycle) := by
  cases h with
  | accept q op w hi ha hq hd =>
    obtain ⟨hcfg, -, -, -, -, hcells, -⟩ := accept_facts s op w q
    exact .inl ⟨hcfg, hcells⟩
  | wait | reserved q e hi ha hq hd | fault hb hl hm | complete hb hw => exact .inl ⟨rfl, rfl⟩
  | read hb ho hl hm => exact .inl ⟨s.readCycle_cfg, s.readCycle_cells⟩
  | write hb ho hl hm => exact .inr ⟨ho, hb, hl, hm, rfl⟩

/-- Settles O34: the move of a client or of the device touches no cell, and of the sequencer's only a write beat does, which drives
the beat's address. -/
theorem cellsChangeOnlyByWriteBeats : Obligations.CellsChangeOnlyByWriteBeats := by
  intro s t a hreset hstep hne
  cases step_cases hstep with
  | sequencer c t hm hc =>
    rcases hc.cells with ⟨hcfg, hcells⟩ | ⟨ho, hb, hl, hmapped, rfl⟩
    · exact absurd (by rw [hcfg, hcells]; rfl) hne
    · have hadr : s.busCycle.adr.toNat = s.addr.toNat + 4 * s.idx.toNat := busCycle_adr (beatMapped_iff.1 hmapped).1
      refine ⟨⟨c, hm⟩, hb, ho, beatsLeft_iff.1 hl, (beatOk_iff s).2 hmapped, ?_⟩
      by_contra hother
      rw [← hadr] at hother
      rw [State.writeCycle_cfg] at hne
      exact hne (writeCycle_get hother)
  | client c t _ hc => exact absurd (by rw [hc.ownMove.cells, hc.ownMove.cfg]; rfl) hne
  | submit c q => exact absurd (by simp) hne
  | consume c => exact absurd (by simp) hne
  | device r v => exact absurd (by simp) hne
  | reset hm => exact absurd hm hreset

end Sys2Proof.Machine
end

section
/-! PROOFS. The statements of 40_logical_access.md about whole operations: LREAD (R101), the round trip (R107), the access that faults
(R103, R104, 60 R204) and the bound of an access in progress (70 R243). -/

namespace Sys2Proof.Machine

/-! ## LREAD as a whole -/

theorem readCycle_acc {s : State} (h : s.beatMapped = true) :
    s.readCycle.acc = accumulate s.w s.idx.toNat (wordByte (s.memRead s.beatAddr).1) s.acc := by
  rw [readCycle_eq s h]
  rfl

theorem readCycle_agenda {s : State} (h : s.beatMapped = true) : s.readCycle.env.agenda = s.env.agenda := by
  rw [readCycle_eq s h]
  exact memRead_agenda s s.beatAddr

theorem readEvents_append (c : Nat) (a : Addr) (ds : List Word) (d : Word) : readEvents c a (ds ++ [d]) =
    readEvents c a ds ++ [⟨c, .pread, BitVec.ofNat 32 (a.toNat + 4 * ds.length), d⟩] :=
  List.mapIdx_concat

/-- The words `ds` that the first cycles of a read at `a` returned: each STORAGE word answers its byte of the bank `m` (42 R158). -/
def WordsRead (cfg : Config) (m : Memory) (a : Addr) (ds : List Word) : Prop :=
  ∀ i d, ds[i]? = some d → storageWord cfg (a.toNat + 4 * i) → d = byteWord (Memory.get cfg m (a.toNat + 4 * i))

theorem WordsRead.append {cfg : Config} {m : Memory} {a : Addr} {ds : List Word} {d : Word} (h : WordsRead cfg m a ds)
    (hd : storageWord cfg (a.toNat + 4 * ds.length) → d = byteWord (Memory.get cfg m (a.toNat + 4 * ds.length))) :
    WordsRead cfg m a (ds ++ [d]) := by
  intro i x hx hs
  rcases Nat.lt_or_ge i ds.length with hlt | hge
  · exact h i x (by rwa [List.getElem?_append_left hlt] at hx) hs
  · rw [List.getElem?_append_right hge, List.getElem?_singleton] at hx
    obtain ⟨hi, hdx⟩ := Option.ite_none_right_eq_some.1 hx
    obtain rfl : i = ds.length := by omega
    exact (Option.some.inj hdx).symm.trans (hd hs)

/-- `u` has read the words `ds` in a read that changes no cell: their events stand in the history and their bytes in `ACC`, above the
bytes to come (40 R104). -/
structure ReadRun (s : State) (c : Nat) (q : Request) (w : Width) (ds : List Word) (ms : List Move) (u : State) : Prop
    extends AccessRun s c q .read w ds.length ms u where
  hist : u.hist = s.hist ++ readEvents c q.addr ds
  acc : u.acc = concatBytes ds <<< (8 * (w.bytes - ds.length))
  cells : u.cells = s.cells
  words : WordsRead s.cfg s.cells q.addr ds

section Read

variable {s u : State} {c : Nat} {q : Request} {w : Width} {n : Nat} {ds : List Word} {ms : List Move}

/-- The cycle of a read beat takes the access one beat on (40 R104). -/
theorem AccessRun.readCycle (h : AccessRun s c q .read w n ms u) (hn : n < w.bytes) (hok : beatOk s.cfg q.addr n) :
    AccessRun s c q .read w (n + 1) ms u.readCycle where
  parts := h.parts.readCycle h.busy h.kind (h.beatsLeft hn) (h.beatMapped hok)
  agenda := by rw [readCycle_agenda (h.beatMapped hok)]; exact h.agenda
  cfg := by rw [State.readCycle_cfg]; exact h.cfg
  busy := by rw [State.readCycle_phase]; exact h.busy
  owner := by rw [State.readCycle_owner]; exact h.owner
  kind := by rw [State.readCycle_op]; exact h.kind
  width := by rw [State.readCycle_w]; exact h.width
  base := by rw [State.readCycle_addr]; exact h.base
  data := by rw [State.readCycle_wdata]; exact h.data
  idx := by rw [readCycle_idx, idx_succ (beatsLeft_iff.1 (h.beatsLeft hn)), h.idx]
  clients := by rw [State.readCycle_clients]; exact h.clients
  attach := by rw [State.readCycle_attach]; exact h.attach
  record := by simpa [State.faultRecord] using h.record

/-- A read beat at a mapped word (40 R104). -/
theorem ReadRun.beat (h4 : q.addr.toNat % 4 = 0) (h : ReadRun s c q w ds (.sequencer c :: ms) u) (hn : ds.length < w.bytes)
    (hok : beatOk s.cfg q.addr ds.length) : ∃ t d, step u = .next t ∧ ReadRun s c q w (ds ++ [d]) ms t := by
  have hv := h.offered
  have hm := hv.beatMapped hok
  have hstep := step_offered h.parts.bank.cfg_wf h.agenda
  rw [sequencerMove_read hv.busy hv.kind (hv.beatsLeft hn) hm] at hstep
  have hlen (d : Word) : (ds ++ [d]).length = ds.length + 1 := List.length_append
  refine ⟨_, ((u.called.offered c).memRead (u.called.offered c).beatAddr).1, hstep, ?_, ?_, ?_, ?_, ?_⟩
  · rw [hlen]
    exact hv.readCycle hn hok
  · rw [readCycle_hist _ hm, hv.owner, hv.beatAddr, readEvents_append, ← List.append_assoc, ← h.hist]
    rfl
  · rw [readCycle_acc hm, hv.width, hv.idx, hlen, concatBytes_append, ← accumulate_shift w hn, ← h.acc]
    rfl
  · rw [State.readCycle_cells]
    exact h.cells
  · refine h.words.append fun hs => ?_
    rw [hv.beatAddr, memRead_storage (hv.cfg ▸ hs) hv.parts.bank.cfg_wf (by omega), hv.cfg]
    exact congrArg (fun m => byteWord (Memory.get s.cfg m _)) h.cells

/-- `n` read beats at mapped words, by induction on `n` with the schedule left open (40 R101). -/
theorem ReadRun.beats (h4 : q.addr.toNat % 4 = 0) (h : ReadRun s c q w [] (List.replicate n (.sequencer c) ++ ms) u)
    (hn : n ≤ w.bytes) (hok : ∀ i < n, beatOk s.cfg q.addr i) :
    ∃ t ds, u.after n = .next t ∧ ds.length = n ∧ ReadRun s c q w ds ms t := by
  induction n generalizing ms with
  | zero => exact ⟨u, [], rfl, rfl, h⟩
  | succ n ih =>
    rw [List.replicate_succ', List.append_assoc] at h
    obtain ⟨v, ds, hv, rfl, hrun⟩ := ih h (by omega) fun i hi => hok i (by omega)
    obtain ⟨t, d, ht, hnext⟩ := hrun.beat h4 hn (hok _ (by omega))
    exact ⟨t, ds ++ [d], after_snoc hv ht, List.length_append, hnext⟩

/-- Before its first beat a read has no bit in `ACC` (40 R100). -/
theorem AccessRun.acc_zero (h : AccessRun s c q .read w 0 ms u) : u.acc = 0 := by
  have hshape := (h.parts.access h.busy).acc_shape h.kind
  rw [h.idx, h.width] at hshape
  exact BitVec.eq_of_getLsbD_eq fun j _ => (hshape j (by omega)).trans BitVec.getLsbD_zero.symm

theorem lread_accepts (h4 : q.addr.toNat % 4 = 0) (hs : s.InvParts) (ho : s.Offers c q) (hd : q.desc = ldescOf .read w)
    (ha : s.env.agenda = .sequencer c :: ms) : ∃ u, step s = .next u ∧ ReadRun s c q w [] ms u := by
  obtain ⟨u, hu, hacc, hhist, hcells⟩ := step_accepts hs ho hd h4 ha
  refine ⟨u, hu, hacc, by simp [hhist, readEvents], ?_, hcells, fun _ _ hnil => by simp at hnil⟩
  simp [hacc.acc_zero, concatBytes]

/-- LREAD as a whole, with any schedule `ms` after its own: `w + 2` sequencer steps accept the request, issue its `w` cycles and
answer their bytes (40 R101). -/
theorem lread_run (h4 : q.addr.toNat % 4 = 0) (hs : s.InvParts) (ho : s.Offers c q) (hd : q.desc = ldescOf .read w)
    (hok : ∀ i < w.bytes, beatOk s.cfg q.addr i) (ha : s.env.agenda = List.replicate (w.bytes + 2) (.sequencer c) ++ ms) :
    ∃ t ds, s.after (w.bytes + 2) = .next t ∧ AccessDone s c (.readDone (concatBytes ds)) ms t ∧ ds.length = w.bytes ∧
      t.hist = s.hist ++ readEvents c q.addr ds ∧ t.cells = s.cells ∧ WordsRead s.cfg s.cells q.addr ds := by
  rw [List.replicate_succ, List.replicate_succ', List.cons_append, List.append_assoc] at ha
  obtain ⟨u, hu, hstart⟩ := lread_accepts h4 hs ho hd ha
  obtain ⟨v, ds, hv, hlen, hrun⟩ := hstart.beats h4 (Nat.le_refl _) hok
  obtain ⟨t, ht, hdone, hthist, htcells⟩ := (hlen ▸ hrun.toAccessRun).completes
  have hresult : v.result = .readDone (concatBytes ds) := by
    simp [State.result, hrun.kind, hrun.acc, hlen]
  exact ⟨t, ds, (after_succ hu).trans (after_snoc hv ht), hresult ▸ hdone, hlen, hthist.trans hrun.hist,
    htcells.trans hrun.cells, hrun.words⟩

end Read

/-- Settles O24: LREAD's run under a schedule of its own steps alone. -/
theorem lreadNetEffect : Obligations.LreadNetEffect := by
  intro s c q w hs ho hd h4 hok
  let own := List.replicate (w.bytes + 2) (Move.sequencer c)
  obtain ⟨t, ds, ht, hdone, hlen, hhist, hcells, -⟩ := lread_run h4 (hs.parts.scheduled own) (ho.scheduled own) hd hok
    (List.append_nil own).symm
  exact ⟨t, ds, ht, hlen, hhist, hdone.response, hdone.request, hdone.idle, hcells, hdone.attach, hdone.record,
    fun _ => hdone.others⟩

/-! ## The round trip -/

section RoundTrip

variable {s t : State} {c : Nat} {ms : List Move}

theorem step_consume (hw : s.cfg.WellFormed) (ha : s.env.agenda = .consume c :: ms) : step s = .next (s.called.consume c) := by
  rw [step_eq hw, (nextMove_of_agenda ha).1]
  rfl

theorem step_submit {q : Request} (hw : s.cfg.WellFormed) (ha : s.env.agenda = .submit c q :: ms) :
    step s = .next (s.called.submit c q) := by
  rw [step_eq hw, (nextMove_of_agenda ha).1]
  rfl

theorem consume_client {cl : Client} (hcl : s.clients[c]? = some cl) (hp : cl.prog = none) (hr : cl.rsp ≠ none) :
    (s.consume c).clients[c]? = some cl.release := by
  rw [consume_eq hcl hp, if_neg hr, State.modifyClient, List.getElem?_modify_eq, hcl]
  rfl

theorem submit_request {cl : Client} (hcl : s.clients[c]? = some cl) (hp : cl.prog = none) (hreq : cl.req = none)
    (hrsp : cl.rsp = none) (hl : s.lockOwner ≠ some c) (q : Request) : (s.submit c q).request c = some q := by
  rw [submit_eq hcl hp, if_pos ⟨hreq, hrsp, hl⟩, request_modify, if_pos rfl, hcl]
  rfl

/-- A client without a program whose access is done takes the response and offers its next request (10 R26). -/
theorem AccessDone.resubmit {cl : Client} {r : Response} {q : Request} (h : AccessDone s c r (.consume c :: .submit c q :: ms) t)
    (hcl : s.clients[c]? = some cl) (hp : cl.prog = none) (hadm : s.admitted c = true) :
    ∃ u, t.after 2 = .next u ∧ u.InvParts ∧ u.Offers c q ∧ u.env.agenda = ms ∧ u.cfg = s.cfg ∧ u.cells = t.cells := by
  have hparts := h.parts.called.consume c
  have hfirst := step_consume h.parts.bank.cfg_wf h.agenda
  have hagenda : (t.called.consume c).env.agenda = .submit c q :: ms := by
    rw [State.consume_env]
    exact called_agenda h.agenda
  have hsecond := step_submit hparts.bank.cfg_wf hagenda
  have hdone : t.clients[c]? = some (cl.clearReq.setRsp r) := by
    rw [h.clients, List.getElem?_modify_eq, List.getElem?_modify_eq, hcl]
    rfl
  have hfree : (t.called.consume c).clients[c]? = some (cl.clearReq.setRsp r).release :=
    consume_client (s := t.called) hdone hp (Option.some_ne_none r)
  have hidle : (t.called.consume c).called.lockOwner = none := lockOwner_idle (by simpa using h.idle)
  refine ⟨_, (after_succ hfirst).trans (after_succ hsecond), hparts.called.submit c q, ⟨?_, ?_, ?_⟩, ?_, ?_, ?_⟩
  · simpa using h.idle
  · simpa [State.admitted, h.attach] using hadm
  · exact submit_request (s := (t.called.consume c).called) hfree hp rfl rfl (by simp [hidle]) q
  · rw [State.submit_env]
    exact called_agenda hagenda
  · simpa using h.cfg
  · simp

end RoundTrip

/-- Words read where a write of `v` stored its bytes are the bytes of `v` (42 R164). -/
theorem WordsRead.eq_bytes {cfg : Config} {a : Addr} {w : Width} {v : Value} {m m' : Memory} {ds : List Word}
    (h : WordsRead cfg m' a ds) (hb : BytesStored cfg a w v w.bytes m m') (hlen : ds.length = w.bytes)
    (hs : ∀ i < w.bytes, storageWord cfg (a.toNat + 4 * i)) : ds = (List.range w.bytes).map fun k => byteWord (beByte w v k) := by
  refine List.ext_getElem (by simp [hlen]) fun i hi _ => ?_
  have hiw : i < w.bytes := hlen ▸ hi
  rw [h i ds[i] (List.getElem?_eq_getElem hi) (hs i hiw), hb.stored i hiw (hs i hiw), List.getElem_map, List.getElem_range]
  rfl

/-- Settles O27: the bytes LWRITE stores are in the bank when LREAD begins, and they concatenate to the value it wrote. -/
theorem roundTrip : Obligations.RoundTrip := by
  intro s c cl w addr v x hs hcl hp ho h4 hstore
  have hok (i : Nat) (hi : i < w.bytes) : beatOk s.cfg addr i := storageWord_mapped hs.cfg_wf (hstore i hi) (by omega)
  let own := List.replicate (w.bytes + 2) (Move.sequencer c)
  let ms := own ++ [.consume c, .submit c ⟨ldescWord 0b00#2 w, addr, x⟩] ++ own
  obtain ⟨t, ht, hdone, -, hbank⟩ := lwrite_run h4 (hs.parts.scheduled ms) (ho.scheduled ms) rfl hok (List.append_assoc ..)
  obtain ⟨u, hu, huparts, huoffers, huagenda, hucfg, hucells⟩ := hdone.resubmit hcl hp ho.admitted
  obtain ⟨z, ds, hz, hzdone, hlen, -, -, hwords⟩ := lread_run h4 huparts huoffers rfl (by rw [hucfg]; exact hok)
    (huagenda.trans (List.append_nil own).symm)
  refine ⟨z, ?_, hzdone.idle, ?_⟩
  · rw [after_add (u := u) (by rw [after_add ht]; exact hu)]
    exact hz
  · rw [hucfg, hucells] at hwords
    rw [← truncTo_eq, ← concatBytes_all, ← hwords.eq_bytes hbank hlen hstore]
    exact hzdone.response

/-! ## The access that faults -/

/-- `t` is FAULTED at beat `n` of the access `op`, `w` of client `c` at the base of `q`: the lock is held, the slots are EMPTY and the
record is that of 60 R200. -/
structure AccessFaulted (c : Nat) (q : Request) (op : Op) (w : Width) (n : Nat) (t : State) : Prop where
  faulted : t.phase = .faulted
  lock : t.lockOwner = some c
  request : t.request c = none
  response : t.response c = none
  record : t.faultRecord = (.unmapped, c, BitVec.ofNat 33 (q.addr.toNat + 4 * n), BitVec.ofNat 4 n, ldescOf op w)

section Fault

variable {s u : State} {c : Nat} {q : Request} {op : Op} {w : Width} {n : Nat} {ms : List Move}

/-- A beat at a word that is not mapped ends the access before its cycle (60 R204). -/
theorem AccessRun.faults (h : AccessRun s c q op w n (.sequencer c :: ms) u) (hn : n < w.bytes) (hbad : ¬ beatOk s.cfg q.addr n) :
    ∃ t, step u = .next t ∧ AccessFaulted c q op w n t ∧ t.hist = u.hist := by
  have hv := h.offered
  have hm : (u.called.offered c).beatMapped = false := by
    rw [← Bool.not_eq_true, ← beatOk_iff, hv.cfg, hv.base, hv.idx]
    exact hbad
  have hstep := step_offered h.parts.bank.cfg_wf h.agenda
  rw [sequencerMove_fault hv.busy (hv.beatsLeft hn) hm] at hstep
  have hlock : (u.called.offered c).beatFault.lockOwner = some c := congrArg some hv.owner
  obtain ⟨hreq, hrsp⟩ := (hv.parts.beatFault hv.busy).owner_slots hlock
  refine ⟨_, hstep, ⟨rfl, hlock, hreq, hrsp, ?_⟩, rfl⟩
  have hidx : (u.called.offered c).idx = BitVec.ofNat 4 n := by rw [← hv.idx, BitVec.ofNat_toNat, BitVec.setWidth_eq]
  rw [beatFault_eq hv.kind, hv.owner, hv.beatAddr, hv.width, hidx]
  rfl

/-- An access whose beat `n` is the first at a word not mapped: `n + 2` sequencer steps accept it, issue `n` cycles and fault (40 R103,
R104). -/
theorem access_faults (h4 : q.addr.toNat % 4 = 0) (hs : s.InvParts) (ho : s.Offers c q) (hd : q.desc = ldescOf op w)
    (hn : n < w.bytes) (hok : ∀ i < n, beatOk s.cfg q.addr i) (hbad : ¬ beatOk s.cfg q.addr n)
    (ha : s.env.agenda = List.replicate (n + 2) (.sequencer c)) :
    ∃ t ds, s.after (n + 2) = .next t ∧ AccessFaulted c q op w n t ∧ ds.length = n ∧
      t.hist = s.hist ++ (match op with
        | .read => readEvents c q.addr ds
        | .write => writeEvents c q.addr w q.wdata n) := by
  rw [List.replicate_succ, List.replicate_succ'] at ha
  cases op with
  | read =>
    obtain ⟨u, hu, hstart⟩ := lread_accepts h4 hs ho hd ha
    obtain ⟨v, ds, hv, rfl, hrun⟩ := hstart.beats h4 hn.le hok
    obtain ⟨t, ht, hfault, hhist⟩ := hrun.faults hn hbad
    exact ⟨t, ds, (after_succ hu).trans (after_snoc hv ht), hfault, rfl, hhist.trans hrun.hist⟩
  | write =>
    obtain ⟨u, hu, hacc, hhist, hcells⟩ := step_accepts hs ho hd h4 ha
    have hstart : WriteRun s c q w 0 _ u := ⟨hacc, by simp [hhist, writeEvents], hcells ▸ .zero ..⟩
    obtain ⟨v, hv, hrun⟩ := hstart.beats h4 hn.le hok
    obtain ⟨t, ht, hfault, hhist⟩ := hrun.faults hn hbad
    exact ⟨t, List.replicate n 0, (after_succ hu).trans (after_snoc hv ht), hfault, List.length_replicate, hhist.trans hrun.hist⟩

end Fault

/-- Settles O28: the access that faults, under a schedule of its own steps alone. -/
theorem faultsAtFirstUnmappedBeat : Obligations.FaultsAtFirstUnmappedBeat := by
  intro s c q op w j hs ho hd h4 hj hok hbad
  have hdesc : q.desc = ldescOf op w := by rw [hd]; cases op <;> rfl
  let own := List.replicate (j + 2) (Move.sequencer c)
  obtain ⟨t, ds, ht, hfault, hlen, hhist⟩ := access_faults h4 (hs.parts.scheduled own) (ho.scheduled own) hdesc hj hok hbad rfl
  refine ⟨t, ds, ht, hfault.faulted, hfault.lock, hfault.request, hfault.response, hdesc ▸ hfault.record, hlen, ?_⟩
  cases op <;> exact hhist

/-! ## The bound of an access in progress -/

section Bound

variable {s : State}

/-- A FAULTED codec stays so, whatever clients are offered (60 R208). -/
theorem faulted_after (cs : List Nat) : s.cfg.WellFormed → s.phase = .faulted → s.env.agenda = cs.map .sequencer →
    ∃ t, s.after cs.length = .next t ∧ t.phase = .faulted := by
  induction cs generalizing s with
  | nil => exact fun _ hf _ => ⟨s, rfl, hf⟩
  | cons c cs ih =>
    intro hw hf ha
    have hstep := step_offered hw ha
    rw [sequencerMove_faulted (s := s.called.offered c) hf] at hstep
    obtain ⟨t, ht, htf⟩ := ih (s := s.called.offered c) hw hf (called_agenda ha)
    exact ⟨t, (after_succ hstep).trans ht, htf⟩

/-- A mapped beat of either kind counts and keeps the access in progress (40 R103, R104). -/
theorem sequencerMove_beat (h : s.InvParts) (hb : s.phase = .busy) (hl : s.beatsLeft = true) (hm : s.beatMapped = true) :
    ∃ t, s.sequencerMove = .next t ∧ t.InvParts ∧ t.phase = .busy ∧ t.owner = s.owner ∧ t.w = s.w ∧ t.idx = s.idx + 1 ∧
      t.env.agenda = s.env.agenda := by
  cases ho : s.op with
  | read =>
    exact ⟨_, sequencerMove_read hb ho hl hm, h.readCycle hb ho hl hm, s.readCycle_phase.trans hb, s.readCycle_owner, s.readCycle_w,
      readCycle_idx s, readCycle_agenda hm⟩
  | write =>
    exact ⟨_, sequencerMove_write hb ho hl hm, h.writeCycle hb ho hl hm, s.writeCycle_phase.trans hb, s.writeCycle_owner, s.writeCycle_w,
      writeCycle_idx s, congrArg Env.agenda s.writeCycle_env⟩

/-- After its last beat an access in progress ends with a response of the owner (40 R105). -/
theorem sequencerMove_last (h : s.InvParts) (hb : s.phase = .busy) (hw : s.idx.toNat = s.w.bytes) :
    ∃ t, s.sequencerMove = .next t ∧ t.phase = .idle ∧ (t.response s.owner).isSome = true := by
  have howner : s.owner < s.clients.length := h.clients.length.symm ▸ h.lock.owner_lt (by simp [hb])
  exact ⟨_, sequencerMove_complete hb hw, rfl, Option.isSome_of_eq_some (complete_response s s.result howner)⟩

/-- The beats left and completion end the access, by induction on the moves: each counts a beat, faults, or completes. -/
theorem busy_after (cs : List Nat) : s.InvParts → s.phase = .busy → cs.length = s.w.bytes - s.idx.toNat + 1 →
    s.env.agenda = cs.map .sequencer →
    ∃ t, s.after cs.length = .next t ∧ (t.phase = .faulted ∨ (t.phase = .idle ∧ (t.response s.owner).isSome = true)) := by
  induction cs generalizing s with
  | nil => exact fun _ _ hlen _ => by simp at hlen
  | cons c cs ih =>
    intro h hb hlen ha
    rw [List.length_cons] at hlen
    have hv := h.called.offered c
    have hagenda : (s.called.offered c).env.agenda = cs.map .sequencer := called_agenda ha
    have hstep := step_offered h.bank.cfg_wf ha
    by_cases hl : s.idx.toNat < s.w.bytes
    · have hleft : (s.called.offered c).beatsLeft = true := beatsLeft_iff.2 hl
      cases hm : (s.called.offered c).beatMapped with
      | false =>
        rw [sequencerMove_fault (s := s.called.offered c) hb hleft hm] at hstep
        obtain ⟨t, ht, htf⟩ := faulted_after cs (s := (s.called.offered c).beatFault) hv.bank.cfg_wf rfl hagenda
        exact ⟨t, (after_succ hstep).trans ht, .inl htf⟩
      | true =>
        obtain ⟨u, hu, huparts, hub, howner, hwidth, hidx, huagenda⟩ := sequencerMove_beat hv hb hleft hm
        have hcount : u.idx.toNat = s.idx.toNat + 1 := hidx ▸ idx_succ hl
        have hw : u.w = s.w := hwidth
        obtain ⟨t, ht, hend⟩ := ih huparts hub (by rw [hcount, hw]; omega) (huagenda.trans hagenda)
        exact ⟨t, (after_succ (hstep.trans hu)).trans ht, howner ▸ hend⟩
    · have hle := (h.access hb).idx_le
      have hlast : s.idx.toNat = s.w.bytes := by omega
      obtain rfl : cs = [] := List.length_eq_zero_iff.1 (by omega)
      obtain ⟨t, ht, hend⟩ := sequencerMove_last hv hb hlast
      exact ⟨t, after_succ (hstep.trans ht), .inr hend⟩

end Bound

/-- Settles O29: the moves are those of the schedule. -/
theorem accessEndsWithinBound : Obligations.AccessEndsWithinBound := fun s cs hs hb hlen =>
  busy_after (s := s.scheduled (cs.map .sequencer)) cs (hs.parts.scheduled _) hb hlen rfl

end Sys2Proof.Machine
end

section
/-! PROOFS. The statements of 41_bus_and_lock.md: what PREAD and PWRITE leave unchanged (R130, R131), the bus discipline (R132) and the
lock that excludes (R135). -/

namespace Sys2Proof.Machine

variable {s t : State}

/-! ## What bus cycles do to the device side -/

theorem readCycle_device_side (s : State) : s.readCycle.env = (s.memRead s.busCycle.adr.toNat).2.env ∧
    s.readCycle.statusVal = (s.memRead s.busCycle.adr.toNat).2.statusVal ∧
    s.readCycle.device = (s.memRead s.busCycle.adr.toNat).2.device := ⟨rfl, rfl, rfl⟩

theorem writeCycle_device_side (s : State) :
    s.writeCycle.statusVal = (s.memWrite s.busCycle.adr.toNat s.busCycle.datW).statusVal ∧
    s.writeCycle.device = (s.memWrite s.busCycle.adr.toNat s.busCycle.datW).device := ⟨rfl, rfl⟩

/-- A read cycle that hits a register leaves behind its read effect (42 R158, R159). -/
theorem memRead_of_hit {a r k : Nat} {reg : RegDesc} (h : csrDecode s.cfg a = .hit r reg k) :
    (s.memRead a).2 = s.rdEffect reg.rdEffect r k := by
  simp only [State.memRead, h]

/-- A read cycle that hits no register takes a draw and nothing else (42 R160, R165). -/
theorem memRead_of_no_hit {a : Nat} (h : ∀ r reg k, csrDecode s.cfg a ≠ .hit r reg k) :
    (s.memRead a).2 = { s with env := s.env.draw.2 } := by
  cases hd : csrDecode s.cfg a with
  | hit r reg k => exact absurd hd (h r reg k)
  | hole | notMine => simp only [State.memRead, hd]

/-- A write cycle reaches the STATUS values and the device only by the write effect of the register it hits (42 R156, R157, R160). -/
theorem memWrite_device_side {a : Nat} (d : Word)
    (h : ∀ r reg k, csrDecode s.cfg a = .hit r reg k → reg.wrEffect = .identity) :
    (s.memWrite a d).statusVal = s.statusVal ∧ (s.memWrite a d).device = s.device := by
  cases hd : csrDecode s.cfg a with
  | hit r reg k =>
    cases hk : reg.kind with
    | storage => rw [memWrite_storage hd hk, h r reg k hd]; exact ⟨rfl, rfl⟩
    | status => simp only [State.memWrite, hd, hk, and_self]
  | hole | notMine => simp only [State.memWrite, hd, and_self]

/-! ## The frames of the bus primitives -/

/-- Settles O20: PREAD waits, or is the cycle of a read beat, which reaches the device side by its read alone. -/
theorem preadFrame : Obligations.PreadFrame := by
  intro s t hexec
  rcases pread_cases hexec with rfl | ⟨-, rfl⟩
  · exact ⟨rfl, rfl, rfl, rfl, rfl, rfl, rfl, fun _ => rfl, fun _ _ _ _ => ⟨rfl, fun _ => ⟨rfl, rfl⟩⟩, fun _ => ⟨rfl, rfl⟩⟩
  · obtain ⟨henv, hstatus, hdevice⟩ := readCycle_device_side s
    refine ⟨s.readCycle_cfg, s.readCycle_phase, by simp [State.held], s.readCycle_attach, by simp [State.faultRecord],
      s.readCycle_clients, s.readCycle_grant, fun a => by simp, fun r reg k hhit => ?_, fun hmiss => ?_⟩
    · rw [henv, hstatus, hdevice, memRead_of_hit hhit]
      exact ⟨State.rdEffect_env .., fun hid => by rw [hid]; exact ⟨rfl, rfl⟩⟩
    · rw [hstatus, hdevice, memRead_of_no_hit hmiss]
      exact ⟨rfl, rfl⟩

/-- Settles O21: PWRITE waits, or is the cycle of a write beat, which reaches the cells and the device side by its write alone. -/
theorem pwriteFrame : Obligations.PwriteFrame := by
  intro s t hexec
  rcases pwrite_cases hexec with rfl | ⟨-, rfl⟩
  · exact ⟨rfl, rfl, rfl, rfl, rfl, rfl, rfl, rfl, rfl, fun _ _ => rfl, fun _ => ⟨rfl, rfl⟩⟩
  · obtain ⟨hstatus, hdevice⟩ := writeCycle_device_side s
    refine ⟨s.writeCycle_cfg, s.writeCycle_phase, by simp [State.held], s.writeCycle_acc, s.writeCycle_attach,
      by simp [State.faultRecord], s.writeCycle_clients, s.writeCycle_grant, s.writeCycle_env, fun a hother => ?_, fun hid => ?_⟩
    · rw [s.writeCycle_cfg]
      exact writeCycle_get hother
    · rw [hstatus, hdevice]
      exact memWrite_device_side _ hid

/-! ## The lock and the history -/

/-- Of the agents' moves but reset only the sequencer's touches the phase, the held request, `IDX` or the history (10 R26, 42 R163,
43 R184 to R186). -/
theorem StepCase.sequencer_or_access_kept (h : StepCase s t) (hreset : s.nextMove ≠ .reset) :
    (∃ c, s.nextMove = .sequencer c ∧ SequencerCase (s.called.offered c) t) ∨
    (t.phase = s.phase ∧ t.held = s.held ∧ t.idx = s.idx ∧ t.hist = s.hist) := by
  have hown {c : Nat} {u : State} (h : OwnMove s.called c u) :
      u.phase = s.phase ∧ u.held = s.held ∧ u.idx = s.idx ∧ u.hist = s.hist := ⟨h.phase, h.held, h.idx, h.hist⟩
  cases h with
  | sequencer c t hm hc => exact .inl ⟨c, hm, hc⟩
  | client c t hm hc => exact .inr (hown hc.ownMove)
  | submit c q => exact .inr (hown (ownMove_submit _ c q))
  | consume c => exact .inr (hown (ownMove_consume _ c))
  | device r v => exact .inr (by simp [State.held])
  | reset hm => exact absurd hm hreset

/-- A busy sequencer goes on with the access in progress, completes it after its last beat, or faults with the lock kept (41 R135,
60 R201). -/
theorem SequencerCase.lock_kept_or_ended (h : SequencerCase s t) (hb : s.phase = .busy) :
    (t.phase = .busy ∧ t.held = s.held ∧ (t.idx = s.idx ∨ t.idx = s.idx + 1)) ∨
    (t.phase = .idle ∧ s.idx.toNat = s.w.bytes) ∨
    (t.phase = .faulted ∧ t.faultCode = .unmapped ∧ t.lockOwner = some s.owner) := by
  cases h with
  | wait => exact .inl ⟨hb, rfl, .inl rfl⟩
  | reserved q e hi | accept q op w hi => cases hb.symm.trans hi
  | fault => exact .inr (.inr ⟨rfl, rfl, rfl⟩)
  | read => exact .inl ⟨s.readCycle_phase.trans hb, by simp [State.held], .inr (readCycle_idx s)⟩
  | write => exact .inl ⟨s.writeCycle_phase.trans hb, by simp [State.held], .inr (writeCycle_idx s)⟩
  | complete _ hw => exact .inr (.inl ⟨rfl, hw⟩)

/-- Settles O30: of the moves but reset only the sequencer's touches the access in progress, and a busy sequencer accepts nothing. -/
theorem lockExcludes : Obligations.LockExcludes := by
  intro s t hb hreset hstep
  rcases (step_cases hstep).sequencer_or_access_kept hreset with ⟨c, hm, hc⟩ | ⟨hphase, hheld, hidx, -⟩
  · rcases hc.lock_kept_or_ended hb with hkept | ⟨hidle, hw⟩ | hfault
    · exact .inl hkept
    · exact .inr (.inl ⟨hidle, hw, c, hm⟩)
    · exact .inr (.inr hfault)
  · exact .inl ⟨hphase.trans hb, hheld, .inl hidx⟩

/-- A sequencer's move counts no beat and issues no cycle, or is a mapped beat, which counts one and issues one (41 R132). -/
theorem SequencerCase.hist_kept_or_beat (h : SequencerCase s t) :
    (t.hist = s.hist ∧ (s.phase = .busy → t.idx = s.idx)) ∨
    (s.phase = .busy ∧ s.beatsLeft = true ∧ s.beatMapped = true ∧ t.idx = s.idx + 1 ∧
      ∃ d, t.hist = s.hist ++ [⟨s.owner, (match s.op with | .read => .pread | .write => .pwrite),
        BitVec.ofNat 32 s.beatAddr, d⟩]) := by
  cases h with
  | wait | fault | complete => exact .inl ⟨rfl, fun _ => rfl⟩
  | reserved q e hi => exact .inl ⟨rfl, fun hb => by cases hb.symm.trans hi⟩
  | accept q op w hi =>
    obtain ⟨-, -, -, -, hhist, -⟩ := accept_facts s op w q
    exact .inl ⟨hhist, fun hb => by cases hb.symm.trans hi⟩
  | read hb ho hl hm => exact .inr ⟨hb, hl, hm, readCycle_idx s, _, by rw [readCycle_hist s hm, ho]⟩
  | write hb ho hl hm => exact .inr ⟨hb, hl, hm, writeCycle_idx s, _, by rw [writeCycle_hist s ho hm, ho]⟩

/-- Settles O31: of the moves but reset only the sequencer's touches the history or `IDX`, and of the sequencer's only a mapped beat. -/
theorem historyGrowsByBeats : Obligations.HistoryGrowsByBeats := by
  intro s t hreset hstep
  rcases (step_cases hstep).sequencer_or_access_kept hreset with ⟨c, hm, hc⟩ | ⟨-, -, hidx, hhist⟩
  · rcases hc.hist_kept_or_beat with ⟨hhist, hidx⟩ | ⟨hb, hl, hmapped, hidx, hevent⟩
    · exact .inl ⟨hhist, fun hb _ => hidx hb⟩
    · exact .inr ⟨⟨c, hm⟩, hb, beatsLeft_iff.1 hl, hidx, (beatOk_iff s).2 hmapped, hevent⟩
  · exact .inl ⟨hhist, fun _ _ => hidx⟩

end Sys2Proof.Machine
end

section
/-! PROOFS. The statements of 42_csr_decoder.md: the address decoder (R153), the accesses to STORAGE, STATUS and hole words (R156 to R160,
R164, R165), device events (R163), and the refusals of what is ill-formed (R152, 43 R180). -/

namespace Sys2Proof.Machine

/-! ## The address decoder -/

section Decoder

variable {c : Config} {a : Nat}

theorem csrDecode_eq_notMine_iff : csrDecode c a = .notMine ↔ a < c.csrBase ∨ c.csrBase + c.csrSpan ≤ a := by
  unfold csrDecode
  split
  · next hout => exact iff_of_true rfl hout
  · next hin => split <;> exact iff_of_false nofun hin

/-- A hole is inside the span. -/
theorem csrDecode_hole (h : csrDecode c a = .hole) : c.csrBase ≤ a ∧ a < c.csrBase + c.csrSpan := by
  have hmine : ¬ csrDecode c a = .notMine := by rw [h]; exact nofun
  rw [csrDecode_eq_notMine_iff] at hmine
  omega

/-- A hit names the listed register that owns the slot number: as registers are disjoint, the first one found is the only one. -/
theorem csrDecode_eq_hit_iff (hc : c.WellFormed) {r k : Nat} {reg : RegDesc} : csrDecode c a = .hit r reg k ↔
    c.csrBase ≤ a ∧ a < c.csrBase + c.csrSpan ∧ c.regs[r]? = some reg ∧
      reg.off / 4 ≤ (a - c.csrBase) / 4 ∧ (a - c.csrBase) / 4 < reg.off / 4 + reg.w.bytes ∧
      k = (a - c.csrBase) / 4 - reg.off / 4 := by
  constructor
  · intro h
    obtain ⟨hlo, hhi, hr, hk, hslot⟩ := csrDecode_hit h
    exact ⟨hlo, hhi, hr, by omega, by omega, by omega⟩
  · rintro ⟨hlo, hhi, hr, hfirst, hlast, hk⟩
    obtain ⟨-, -, -, -, -, hdisjoint, -, -⟩ := hc
    have hslot : (a - c.csrBase) / 4 = reg.off / 4 + k := by omega
    unfold csrDecode
    rw [if_neg (by omega), hslot, findSlot_of_slot hdisjoint hr (by omega), Nat.zero_add]

/-- A hole is what neither of the other two answers covers. -/
theorem csrDecode_eq_hole_iff (hc : c.WellFormed) : csrDecode c a = .hole ↔ c.csrBase ≤ a ∧ a < c.csrBase + c.csrSpan ∧
    ∀ reg ∈ c.regs, ¬ (reg.off / 4 ≤ (a - c.csrBase) / 4 ∧ (a - c.csrBase) / 4 < reg.off / 4 + reg.w.bytes) := by
  constructor
  · intro h
    obtain ⟨hlo, hhi⟩ := csrDecode_hole h
    refine ⟨hlo, hhi, fun reg hmem ⟨hfirst, hlast⟩ => ?_⟩
    obtain ⟨r, hr⟩ := List.getElem?_of_mem hmem
    cases h.symm.trans ((csrDecode_eq_hit_iff hc).2 ⟨hlo, hhi, hr, hfirst, hlast, rfl⟩)
  · rintro ⟨hlo, hhi, hnone⟩
    cases hd : csrDecode c a with
    | notMine => exact absurd (csrDecode_eq_notMine_iff.1 hd) (by omega)
    | hit r reg k =>
      obtain ⟨-, -, hr, hfirst, hlast, -⟩ := (csrDecode_eq_hit_iff hc).1 hd
      exact absurd ⟨hfirst, hlast⟩ (hnone reg (List.mem_of_getElem? hr))
    | hole => rfl

end Decoder

/-- Settles O39: one equivalence for each answer of the decoder. -/
theorem decoderFindsTheSlot : Obligations.DecoderFindsTheSlot := fun _ _ hc =>
  ⟨csrDecode_eq_notMine_iff, fun _ _ _ => csrDecode_eq_hit_iff hc, csrDecode_eq_hole_iff hc⟩

/-! ## Accesses to the register bank -/

section Bank

variable {s : State} {a r k : Nat} {reg : RegDesc}

/-- What a read of a STORAGE slot answers and leaves (42 R158). -/
theorem memRead_storage_eq (h : csrDecode s.cfg a = .hit r reg k) (hk : reg.kind = .storage) :
    s.memRead a = ((s.cell reg k).setWidth 32, s.rdEffect reg.rdEffect r k) := by
  simp only [State.memRead, h, State.slotByte, hk, byteWord]

/-- What a read of a STATUS slot answers and leaves (42 R159). -/
theorem memRead_status_eq (h : csrDecode s.cfg a = .hit r reg k) (hk : reg.kind = .status) :
    s.memRead a = ((beByte reg.w (s.status r) k).setWidth 32, s.rdEffect reg.rdEffect r k) := by
  simp only [State.memRead, h, State.slotByte, hk, byteWord]

/-- A write cycle that hits a STATUS slot (42 R157). -/
theorem memWrite_status (h : csrDecode s.cfg a = .hit r reg k) (hk : reg.kind = .status) (d : Word) : s.memWrite a d = s := by
  simp only [State.memWrite, h, hk]

/-- A write cycle that hits no register (42 R160, R165). -/
theorem memWrite_of_no_hit (h : ∀ r reg k, csrDecode s.cfg a ≠ .hit r reg k) (d : Word) : s.memWrite a d = s := by
  cases hd : csrDecode s.cfg a with
  | hit r reg k => exact absurd hd (h r reg k)
  | hole | notMine => simp only [State.memWrite, hd]

/-- The word a read cycle that hits no register returns (42 R160, R165). -/
theorem memRead_word_of_no_hit (h : ∀ r reg k, csrDecode s.cfg a ≠ .hit r reg k) :
    (s.memRead a).1 = s.env.draw.1.setWidth 32 := by
  cases hd : csrDecode s.cfg a with
  | hit r reg k => exact absurd hd (h r reg k)
  | hole | notMine => simp only [State.memRead, hd]

/-- A write to a STORAGE slot leaves `d[7:0]` in its cell: the write effect that follows reaches no cell (42 R156, R161). -/
theorem memWrite_cell (hcells : Memory.wf s.cfg s.cells) (h : csrDecode s.cfg a = .hit r reg k) (hk : reg.kind = .storage)
    (d : Word) : (s.memWrite a d).cell reg k = d.extractLsb' 0 8 := by
  rw [memWrite_storage h hk, cell_eq, State.wrEffect_cfg, State.wrEffect_cells]
  exact Memory.get_set_same hcells _ _

end Bank

/-- Settles O40: the cell written reads back, `storedAddr` names no other cell, and the device side is that of the write effect. -/
theorem storageWriteTouchesOneCell : Obligations.StorageWriteTouchesOneCell := by
  intro s a d r reg k hcells hhit hkind
  have hstored : storedAddr s.cfg a = some (slotAddr s.cfg reg k) := by simp [storedAddr, hhit, hkind]
  refine ⟨memWrite_cell hcells hhit hkind d, fun a' hother => ?_, ?_, ?_⟩
  · rw [State.memWrite_cfg]
    exact memWrite_get s a d a' fun heq => hother (Option.some.inj (heq.symm.trans hstored))
  · rw [memWrite_storage hhit hkind]
  · rw [memWrite_storage hhit hkind]

/-- Settles O41: a read answers the slot's cell and reaches no cell, so it answers what the write left there. -/
theorem storageReadBack : Obligations.StorageReadBack := by
  intro s t a d r reg k hhit hkind
  refine ⟨memRead_storage_eq hhit hkind, fun hcells hcfg hcell => ⟨?_, t.memRead_cells a⟩⟩
  rw [memRead_storage_eq (hcfg ▸ hhit) hkind, hcell, memWrite_cell hcells hhit hkind]

/-- Settles O42: of a STATUS register a write reaches nothing and a read answers the big-endian byte of the value now. -/
theorem statusAccess : Obligations.StatusAccess := by
  intro s a d r reg k hhit hkind
  rw [Nat.sub_right_comm]
  exact ⟨memWrite_status hhit hkind d, memRead_status_eq hhit hkind⟩

/-- Settles O43: neither HOLE nor NOT_MINE is a hit, so a write reaches nothing and a read takes one draw. -/
theorem holeAccess : Obligations.HoleAccess := by
  intro s a d hmiss
  have hno : ∀ r reg k, csrDecode s.cfg a ≠ .hit r reg k := by
    intro r reg k hhit
    rcases hmiss with hhole | hother
    · cases hhole.symm.trans hhit
    · cases hother.symm.trans hhit
  exact ⟨memWrite_of_no_hit hno d, memRead_word_of_no_hit hno, memRead_of_no_hit hno⟩

/-! ## Device events -/

section DeviceEvent

variable {s : State} {r : Nat} {reg : RegDesc}

theorem step_device {v : Value} {rest : List Move} (hw : s.cfg.WellFormed) (ha : s.env.agenda = .device r v :: rest) :
    step s = .next ((s.scheduled rest).deviceEvent r v) := by
  obtain ⟨hmove, hcalled⟩ := nextMove_of_agenda ha
  rw [step_eq hw, hmove, hcalled]
  rfl

theorem deviceEvent_status (hr : s.cfg.regs[r]? = some reg) (hk : reg.kind = .status) (v : Value) :
    s.deviceEvent r v = { s with statusVal := s.statusVal.set r (truncTo reg.w v) } := by
  simp only [State.deviceEvent, hr, hk]

theorem deviceEvent_storage (hr : s.cfg.regs[r]? = some reg) (hk : reg.kind = .storage) (v : Value) : s.deviceEvent r v = s := by
  simp only [State.deviceEvent, hr, hk]

end DeviceEvent

/-- Settles O44: the step is the event, which replaces the one entry of the STATUS values; the invariant says that entry is there. -/
theorem deviceEventRule : Obligations.DeviceEventRule := by
  intro s r v rest reg hs ha hr
  have hlt : r < s.statusVal.length := by
    rw [hs.status_length]
    exact (List.getElem?_eq_some_iff.1 hr).1
  rw [step_device hs.cfg_wf ha]
  refine ⟨fun hk => ⟨s.statusVal.set r (truncTo reg.w v), ?_, ?_, fun r' hne => ?_⟩, fun hk => ?_⟩
  · rw [deviceEvent_status (s := s.scheduled rest) hr hk]
    rfl
  · rw [← truncTo_eq]
    simp [List.getD_eq_getElem?_getD, hlt]
  · simp [List.getD_eq_getElem?_getD, List.getElem?_set_ne (Ne.symm hne)]
  · rw [deviceEvent_storage (s := s.scheduled rest) hr hk]
    rfl

/-! ## Refusals -/

/-- A client's move with an ill-formed program is refused, whatever the program's counter and status (43 R180). -/
theorem clientMove_ill {s : State} {c : Nat} {cl : Client} {p : Program} (hcl : s.clients[c]? = some cl) (hp : cl.prog = some p)
    (hill : ¬ Program.WellFormed p) : s.clientMove c = .refused (.illFormedProgram c) := by
  simp only [State.clientMove, hcl, hp, if_pos hill]

/-- Settles O54: the step checks the configuration first, and the client's move its program. -/
theorem illFormedIsRefused : Obligations.IllFormedIsRefused := by
  refine fun s => ⟨step_ill, fun c rest cl p hw ha hcl hp hill => ?_⟩
  rw [step_eq hw, (nextMove_of_agenda ha).1]
  exact clientMove_ill (s := s.called) hcl hp hill

end Sys2Proof.Machine
end

section
/-! PROOFS. The statements of 43_client_sequences.md: the client statements (R180, R182 to R186), the end of the self-test (R190), and
the FAULTED codec (60 R201, R208), which serves clients no more (R217). One rule for each statement says what it does to its client; the
step of a client at that statement cites it. -/

namespace Sys2Proof.Machine

/-! ## The FAULTED codec -/

/-- Settles O35: the sequencer of a FAULTED codec makes no step and no self-test runs beside it, so only the clients' own slots and the
device side move. -/
theorem faultedIsSticky : Obligations.FaultedIsSticky := by
  intro s t hinv hf hreset hstep
  have hcode : s.faultCode ≠ .none := fun hnone => by
    have hseq := hinv.faulted_iff.1 hf
    rw [hnone] at hseq
    cases hseq
  have hcodec : t.phase = s.phase ∧ t.held = s.held ∧ t.idx = s.idx ∧ t.acc = s.acc ∧ t.attach = s.attach ∧ t.hist = s.hist ∧
      t.cells = s.cells := by
    have hown {c : Nat} {u : State} (h : OwnMove s.called c u) (ha : u.attach = s.attach) : u.phase = s.phase ∧ u.held = s.held ∧
        u.idx = s.idx ∧ u.acc = s.acc ∧ u.attach = s.attach ∧ u.hist = s.hist ∧ u.cells = s.cells :=
      ⟨h.phase, h.held, h.idx, h.acc, ha, h.hist, h.cells⟩
    cases step_cases hstep with
    | sequencer c t _ hc => rw [hc.eq_of_stopped (.inl hf)]; exact ⟨rfl, rfl, rfl, rfl, rfl, rfl, rfl⟩
    | client c t _ hc =>
      refine hown hc.ownMove ?_
      rcases hc.record_kept_or_selftest with ⟨hkeep, -⟩ | ⟨hself, rfl, cl, hcl, hr⟩
      · exact hkeep
      · cases hf.symm.trans (hinv.parts.called.idle_of_selftest_runs hself hcl hr)
    | submit c q => exact hown (ownMove_submit _ c q) (State.submit_attach _ c q)
    | consume c => exact hown (ownMove_consume _ c) (State.consume_attach _ c)
    | device r v => simp [State.held]
    | reset hm => exact absurd hm hreset
  obtain ⟨hphase, hheld, hidx, hacc, hattach, hhist, hcells⟩ := hcodec
  refine ⟨hphase.trans hf, lockOwner_congr hphase (congrArg Prod.fst hheld), hheld, hidx, hacc, hattach,
    faultRecordWrittenOnce s t hinv hcode hreset hstep, hhist, hcells, fun c q hq => ?_, fun c r hr => ?_⟩
  · rcases requestLeavesOnlyByAcceptance s t c q hreset hstep hq with hkeep | ⟨-, -, hi, -⟩
    · exact hkeep
    · cases hf.symm.trans hi
  · by_contra hne
    obtain ⟨hb, -⟩ := (responseOnlyByCompletion s t c hstep).1 r hr hne
    cases hf.symm.trans hb

/-! ## Operands -/

/-- An address that fits 32 bits is taken as is (30 R85). -/
theorem addr_toNat {c : Config} {a : AddrExpr} (h : a.value c < addrSpace) : (AddrExpr.addr c a).toNat = a.value c := by
  rw [AddrExpr.addr, if_pos h]
  exact Nat.mod_eq_of_lt h

theorem both_eq_none {f : Nat → Nat → Nat} {x y : Option Nat} : both f x y = none ↔ x = none ∨ y = none := by
  cases x <;> cases y <;> simp [both]

/-- An operator of two operands has no value exactly where one of them reads an unwritten local. -/
theorem both_reads_unwritten {l : List (Nat × Value)} {f : Nat → Nat → Nat} {a b : Expr}
    (ha : exprValue l a = none ↔ ∃ k ∈ a.reads, assocGet l k = none)
    (hb : exprValue l b = none ↔ ∃ k ∈ b.reads, assocGet l k = none) :
    both f (exprValue l a) (exprValue l b) = none ↔ ∃ k ∈ a.reads ++ b.reads, assocGet l k = none := by
  simp only [both_eq_none, ha, hb, List.mem_append, or_and_right, exists_or]

/-- An expression has no value exactly where it reads an unwritten local (43 R180). -/
theorem exprValue_eq_none_iff (l : List (Nat × Value)) (e : Expr) : exprValue l e = none ↔ ∃ k ∈ e.reads, assocGet l k = none := by
  induction e with
  | imm v => simp [exprValue, Expr.reads]
  | reg k => simp [exprValue, Expr.reads]
  | add a b iha ihb | sub a b iha ihb | shl a b iha ihb | shr a b iha ihb | band a b iha ihb | bor a b iha ihb | bxor a b iha ihb
  | mod a b iha ihb | cat a b iha ihb => exact both_reads_unwritten iha ihb
  | slice a hi lo ih | zext n a ih | sext n a ih => exact Option.map_eq_none_iff.trans ih

theorem assignValue_eq_none_iff (l : List (Nat × Value)) (e : Expr) :
    assignValue l e = none ↔ ∃ k ∈ e.reads, assocGet l k = none :=
  Option.map_eq_none_iff.trans (exprValue_eq_none_iff l e)

/-! ## What a statement does to its client -/

section Statement

variable {cfg : Config} {p : Program} {cl : Client}

/-- No statement moves a client that waits for its response (43 R182, 60 R217). -/
theorem runStmt_waits (st : Stmt) (hw : cl.cstat = .wait) (hn : cl.rsp = none) : Client.runStmt cfg p st cl = cl := by
  cases st with
  | lread w d a => simp only [Client.runStmt, Client.runLread, hw, hn]
  | lwrite w a src => simp only [Client.runStmt, Client.runLwrite, hw, hn]
  | assign | beq | bne | jmp | fatal | done => exact if_neg (by simp [hw])

theorem runStmt_lread_consumes {w : Width} {d : Nat} {a : AddrExpr} {v : Value} (hw : cl.cstat = .wait)
    (hv : cl.rsp = some (.readDone v)) : Client.runStmt cfg p (.lread w d a) cl = (cl.setLocal d v).resume := by
  simp only [Client.runStmt, Client.runLread, hw, hv]

theorem runStmt_lwrite_consumes {w : Width} {a : AddrExpr} {src : Src} (hw : cl.cstat = .wait) (hd : cl.rsp = some .writeDone) :
    Client.runStmt cfg p (.lwrite w a src) cl = cl.resume := by
  simp only [Client.runStmt, Client.runLwrite, hw, hd]

section Running

variable (hr : cl.cstat = .run)
include hr

theorem runStmt_lread_issues {w : Width} {d : Nat} {a : AddrExpr} (hreq : cl.req = none) (hrsp : cl.rsp = none) :
    Client.runStmt cfg p (.lread w d a) cl = cl.issue ⟨ldescOf .read w, AddrExpr.addr cfg a, 0⟩ := by
  simp only [Client.runStmt, Client.runLread, hr, hreq, hrsp, and_self, if_true]

theorem runStmt_lwrite_issues {w : Width} {a : AddrExpr} {src : Src} {v : Value} (hreq : cl.req = none) (hrsp : cl.rsp = none)
    (hv : srcValue cl.locals src = some v) :
    Client.runStmt cfg p (.lwrite w a src) cl = cl.issue ⟨ldescOf .write w, AddrExpr.addr cfg a, v⟩ := by
  simp only [Client.runStmt, Client.runLwrite, hr, hreq, hrsp, and_self, if_true, hv]

theorem runStmt_lwrite_fails {w : Width} {a : AddrExpr} {src : Src} (hreq : cl.req = none) (hrsp : cl.rsp = none)
    (hv : srcValue cl.locals src = none) : Client.runStmt cfg p (.lwrite w a src) cl = cl.fail := by
  simp only [Client.runStmt, Client.runLwrite, hr, hreq, hrsp, and_self, if_true, hv]

theorem runStmt_assign {d : Nat} {e : Expr} {v : Value} (hv : assignValue cl.locals e = some v) :
    Client.runStmt cfg p (.assign d e) cl = (cl.setLocal d v).goto (cl.pc + 1) := by
  simp only [Client.runStmt, Client.runAssign, hr, if_true, hv]

theorem runStmt_assign_fails {d : Nat} {e : Expr} (hv : assignValue cl.locals e = none) :
    Client.runStmt cfg p (.assign d e) cl = cl.fail := by
  simp only [Client.runStmt, Client.runAssign, hr, if_true, hv]

theorem runStmt_beq {k : Nat} {imm x : Value} {l : Label} (hx : assocGet cl.locals k = some x) :
    Client.runStmt cfg p (.beq k imm l) cl = cl.goto (if x = imm then labelIndex p cl.pc l else cl.pc + 1) := by
  simp only [Client.runStmt, Client.runBranch, Client.local?, hr, if_true, hx, decide_eq_true_eq]

theorem runStmt_bne {k : Nat} {imm x : Value} {l : Label} (hx : assocGet cl.locals k = some x) :
    Client.runStmt cfg p (.bne k imm l) cl = cl.goto (if x = imm then cl.pc + 1 else labelIndex p cl.pc l) := by
  simp only [Client.runStmt, Client.runBranch, Client.local?, hr, if_true, hx, decide_eq_false_iff_not, ite_not]

theorem runStmt_beq_fails {k : Nat} {imm : Value} {l : Label} (hx : assocGet cl.locals k = none) :
    Client.runStmt cfg p (.beq k imm l) cl = cl.fail := by
  simp only [Client.runStmt, Client.runBranch, Client.local?, hr, if_true, hx]

theorem runStmt_bne_fails {k : Nat} {imm : Value} {l : Label} (hx : assocGet cl.locals k = none) :
    Client.runStmt cfg p (.bne k imm l) cl = cl.fail := by
  simp only [Client.runStmt, Client.runBranch, Client.local?, hr, if_true, hx]

theorem runStmt_jmp {l : Label} : Client.runStmt cfg p (.jmp l) cl = cl.goto (labelIndex p cl.pc l) := if_pos hr

theorem runStmt_done : Client.runStmt cfg p .done cl = cl.stop .done := if_pos hr

theorem runStmt_fatal {code : Nat} : Client.runStmt cfg p (.fatal code) cl = cl.stop (.fatal code) := if_pos hr

end Running

end Statement

/-! ## The end of the self-test (43 R190) -/

theorem attachEffect_done (s : State) (c : Nat) :
    s.attachEffect c .done = if s.attach = .selftest ∧ c = selftestClient then s.attachReady else s := rfl

theorem attachEffect_fatal (s : State) (c code : Nat) : s.attachEffect c (.fatal code) =
    if s.attach = .selftest ∧ c = selftestClient ∧ code = selftestMismatchCode then s.attachDead else s := by
  simp only [State.attachEffect, ← and_assoc, ite_and]

/-- The end of the self-test touches no client. -/
theorem attachEffect_modifyClient (s : State) (c i : Nat) (st : Stmt) (f : Client → Client) :
    (s.attachEffect c st).modifyClient i f = (s.modifyClient i f).attachEffect c st := by
  cases st with
  | done => exact apply_ite (State.modifyClient · i f) _ s.attachReady s
  | fatal code =>
    rw [attachEffect_fatal, attachEffect_fatal]
    exact apply_ite (State.modifyClient · i f) _ s.attachDead s
  | lread | lwrite | assign | beq | bne | jmp => simp [attachEffect_other]

/-! ## The step of a client at a statement -/

section Step

variable {s : State} {c : Nat} {cl : Client} {p : Program} {st : Stmt} {rest : List Move}

/-- A running client's statement replaces the client, and touches of the codec what the end of the self-test does (43 R181, R190). -/
theorem step_running (h : s.AtStmt c cl p st rest) (hr : cl.cstat = .run) :
    step s = .next ((s.withClient c (Client.runStmt s.cfg p st cl) rest).attachEffect c st) := by
  rw [step_atStmt h (.inl hr), if_pos hr, attachEffect_modifyClient, withClient_eq _ h.client]

/-- A client that waits for its response takes no step, whatever its statement (43 R182, 60 R217). -/
theorem step_waits (h : s.AtStmt c cl p st rest) (hw : cl.cstat = .wait) (hn : cl.rsp = none) :
    step s = .next { s with env := { s.env with agenda := rest } } := by
  rw [step_atStmt h (.inr hw), if_neg (by simp [hw]), withClient_eq _ h.client, runStmt_waits st hw hn, withClient_same h.client]

/-- A client that is done, fatal or faulted does not move (43 R180, R186). -/
theorem clientMove_stopped (hcl : s.clients[c]? = some cl) (hp : cl.prog = some p) (hwf : Program.WellFormed p)
    (hs : cl.stopped = true) : s.clientMove c = .next s := by
  simp only [State.clientMove, hcl, hp, if_neg (not_not.2 hwf), hs, if_true]

theorem step_stopped (hcfg : s.cfg.WellFormed) (ha : s.env.agenda = .client c :: rest) (hcl : s.clients[c]? = some cl)
    (hp : cl.prog = some p) (hwf : Program.WellFormed p) (hs : cl.stopped = true) :
    step s = .next { s with env := { s.env with agenda := rest } } := by
  obtain ⟨hmove, hcalled⟩ := nextMove_of_agenda ha
  rw [step_eq hcfg, hmove, ← hcalled]
  exact clientMove_stopped (s := s.called) hcl hp hwf hs

/-- A label of the statement a client stands at marks the statement the client goes to by it (43 R180, R185). -/
theorem State.AtStmt.label_found {l : Label} (h : s.AtStmt c cl p st rest) (hu : l ∈ st.uses) :
    ∃ tgt, p[labelIndex p cl.pc l]? = some tgt ∧ l ∈ tgt.labels :=
  have ⟨_, hln⟩ := h.stmt
  Machine.label_found h.prog_wf (List.mem_of_getElem? hln) hu cl.pc

end Step

/-! ## Accesses -/

/-- Settles O45: the statement issues the request, waits, and consumes the answer into its local. -/
theorem lreadStatement : Obligations.LreadStatement := by
  intro s c cl p w d a rest h
  refine ⟨fun hr hreq hrsp => ⟨AddrExpr.addr s.cfg a, addr_toNat, ?_⟩, fun v hw hv => ⟨assocInsert cl.locals d v, ?_,
    assocGet_insert_same cl.locals d v, fun k hk => assocGet_insert_ne cl.locals v hk⟩, step_waits h⟩
  · rw [step_local h (.inl hr) nofun nofun, runStmt_lread_issues hr hreq hrsp]
    rfl
  · rw [step_local h (.inr hw) nofun nofun, runStmt_lread_consumes hw hv]
    rfl

/-- Settles O46: as O45, with the source's value in the request and no local written. -/
theorem lwriteStatement : Obligations.LwriteStatement := by
  intro s c cl p w a src rest h
  refine ⟨fun v hr hreq hrsp hv => ⟨AddrExpr.addr s.cfg a, addr_toNat, ?_⟩, fun hw hd => ?_, step_waits h⟩
  · rw [step_local h (.inl hr) nofun nofun, runStmt_lwrite_issues hr hreq hrsp hv]
    rfl
  · rw [step_local h (.inr hw) nofun nofun, runStmt_lwrite_consumes hw hd]
    rfl

/-- Settles O47: no statement moves a waiting client. -/
theorem waitingClientWaits : Obligations.WaitingClientWaits := fun _ _ _ _ _ _ h => step_waits h

/-! ## Local statements -/

/-- Settles O48: the assignment's rule, and what a local reads after it. -/
theorem assignStatement : Obligations.AssignStatement := by
  intro s c cl p d e v rest h hr hv
  refine ⟨assocInsert cl.locals d v, ?_, assocGet_insert_same cl.locals d v, fun k hk => assocGet_insert_ne cl.locals v hk⟩
  rw [step_local h (.inl hr) nofun nofun, runStmt_assign hr hv]
  rfl

/-- Settles O50: the target is the statement the program's label is resolved to, the same for all three branches. -/
theorem branchStatements : Obligations.BranchStatements := by
  intro s c cl p rest k imm l hr hat
  have hfound : ∃ tgt, p[labelIndex p cl.pc l]? = some tgt ∧ l ∈ tgt.labels := by
    have hl : l ∈ [l] := List.mem_singleton_self l
    rcases hat with h | h | h <;> exact h.label_found hl
  obtain ⟨tgt, htgt, hmarked⟩ := hfound
  refine ⟨labelIndex p cl.pc l, tgt, htgt, hmarked, fun x h hx => ?_, fun x h hx => ?_, fun h => ?_⟩
  · rw [step_local h (.inl hr) nofun nofun, runStmt_beq hr hx]
    rfl
  · rw [step_local h (.inl hr) nofun nofun, runStmt_bne hr hx]
    rfl
  · rw [step_local h (.inl hr) nofun nofun, runStmt_jmp hr]
    rfl

/-! ## Clients that stop -/

/-- Settles O51: the client stops, which `attachEffect` answers for the self-test client, and a stopped client does not move. -/
theorem endStatements : Obligations.EndStatements := by
  intro s c cl p code rest
  refine ⟨fun h hr => ?_, fun h hr => ?_, fun st h hend => ?_⟩
  · rw [step_running h hr, runStmt_done hr, attachEffect_done]
    rfl
  · rw [step_running h hr, runStmt_fatal hr, attachEffect_fatal]
    rfl
  · refine step_stopped h.cfg_wf h.agenda h.client h.prog h.prog_wf ?_
    rcases hend with hend | hend <;> simp [Client.stopped, hend]

/-- Settles O52: each read of an unwritten local fails the client, and a failed client does not move. -/
theorem unwrittenLocalStopsClient : Obligations.UnwrittenLocalStopsClient := by
  intro s c cl p rest
  refine ⟨fun k imm l hr hx hat => ?_, fun d e hr h hv => ?_, assignValue_eq_none_iff cl.locals, fun k w a hr hreq hrsp hx h => ?_,
    fun hcfg ha hcl hp hwf hfault => step_stopped hcfg ha hcl hp hwf ?_⟩
  · rcases hat with h | h
    · rw [step_local h (.inl hr) nofun nofun, runStmt_beq_fails hr hx]
      rfl
    · rw [step_local h (.inl hr) nofun nofun, runStmt_bne_fails hr hx]
      rfl
  · rw [step_local h (.inl hr) nofun nofun, runStmt_assign_fails hr hv]
    rfl
  · rw [step_local h (.inl hr) nofun nofun, runStmt_lwrite_fails (src := .reg k) hr hreq hrsp hx]
    rfl
  · rw [Client.stopped, hfault, Bool.true_or]

end Sys2Proof.Machine
end

section
/-! PROOFS. The statements of 60_exceptions.md: the faults raised at acceptance (R202, R203). -/

namespace Sys2Proof.Machine

variable {s : State}

/-- A fault raised at acceptance: the record is written and the client keeps the lock, but not its request; there was no bus cycle and
no store (60 R201). -/
theorem fault_at_acceptance {t : State} {code : FaultCode} {paddr : BitVec 33} {desc : Word}
    (ht : t = s.takeLock.raiseFault code s.grant paddr 0 desc) :
    t.phase = .faulted ∧ t.faultRecord = (code, s.grant, paddr, 0, desc) ∧ t.hist = s.hist ∧ t.cells = s.cells ∧
      t.lockOwner = some s.grant ∧ t.request s.grant = none := by
  subst ht
  exact ⟨rfl, rfl, rfl, rfl, rfl, clearReq_request s.clients s.grant⟩

/-- Both logical operations accept the request that is offered (40 R100). -/
theorem exec_logical_accepts {q : Request} (op : Op) (w : Width) (ho : s.Offers s.grant q) :
    exec (match op with | .read => .lread w | .write => .lwrite w) s = .next (s.accept op w q) := by
  cases op with
  | read => exact execLread_accept ho.idle ho.admitted ho.request
  | write => exact execLwrite_accept ho.idle ho.admitted ho.request

/-- The two low bits of an address are its remainder modulo the stride (20 R56). -/
theorem lowBits_eq_zero_iff (a : Addr) : a.extractLsb' 0 2 = 0 ↔ a.toNat % 4 = 0 := by
  rw [BitVec.toNat_eq, BitVec.extractLsb'_toNat]
  rfl

/-- Settles O10: the request is accepted as its operation, and its base is no multiple of the stride. -/
theorem misalignedFaults : Obligations.MisalignedFaults := by
  intro s op w q ho hlow
  have h4 : q.addr.toNat % 4 ≠ 0 := mt (lowBits_eq_zero_iff q.addr).2 hlow
  exact ⟨s.accept op w q, exec_logical_accepts op w ho, fault_at_acceptance (accept_misaligned h4)⟩

/-- Settles O11: the LDESC decodes to no instruction, so the sequencer's move is the acceptance of a reserved word. -/
theorem reservedEncodingFaults : Obligations.ReservedEncodingFaults := by
  intro s c rest q hw ha ho hreserved
  obtain ⟨e, he⟩ := (decodeLdesc_error_iff q.desc).2 hreserved.symm
  let u : State := { s with grant := c, env := { s.env with agenda := rest } }
  have hstep : step s = .next (u.acceptReserved q) :=
    (step_sequencer hw ha).trans (sequencerMove_reserved (s := u) ho.idle ho.admitted ho.request he)
  exact ⟨u.acceptReserved q, hstep, fault_at_acceptance (s := u) rfl⟩

end Sys2Proof.Machine
end

section
/-! PROOFS. The statement of 70_reset_and_hazards.md: reset (R230), the only step that leaves FAULTED or DEAD (60 R208). -/

namespace Sys2Proof.Machine

variable {s t : State}

/-! ## What reset sets -/

theorem step_reset {rest : List Move} (hw : s.cfg.WellFormed) (ha : s.env.agenda = .reset :: rest) :
    step s = .next s.called.applyReset := by
  rw [step_eq hw, (nextMove_of_agenda ha).1]
  rfl

/-- Reset clears a client and leaves it its program (43 R180, log 11). -/
theorem applyReset_clients (s : State) :
    s.applyReset.clients = s.clients.map (fun cl : Client => ⟨none, none, cl.prog, 0, [], .run, none⟩) :=
  List.map_map

/-- After reset slot `k` of a STORAGE register holds byte `w-1-k` of the reset value: no cell is listed (42 R166). -/
theorem cell_applyReset (hc : s.cfg.WellFormed) {r k : Nat} {reg : RegDesc} (hr : s.cfg.regs[r]? = some reg)
    (hs : reg.kind = .storage) (hk : k < reg.w.bytes) :
    s.applyReset.cell reg k = byteOf reg.reset (reg.w.bytes - 1 - k) := calc
  s.applyReset.cell reg k = resetByte s.cfg (slotAddr s.cfg reg k) := rfl
  _ = beByte reg.w reg.reset k := by simp only [resetByte, csrDecode_slotAddr hc hr hk, if_pos hs]

/-! ## What leaves FAULTED and DEAD -/

/-- The sequencer never moves the attach state (10 R24). -/
theorem SequencerCase.attach (h : SequencerCase s t) : t.attach = s.attach := by
  cases h with
  | wait | reserved _ _ _ _ _ _ | fault _ _ _ | complete _ _ => rfl
  | accept q op w _ _ _ _ =>
    obtain ⟨-, hkeep, -⟩ := accept_facts s op w q
    exact hkeep
  | read _ _ _ _ => exact s.readCycle_attach
  | write _ _ _ _ => exact s.writeCycle_attach

/-- Once the self-test has ended no agent moves the attach state (10 R24, 43 R190). -/
theorem StepCase.attach_kept (h : StepCase s t) (hreset : s.nextMove ≠ .reset) (hended : s.attach ≠ .selftest) :
    t.attach = s.attach := by
  cases h with
  | sequencer c t _ hc => exact hc.attach
  | client c t _ hc =>
    rcases hc.record_kept_or_selftest with ⟨hkeep, -⟩ | ⟨hs, -⟩
    · exact hkeep
    · exact absurd hs hended
  | submit c q => exact State.submit_attach _ c q
  | consume c => exact State.consume_attach _ c
  | device r v => exact State.deviceEvent_attach _ r v
  | reset hm => exact absurd hm hreset

/-- Only the sequencer moves the phase, and that of a FAULTED codec makes no step (60 R208). -/
theorem StepCase.faulted_kept (h : StepCase s t) (hreset : s.nextMove ≠ .reset) (hf : s.phase = .faulted) : t.phase = .faulted := by
  rcases h.sequencer_or_access_kept hreset with ⟨c, -, hc⟩ | ⟨hphase, -⟩
  · rw [hc.eq_of_stopped (.inl hf)]
    exact hf
  · exact hphase.trans hf

/-- Settles O56: the step is `applyReset`, and no other move leaves FAULTED or changes an attach state that is not SELFTEST. -/
theorem resetRule : Obligations.ResetRule := by
  intro s
  refine ⟨fun rest hw ha => ?_, fun t hstep hf hleft => ?_, fun t hstep hd hleft => ?_⟩
  · exact ⟨s.called.applyReset, step_reset hw ha, rfl, rfl, rfl, rfl, rfl, applyReset_clients s.called, rfl,
      fun r reg k hr hs hk => cell_applyReset (s := s.called) hw hr hs hk⟩
  · by_contra hreset
    exact hleft ((step_cases hstep).faulted_kept hreset hf)
  · by_contra hreset
    have hended : s.attach ≠ .selftest := by rw [hd]; decide
    exact hleft (((step_cases hstep).attach_kept hreset hended).trans hd)

end Sys2Proof.Machine
end
